-- ==== Sys2Proof/Word.lean ====
section
/-! DEFINITION. The word types of the QOI codec core (00_scope R7, R9, R10): every channel and stream byte is a `u8`,
the width and the height are `u32`. -/

namespace Sys2Proof

/-- `u8` (00_scope R10): a channel, a stream byte, a byte of the pixel buffer. Bit 0 is the least significant (R9). -/
abbrev Byte := BitVec 8

/-- `u32` (00_scope R10): the width and the height (10_state R39). -/
abbrev Word := BitVec 32

end Sys2Proof
end

