-- ==== Sys2Proof/Config.lean ====
section
/-! DEFINITION. What the source leaves to the machine (00_scope R8), and the free values. -/

namespace Sys2Proof

/-- The two open parameters of 00_scope R8 (92_eei_decisions D7, D16). They are plain data of the state that no step
writes, so that a statement over every state holds for every value of them (log 8). -/
structure Params where
  /-- `COLORSPACE_OUT`: the byte ENCODE writes at header offset 13. -/
  colorspaceOut : Byte
  /-- `MAX_PIXELS`: the largest `W*H` accepted, or no limit. -/
  maxPixels : Option Nat
  deriving DecidableEq, Repr

/-- The defaults of 00_scope R8: `COLORSPACE_OUT` 0, `MAX_PIXELS` none. -/
def Params.default : Params where
  colorspaceOut := 0
  maxPixels := none

/-- A free value of 32 bits: what `W` or `H` holds between a DECODE command start and its header step, which 10_state
R39 and R45 call unspecified. It has no body, so no proof can see it (log 7). -/
opaque Config.freeWord : Nat → Word

/-- A free value of 8 bits: what `C` or `CS` holds between a DECODE command start and its header step (log 7). -/
opaque Config.freeByte : Nat → Byte

end Sys2Proof
end

