-- ==== Sys2Proof/Machine/State.lean ====
section
/-! DEFINITION. The state of one engine (10_state), its memories (20_memory), what can stop a step, and the state of a
newly created engine. -/

namespace Sys2Proof.Machine

/-! ### Data -/

/-- A pixel: four `u8` channels (00_scope R11), always held at full RGBA width. -/
structure Pixel where
  r : Byte
  g : Byte
  b : Byte
  a : Byte
  deriving DecidableEq, Repr

/-- The pixel every cache slot holds at command start (10_state R36). -/
def Pixel.zero : Pixel := ⟨0, 0, 0, 0⟩

/-- The previous pixel at command start (10_state R35). -/
def Pixel.initial : Pixel := ⟨0, 0, 0, 255⟩

/-- One byte-addressed space (20_memory R70): the listed bytes, addresses strictly rising. A byte that is not listed has
no value (log 11). -/
abbrev Mem := List Host.Cell

/-- The canonical form of a memory: addresses strictly rising, so no address twice. No listed byte can equal what an
unlisted address reads as, which is no value at all. -/
abbrev Mem.wf (m : Mem) : Prop := m.Pairwise fun x y => x.1 < y.1

/-- `PB` (20_memory R73): its length `N * C` in bytes and the bytes that hold a value. -/
structure PixelBuffer where
  size : Nat
  bytes : Mem
  deriving DecidableEq, Repr

/-- `MODE` (10_state R34). -/
inductive Mode where
  | decode
  | encode
  deriving DecidableEq, Repr

/-- `PHASE` (10_state R32). -/
inductive Phase where
  | idle
  | header
  | body
  | trailer
  | done
  | error
  deriving DecidableEq, Repr

/-- `ERR` (10_state R41, 60_exceptions R270), by name; the numbers are `ErrorCode.code` in Machine/Flags.lean. -/
inductive ErrorCode where
  /-- 0: running, or finished DONE. -/
  | noError
  /-- 1: FormatError. -/
  | format
  /-- 2: InvalidDimensionsError. -/
  | invalidDimensions
  /-- 3: TruncatedStreamError. -/
  | truncatedStream
  /-- 4: IOError. -/
  | io
  deriving DecidableEq, Repr

/-- What the byte source answers for an offset at which `IN` lists no byte (20_memory R74, log 3). -/
inductive SourceEnd where
  /-- `EOS`: the stream has ended. -/
  | eos
  /-- `IOFAIL`: the read fails. -/
  | ioFail
  /-- No answer: the engine holds (10_state R33). -/
  | silent
  deriving DecidableEq, Repr

/-- What the byte sink answers (20_memory R75, log 4). -/
inductive SinkEnd where
  /-- `OK` to every byte. -/
  | never
  /-- `OK` below the offset, `IOFAIL` at it. -/
  | ioFailAt (offset : Nat)
  /-- `OK` below the offset, no answer at it: the engine holds (10_state R33). -/
  | silentAt (offset : Nat)
  deriving DecidableEq, Repr

/-- The two commands (10_state R31) with all their operands: the streams' and the sink's answers are operands too. -/
inductive Command where
  /-- `DECODE(IN)`: the bytes of the stream, and what the source answers after the last of them. -/
  | decode (input : List Byte) (inEnd : SourceEnd)
  /-- `ENCODE(W, H, C, PB)`: the operands, the bytes of the pixel buffer, and what the sink answers. -/
  | encode (w h : Word) (c : Byte) (pb : List Byte) (sinkEnd : SinkEnd)
  deriving DecidableEq, Repr

/-! ### What can stop a step -/

/-- A step that ends without a next state. The four typed errors of 60_exceptions are NOT here: they are next states. -/
inductive Fault where
  /-- A step needs a byte the source never delivers (10_state R33, 93 U11: stuck). Raised by every DECODE step that
  reads. Safe: the spec gives this step no next state. -/
  | sourceSilent
  /-- A step needs a byte accepted that the sink never accepts (10_state R33, 93 U11: stuck). Raised by every ENCODE
  step that writes. Safe: the spec gives this step no next state. -/
  | sinkSilent
  /-- A pixel store outside the pixel buffer (20_memory R82: the engine never makes one). Raised by the decoder's
  stores. Safe: no state that follows a command start meets it (log 12). -/
  | pbOutOfRange
  /-- A pixel load from a pixel-buffer byte that holds no value. Raised by the encoder's loads. Safe: no state that
  follows a command start meets it, for the host supplies every byte (log 11). -/
  | pbByteAbsent
  deriving DecidableEq, Repr

/-- An instruction that has no step in this state. -/
inductive Refusal where
  /-- The instruction has no meaning in this model yet. Raised by `exec`'s arms alone. Safe. -/
  | notModelled (mnemonic : String)
  /-- No opcode step is due: PHASE is not BODY, or CURSOR is not below N (41_decoder R161, 42_encoder R202). Raised by
  every opcode. Safe: `step` never asks for it (log 13). -/
  | noOpcodeStep
  /-- The encoder's selection chose another opcode or other operands (42_encoder R201: there is one choice). Raised by
  every opcode in ENCODE. Safe: `step` never asks for it (log 13). -/
  | notSelected
  /-- A RUN whose length field is 62 or 63 (30_encoding R108, R112: reserved, no byte decodes to it). Raised by RUN.
  Safe: `step` never asks for it (log 13). -/
  | reservedRunLength
  deriving DecidableEq, Repr

/-! ### The state -/

/-- One engine, its byte source and sink, and the commands its host issues. -/
structure State where
  /-- `MODE` (10_state R34). -/
  mode : Mode
  /-- `PHASE` (10_state R32). -/
  phase : Phase
  /-- `PREV` (10_state R35). -/
  prev : Pixel
  /-- `CACHE[0..63]` (10_state R36). -/
  cache : Vector Pixel 64
  /-- `CURSOR` (10_state R37). -/
  cursor : Nat
  /-- `BPOS` (10_state R38). -/
  bpos : Nat
  /-- `W` (10_state R39). -/
  w : Word
  /-- `H` (10_state R39). -/
  h : Word
  /-- `C` (10_state R39). -/
  c : Byte
  /-- `CS` (10_state R39). -/
  cs : Byte
  /-- `ERR` (10_state R41). -/
  err : ErrorCode
  /-- `END_WARN` (10_state R42). -/
  endWarn : Bool
  /-- `PB` (20_memory R70, R73), `none` while it is not allocated (10_state R45). -/
  pb : Option PixelBuffer
  /-- `IN` (20_memory R70, R71). -/
  inp : Mem
  /-- What the source answers where `IN` lists no byte (20_memory R74). -/
  inEnd : SourceEnd
  /-- `OUT` (20_memory R70, R72). -/
  out : Mem
  /-- What the sink answers (20_memory R75). -/
  sinkEnd : SinkEnd
  /-- The commands the host issues, oldest first (10_state R31, log 1). -/
  commands : List Command
  /-- The open parameters (00_scope R8, log 8). -/
  params : Params
  /-- The model's own counter of free values drawn (log 7). -/
  draws : Nat
  deriving DecidableEq, Repr

/-- A newly created engine (70_reset R300): PHASE is IDLE. 70_reset R300 leaves every other field unspecified before the
first command start; the values here are the model's, the command-start values of 10_state R45 where it gives one and
zero or empty elsewhere (DESIGN CHOICE, log 6). -/
def State.reset : State where
  mode := .decode
  phase := .idle
  prev := Pixel.initial
  cache := Vector.replicate 64 Pixel.zero
  cursor := 0
  bpos := 0
  w := 0
  h := 0
  c := 0
  cs := 0
  err := .noError
  endWarn := false
  pb := none
  inp := []
  inEnd := .silent
  out := []
  sinkEnd := .silentAt 0
  commands := []
  params := Params.default
  draws := 0

end Sys2Proof.Machine
end

