-- ==== Sys2Proof/Machine/Flags.lean ====
section
/-! DEFINITION. The block has no condition codes (10_state R43). Its status is the error code `ERR` (R41) and the one
flag `END_WARN` (R42). -/

namespace Sys2Proof.Machine

/-- The number of an error code (60_exceptions R270). -/
def ErrorCode.code : ErrorCode → Nat
  | .noError => 0
  | .format => 1
  | .invalidDimensions => 2
  | .truncatedStream => 3
  | .io => 4

/-- `END_WARN <- 1` (41_decoder R172: the only write of the flag besides a command start). -/
def State.warnEnd (s : State) : State := { s with endWarn := true }

end Sys2Proof.Machine
end

