-- ==== Sys2Proof/Syntax.lean ====
section
/-! DEFINITION. The instruction set: the six wire opcodes (30_encoding R101), one constructor per row of
spec/opcode_table.json, with the fields as they are STORED in the stream (30_encoding R103 to R108).
What a stored field means is Machine/Operands.lean (R109). -/

namespace Sys2Proof

/-- The six opcodes without their fields: what the tag byte alone fixes (30_encoding R101, R102). -/
inductive Opcode where
  | rgb
  | rgba
  | index
  | diff
  | luma
  | run
  deriving DecidableEq, Repr

/-- One opcode with its fields as stored in the stream. -/
inductive Instr where
  /-- RGB, 4 bytes: literal red, green, blue (30_encoding R103). -/
  | rgb (r g b : Byte)
  /-- RGBA, 5 bytes: literal red, green, blue, alpha (30_encoding R104). -/
  | rgba (r g b a : Byte)
  /-- INDEX, 1 byte: a cache slot, no bias (30_encoding R105). -/
  | index (idx : BitVec 6)
  /-- DIFF, 1 byte: red, green and blue delta, each plus 2 (30_encoding R106). -/
  | diff (dr2 dg2 db2 : BitVec 2)
  /-- LUMA, 2 bytes: green delta plus 32, then the red and blue cross-deltas, each plus 8 (30_encoding R107). -/
  | luma (dg32 : BitVec 6) (drg8 dbg8 : BitVec 4)
  /-- RUN, 1 byte: run length minus 1, legal 0..61 (30_encoding R108). -/
  | run (len1 : BitVec 6)
  deriving DecidableEq, Repr

/-- The opcode an instruction belongs to. -/
def Instr.opcode : Instr → Opcode
  | .rgb _ _ _ => .rgb
  | .rgba _ _ _ _ => .rgba
  | .index _ => .index
  | .diff _ _ _ => .diff
  | .luma _ _ _ => .luma
  | .run _ => .run

end Sys2Proof
end

