-- ==== Sys2Proof/WellFormed.lean ====
section
/-! DEFINITION. Which instructions are well formed. The one reserved field value of the opcode stream is the run
length field 62 or 63 (30_encoding R108, R111, R112): those bytes are the tags of RGB and RGBA. -/

namespace Sys2Proof

/-- An instruction some bytes of a stream decode to (30_encoding R111, R112). -/
def Instr.wellFormed : Instr → Bool
  | .rgb _ _ _ => true
  | .rgba _ _ _ _ => true
  | .index _ => true
  | .diff _ _ _ => true
  | .luma _ _ _ => true
  | .run len1 => decide (len1.toNat < 62)

end Sys2Proof
end

