-- ==== Sys2Proof/Decode.lean ====
section
/-! DEFINITION. Decoding the opcode stream and, after it, encoding it (30_encoding). -/

namespace Sys2Proof

/-! ### Decoding -/

/-- Why some bytes are no opcode: there are too few of them. No byte VALUE is ever refused (30_encoding R111). -/
inductive DecodeError where
  /-- There is no tag byte (41_decoder R162). -/
  | noTag
  /-- The payload is cut short (41_decoder R163). -/
  | payloadCutShort
  deriving DecidableEq, Repr

/-- Tag classification (30_encoding R102): the two 8-bit tests first, then the top two bits. -/
def classify (b0 : Byte) : Opcode :=
  if b0 = 0xFE then .rgb
  else if b0 = 0xFF then .rgba
  else if b0.extractLsb' 6 2 = 0b00 then .index
  else if b0.extractLsb' 6 2 = 0b01 then .diff
  else if b0.extractLsb' 6 2 = 0b10 then .luma
  else .run

/-- The length in bytes of an opcode (30_encoding R101). -/
def Opcode.length : Opcode → Nat
  | .rgb => 4
  | .rgba => 5
  | .index => 1
  | .diff => 1
  | .luma => 2
  | .run => 1

/-- The length in bytes of an instruction (30_encoding R101, R110). -/
def Instr.length (i : Instr) : Nat := i.opcode.length

/-- The length of the longest opcode, RGBA (30_encoding R101). -/
def maxOpcodeLength : Nat := 5

/-- RGB's payload (30_encoding R103). -/
def decodeRgb : List Byte → Except DecodeError (Instr × List Byte)
  | r :: g :: b :: rest => .ok (.rgb r g b, rest)
  | _ => .error .payloadCutShort

/-- RGBA's payload (30_encoding R104). -/
def decodeRgba : List Byte → Except DecodeError (Instr × List Byte)
  | r :: g :: b :: a :: rest => .ok (.rgba r g b a, rest)
  | _ => .error .payloadCutShort

/-- LUMA's tag byte and payload (30_encoding R107; the nibble order is 92_eei_decisions D6). -/
def decodeLuma (b0 : Byte) : List Byte → Except DecodeError (Instr × List Byte)
  | b1 :: rest => .ok (.luma (b0.extractLsb' 0 6) (b1.extractLsb' 4 4) (b1.extractLsb' 0 4), rest)
  | [] => .error .payloadCutShort

/-- The first opcode of some bytes and the bytes after it. Total: the only refusals are too few bytes
(30_encoding R111, R117; the DIFF field positions are 92_eei_decisions D5). -/
def decode : List Byte → Except DecodeError (Instr × List Byte)
  | [] => .error .noTag
  | b0 :: rest =>
    match classify b0 with
    | .rgb => decodeRgb rest
    | .rgba => decodeRgba rest
    | .index => .ok (.index (b0.extractLsb' 0 6), rest)
    | .diff => .ok (.diff (b0.extractLsb' 4 2) (b0.extractLsb' 2 2) (b0.extractLsb' 0 2), rest)
    | .luma => decodeLuma b0 rest
    | .run => .ok (.run (b0.extractLsb' 0 6), rest)

/-- The bytes of an instruction whose bits are `w`, first byte in bits 7..0 and each later byte above it; bits at
`nbits` and above are 0. -/
def tableBytes (nbits w : Nat) : List Byte :=
  (List.range maxOpcodeLength).map fun j => BitVec.ofNat 8 (w % 2 ^ nbits / 2 ^ (8 * j))

/-- The instruction the decoder reads from an instruction whose bits are `w`, numbered as spec/opcode_table.json
numbers them. -/
def decodeTableWord (nbits w : Nat) : Option Instr :=
  match decode (tableBytes nbits w) with
  | .ok (i, _) => some i
  | .error _ => none

/-! ### Encoding -/

/-- The bytes of an instruction in stream order (30_encoding R103 to R108, R116; R9's `++` puts its left operand in the
more significant bits). A RUN whose field is 62 or 63 is not well formed and its byte is a literal's tag. -/
def encode : Instr → List Byte
  | .rgb r g b => [0xFE, r, g, b]
  | .rgba r g b a => [0xFF, r, g, b, a]
  | .index idx => [0b00#2 ++ idx]
  | .diff dr2 dg2 db2 => [0b01#2 ++ dr2 ++ dg2 ++ db2]
  | .luma dg32 drg8 dbg8 => [0b10#2 ++ dg32, drg8 ++ dbg8]
  | .run len1 => [0b11#2 ++ len1]

end Sys2Proof
end

