-- ==== Sys2Proof/Machine/Operands.lean ====
section
/-! DEFINITION. The operand forms and the channel arithmetic: modular bytes (00_scope R10), the hash (40_color_cache
R140), the values the stored fields stand for (30_encoding R109), the pixel each opcode denotes (41_decoder R165 to
R169), and the encoder's deltas (42_encoder R203). -/

namespace Sys2Proof.Machine

/-- `wrap8(v)` = v mod 256 as a byte, never saturating (00_scope R10). -/
def wrap8 (v : Int) : Byte := BitVec.ofInt 8 v

/-- `s8(v)`: the value in -128..127 congruent to `v` modulo 256 (00_scope R10). -/
def s8 (v : Int) : Int := (wrap8 v).toInt

/-- The hash of a pixel, alpha included, summed over unbounded naturals (40_color_cache R140, R141). -/
def pixelHash (p : Pixel) : BitVec 6 :=
  BitVec.ofNat 6 (p.r.toNat * 3 + p.g.toNat * 5 + p.b.toNat * 7 + p.a.toNat * 11)

/-! ### Stored fields (30_encoding R109) -/

/-- The value a stored field stands for: the unsigned field minus its bias. -/
def fieldValue {n : Nat} (bias : Nat) (f : BitVec n) : Int := (f.toNat : Int) - (bias : Int)

/-- The field a value is stored as: the value plus the bias. -/
def storeField (n bias : Nat) (d : Int) : BitVec n := BitVec.ofInt n (d + (bias : Int))

/-- DIFF's bias (00_scope R7, 30_encoding R109). -/
def diffBias : Nat := 2

/-- LUMA's green bias (00_scope R7, 30_encoding R109). -/
def lumaGreenBias : Nat := 32

/-- LUMA's cross-delta bias (00_scope R7, 30_encoding R109). -/
def lumaCrossBias : Nat := 8

/-- The number of pixels a RUN field stands for (30_encoding R108, R109: bias -1). -/
def runCount (len1 : BitVec 6) : Nat := len1.toNat + 1

/-- The field a run of `n` pixels is stored as (30_encoding R109). -/
def storeRun (n : Nat) : BitVec 6 := BitVec.ofNat 6 (n - 1)

/-- The longest run of one RUN opcode (00_scope R7, 42_encoder R205). -/
def maxRun : Nat := 62

/-! ### The pixel an opcode denotes -/

/-- RGB keeps the previous alpha (41_decoder R165). -/
def rgbPixel (prev : Pixel) (r g b : Byte) : Pixel := ⟨r, g, b, prev.a⟩

/-- Each channel moved by its delta modulo 256, alpha kept (41_decoder R168, R169). -/
def movePixel (prev : Pixel) (dr dg db : Int) : Pixel :=
  ⟨wrap8 ((prev.r.toNat : Int) + dr), wrap8 ((prev.g.toNat : Int) + dg), wrap8 ((prev.b.toNat : Int) + db), prev.a⟩

/-- DIFF's pixel (41_decoder R168). -/
def diffPixel (prev : Pixel) (dr2 dg2 db2 : BitVec 2) : Pixel :=
  movePixel prev (fieldValue diffBias dr2) (fieldValue diffBias dg2) (fieldValue diffBias db2)

/-- LUMA's pixel: the red and blue deltas are the green delta plus their cross-deltas (41_decoder R169). -/
def lumaPixel (prev : Pixel) (dg32 : BitVec 6) (drg8 dbg8 : BitVec 4) : Pixel :=
  let dg := fieldValue lumaGreenBias dg32
  movePixel prev (dg + fieldValue lumaCrossBias drg8) dg (dg + fieldValue lumaCrossBias dbg8)

/-! ### The encoder's deltas (42_encoder R203) -/

/-- One channel's delta, a signed byte (42_encoder R203; 92_eei_decisions D4). -/
def channelDelta (cur prev : Byte) : Int := s8 ((cur.toNat : Int) - (prev.toNat : Int))

/-- All three deltas lie in DIFF's range (42_encoder R201, R207). -/
def diffFits (dr dg db : Int) : Bool :=
  decide (-2 ≤ dr ∧ dr ≤ 1 ∧ -2 ≤ dg ∧ dg ≤ 1 ∧ -2 ≤ db ∧ db ≤ 1)

/-- The green delta and both cross-deltas lie in LUMA's ranges (42_encoder R201, R208). -/
def lumaFits (dg drg dbg : Int) : Bool :=
  decide (-32 ≤ dg ∧ dg ≤ 31 ∧ -8 ≤ drg ∧ drg ≤ 7 ∧ -8 ≤ dbg ∧ dbg ≤ 7)

/-- The DIFF instruction that stores three deltas (42_encoder R207). -/
def diffInstr (dr dg db : Int) : Instr :=
  .diff (storeField 2 diffBias dr) (storeField 2 diffBias dg) (storeField 2 diffBias db)

/-- The LUMA instruction that stores a green delta and two cross-deltas (42_encoder R208). -/
def lumaInstr (dg drg dbg : Int) : Instr :=
  .luma (storeField 6 lumaGreenBias dg) (storeField 4 lumaCrossBias drg) (storeField 4 lumaCrossBias dbg)

/-- The opcode for a pixel whose alpha equals the previous one's and that no cache slot holds: DIFF, else LUMA, else
RGB (42_encoder R201). -/
def sameAlphaInstr (px prev : Pixel) : Instr :=
  let dr := channelDelta px.r prev.r
  let dg := channelDelta px.g prev.g
  let db := channelDelta px.b prev.b
  let drg := s8 (dr - dg)
  let dbg := s8 (db - dg)
  if diffFits dr dg db then diffInstr dr dg db
  else if lumaFits dg drg dbg then lumaInstr dg drg dbg
  else .rgb px.r px.g px.b

end Sys2Proof.Machine
end

