-- ==== Sys2Proof/Machine/Ops.lean ====
section
/-! DEFINITION. The named operations over the memories, the cache, the streams and the pixel buffer, raising an error,
and the shared ends of the opcode steps. -/

namespace Sys2Proof.Machine

/-! ### Memory -/

/-- What an unlisted address reads as: no value (20_memory R70 gives no contents; log 11). -/
def Mem.unlisted : Option Byte := none

/-- `MemRead` of one byte (00_scope R12). -/
def Mem.read : Mem → Nat → Option Byte
  | [], _ => Mem.unlisted
  | (k, v) :: m, a => if k = a then some v else Mem.read m a

/-- `MemWrite` of one byte, keeping the canonical form (00_scope R12). -/
def Mem.write : Mem → Nat → Byte → Mem
  | [], a, v => [(a, v)]
  | (k, u) :: m, a, v =>
    if a < k then (a, v) :: (k, u) :: m
    else if a = k then (a, v) :: m
    else (k, u) :: Mem.write m a v

/-- The bytes of a list written at consecutive addresses. -/
def Mem.writeList : Mem → Nat → List Byte → Mem
  | m, _, [] => m
  | m, a, v :: vs => Mem.writeList (Mem.write m a v) (a + 1) vs

/-- The memory that lists the bytes of a list from address `a` on. -/
def Mem.ofBytesFrom : Nat → List Byte → Mem
  | _, [] => []
  | a, v :: vs => (a, v) :: Mem.ofBytesFrom (a + 1) vs

/-- The pixel buffer the host supplies: the bytes in order from address 0 (10_state R31, 20_memory R73). -/
def PixelBuffer.ofBytes (bs : List Byte) : PixelBuffer := ⟨bs.length, Mem.ofBytesFrom 0 bs⟩

/-! ### Dimensions -/

/-- `N = W * H`, an unbounded natural (10_state R40). -/
def State.n (s : State) : Nat := s.w.toNat * s.h.toNat

/-- `C` as a number. -/
def State.channels (s : State) : Nat := s.c.toNat

/-! ### The color cache (40_color_cache) -/

/-- `CACHE[i]` (40_color_cache R142). -/
def State.cacheAt (s : State) (i : BitVec 6) : Pixel := s.cache[i.toNat]'i.isLt

/-- `CACHE[hash(p)] <- p` (40_color_cache R143). -/
def State.cachePut (s : State) (p : Pixel) : State :=
  { s with cache := s.cache.set (pixelHash p).toNat p (pixelHash p).isLt }

/-- The cache write of the opcodes that make one (40_color_cache R143: RGB, RGBA, DIFF and LUMA). -/
def State.cachePutIf (write : Bool) (p : Pixel) (s : State) : State := if write then s.cachePut p else s

/-! ### Raising an error, the block's only exception (60_exceptions) -/

/-- `raise E` (60_exceptions R272): the error code and the phase; `BPOS` and `CURSOR` are the record of where. No
handler, no saved state, and no return from an error (R279): only a command start leaves ERROR. -/
def State.raise (e : ErrorCode) (s : State) : State := { s with err := e, phase := .error }

/-! ### The byte source (20_memory R74) -/

/-- What `ReadByte()` returns. -/
inductive ReadAnswer where
  /-- A byte, and the state with `BPOS` past it. -/
  | byte (v : Byte) (s : State)
  /-- What the source answers in place of a byte; the state is as it was. -/
  | noByte (why : SourceEnd)

/-- `ReadByte()` (20_memory R74). -/
def State.readByte (s : State) : ReadAnswer :=
  match Mem.read s.inp s.bpos with
  | some v => .byte v { s with bpos := s.bpos + 1 }
  | none => .noByte s.inEnd

/-- The bytes that `k` calls of `ReadByte()` in a row return, up to the first answer that is no byte. -/
def State.delivered : Nat → State → List Byte
  | 0, _ => []
  | k + 1, s =>
    match s.readByte with
    | .byte v t => v :: State.delivered k t
    | .noByte _ => []

/-- `BPOS` past `k` bytes read (20_memory R74). -/
def State.consume (k : Nat) (s : State) : State := { s with bpos := s.bpos + k }

/-- The end of a step whose read after `k` bytes gets no byte: `EOS` raises the error the step names, `IOFAIL` raises
IOError (60_exceptions R276), and with no answer the step is not enabled at all (10_state R33). -/
def State.readStopped (k : Nat) (atEos : ErrorCode) (s : State) : Host.Outcome State Fault Refusal :=
  match s.inEnd with
  | .eos => .next ((s.consume k).raise atEos)
  | .ioFail => .next ((s.consume k).raise .io)
  | .silent => .fault .sourceSilent

/-! ### The byte sink (20_memory R75) -/

/-- What the sink answers for an offset. -/
inductive SinkAnswer where
  | ok
  | ioFail
  | silent
  deriving DecidableEq, Repr

/-- The sink's answer for an offset (20_memory R75, log 4). -/
def SinkEnd.answer : SinkEnd → Nat → SinkAnswer
  | .never, _ => .ok
  | .ioFailAt k, o => if o < k then .ok else .ioFail
  | .silentAt k, o => if o < k then .ok else .silent

/-- An accepted byte: `OUT[BPOS] <- b; BPOS <- BPOS + 1` (20_memory R75). -/
def State.accept (b : Byte) (s : State) : State :=
  { s with out := Mem.write s.out s.bpos b, bpos := s.bpos + 1 }

/-- How an `emit` ends. -/
inductive EmitResult where
  /-- Every byte accepted. -/
  | sent (s : State)
  /-- `IOFAIL` at one byte; the state has the bytes accepted before it (42_encoder R211). -/
  | failed (s : State)
  /-- No answer at one byte: the whole step is not enabled (10_state R33). -/
  | held

/-- `emit(b0, b1, ...)` (00_scope R12): the bytes in order, stopping at the first the sink does not accept. -/
def State.emit : List Byte → State → EmitResult
  | [], s => .sent s
  | b :: bs, s =>
    match s.sinkEnd.answer s.bpos with
    | .ok => State.emit bs (s.accept b)
    | .ioFail => .failed s
    | .silent => .held

/-- A step that emits bytes and then writes its other state (42_encoder R211: on IOFAIL it commits nothing). -/
def State.emitThen (bs : List Byte) (commit : State → State) (s : State) : Host.Outcome State Fault Refusal :=
  match s.emit bs with
  | .sent t => .next (commit t)
  | .failed t => .next (t.raise .io)
  | .held => .fault .sinkSilent

/-! ### The pixel buffer (20_memory R73, R77, R78) -/

/-- One byte of `PB`; none where it holds no value, is out of bounds or is not allocated. -/
def State.pbRead (s : State) (a : Nat) : Option Byte :=
  match s.pb with
  | some pb => if a < pb.size then Mem.read pb.bytes a else none
  | none => none

/-- `LoadPixel(i)` (20_memory R77); none where a byte of it holds no value. -/
def State.loadPixel (s : State) (i : Nat) : Option Pixel :=
  match s.pbRead (i * s.channels + 0), s.pbRead (i * s.channels + 1), s.pbRead (i * s.channels + 2) with
  | some r, some g, some b =>
    if s.c = 4 then
      match s.pbRead (i * s.channels + 3) with
      | some a => some ⟨r, g, b, a⟩
      | none => none
    else some ⟨r, g, b, 255⟩
  | _, _, _ => none

/-- The bytes `StorePixel` stores (20_memory R78): alpha only when `C = 4`. -/
def pixelBytes (c : Byte) (p : Pixel) : List Byte :=
  if c = 4 then [p.r, p.g, p.b, p.a] else [p.r, p.g, p.b]

/-- `PB` replaced. -/
def State.setPb (pb : PixelBuffer) (s : State) : State := { s with pb := some pb }

/-- `StorePixel(i, p)` (20_memory R78); none where it would leave the buffer (20_memory R82). -/
def State.storePixel (i : Nat) (p : Pixel) (s : State) : Option State :=
  match s.pb with
  | some pb =>
    if i * s.channels + (pixelBytes s.c p).length ≤ pb.size then
      some (s.setPb ⟨pb.size, Mem.writeList pb.bytes (i * s.channels) (pixelBytes s.c p)⟩)
    else none
  | none => none

/-- `m` pixels equal to `p` stored from index `i` on, in increasing order (41_decoder R170). -/
def State.storePixels : Nat → Nat → Pixel → State → Option State
  | 0, _, _, s => some s
  | m + 1, i, p, s =>
    match s.storePixel i p with
    | some t => State.storePixels m (i + 1) p t
    | none => none

/-! ### The shared ends of the opcode steps -/

/-- `PREV <- p` (10_state R35). -/
def State.setPrev (p : Pixel) (s : State) : State := { s with prev := p }

/-- `CURSOR` past `m` pixels and `BPOS` past `len` bytes read (10_state R37, R38). -/
def State.advance (len m : Nat) (s : State) : State := { s with cursor := s.cursor + m, bpos := s.bpos + len }

/-- When a body step leaves `CURSOR = N`, `PHASE <- TRAILER` (41_decoder R171, 42_encoder R212). -/
def State.endBody (s : State) : State := if s.cursor = s.n then { s with phase := .trailer } else s

/-- An opcode step takes place only while `PHASE = BODY` and `CURSOR < N` (41_decoder R161, 42_encoder R202), and the
mode says which engine takes it (10_state R34). -/
def opcodeStep (s : State) (dec enc : Host.Outcome State Fault Refusal) : Host.Outcome State Fault Refusal :=
  if s.phase = .body ∧ s.cursor < s.n then
    match s.mode with
    | .decode => dec
    | .encode => enc
  else .refused .noOpcodeStep

/-- The end of a DECODE opcode step that produced one pixel: `len` bytes consumed (41_decoder R162, R163), the cache
written where the rule says so (R164), `PREV`, the store, the cursor, and the end of the body. -/
def State.decPixel (len : Nat) (writeCache : Bool) (px : Pixel) (s : State) : Host.Outcome State Fault Refusal :=
  match s.storePixel s.cursor px with
  | some t => .next ((t.cachePutIf writeCache px).setPrev px |>.advance len 1).endBody
  | none => .fault .pbOutOfRange

/-- The end of a DECODE RUN step of `m` pixels (41_decoder R170): the stores and the cursor; `PREV` and the cache keep
their values. -/
def State.decRun (len m : Nat) (s : State) : Host.Outcome State Fault Refusal :=
  match State.storePixels m s.cursor s.prev s with
  | some t => .next (t.advance len m).endBody
  | none => .fault .pbOutOfRange

/-- `EncCommit(px, write_cache)` (42_encoder R211) and the end of the body (R212). -/
def State.encCommit (px : Pixel) (writeCache : Bool) (s : State) : State :=
  ((s.cachePutIf writeCache px).setPrev px |>.advance 0 1).endBody

/-- The commit of an ENCODE RUN step (42_encoder R205): the cursor only, and the end of the body (R212). -/
def State.encRunCommit (k : Nat) (s : State) : State := (s.advance 0 k).endBody

/-! ### The encoder's selection (42_encoder R201) -/

/-- The encoder's run count (42_encoder R205), from `k` pixels already counted, with `room` more under the cap. None
where a pixel of the run cannot be loaded. -/
def State.countRun (s : State) : Nat → Nat → Option Nat
  | 0, k => some k
  | room + 1, k =>
    if s.cursor + k < s.n then
      match s.loadPixel (s.cursor + k) with
      | some q => if q = s.prev then State.countRun s room (k + 1) else some k
      | none => none
    else some k

/-- The length of the run that starts at the cursor, 1 to 62 (42_encoder R205). -/
def State.runLength (s : State) : Option Nat := s.countRun (maxRun - 1) 1

/-- The opcode the encoder chooses for a pixel that differs from `PREV`: INDEX, then DIFF, LUMA or RGB where alpha is
unchanged, else RGBA (42_encoder R201). -/
def State.selectFor (s : State) (px : Pixel) : Instr :=
  if s.cacheAt (pixelHash px) = px then .index (pixelHash px)
  else if px.a = s.prev.a then sameAlphaInstr px s.prev
  else .rgba px.r px.g px.b px.a

/-- `EncStep()`'s choice (42_encoder R201): the one opcode, with its fields, that the encoder emits for the pixel at the
cursor. None where a pixel it loads has a byte that holds no value. -/
def State.encSelect (s : State) : Option Instr :=
  match s.loadPixel s.cursor with
  | none => none
  | some px =>
    if px = s.prev then
      match s.runLength with
      | some k => some (.run (storeRun k))
      | none => none
    else some (s.selectFor px)

/-- One emission rule of 42_encoder: where the selection chose exactly this opcode, its bytes are emitted and then the
rule's commit is made with the pixel at the cursor. -/
def State.encOpcode (i : Instr) (commit : Pixel → State → State) (s : State) : Host.Outcome State Fault Refusal :=
  match s.loadPixel s.cursor, s.encSelect with
  | some px, some j => if j = i then s.emitThen (encode i) (commit px) else .refused .notSelected
  | _, _ => .fault .pbByteAbsent

end Sys2Proof.Machine
end

