-- ==== Sys2Proof/Machine/Header.lean ====
section
/-! DEFINITION. The header codec (43_header_codec): the header step of both engines. -/

namespace Sys2Proof.Machine

/-- The magic "qoif" (20_memory R76; its byte values are ASCII, 93 G1). -/
def magic : List Byte := [0x71, 0x6F, 0x69, 0x66]

/-- The length of the header (00_scope R7). -/
def headerLength : Nat := 14

/-- `MAX_PIXELS` admits `k` pixels (00_scope R8). -/
def Params.admits (p : Params) (k : Nat) : Bool :=
  match p.maxPixels with
  | none => true
  | some m => decide (k ≤ m)

/-! ### ENCODE -/

/-- The four bytes of a `u32`, most significant first (20_memory R79). -/
def bigEndian (v : Word) : List Byte :=
  [v.extractLsb' 24 8, v.extractLsb' 16 8, v.extractLsb' 8 8, v.extractLsb' 0 8]

/-- The 14 header bytes (43_header_codec R241). -/
def headerBytes (w h : Word) (c cs : Byte) : List Byte := magic ++ bigEndian w ++ bigEndian h ++ [c, cs]

/-- The size of the pixel buffer, none while it is not allocated. -/
def State.pbSize (s : State) : Option Nat :=
  match s.pb with
  | some pb => some pb.size
  | none => none

/-- The ENCODE operands pass every check of 43_header_codec R240 (every failing check raises the same error). -/
def State.encodeOperandsOk (s : State) : Bool :=
  decide (s.c = 3 ∨ s.c = 4) && decide (s.w ≠ 0 ∧ s.h ≠ 0) &&
    decide (s.pbSize = some (s.w.toNat * s.h.toNat * s.channels)) && Params.admits s.params s.n

/-- The ENCODE header step: validation before any byte (43_header_codec R240), then the 14 bytes and the body
(R241). -/
def encodeHeader (s : State) : Host.Outcome State Fault Refusal :=
  if s.encodeOperandsOk then s.emitThen (headerBytes s.w s.h s.c s.cs) fun t => { t with phase := .body }
  else .next (s.raise .invalidDimensions)

/-! ### DECODE -/

/-- The fields of a header (43_header_codec R243, R248). -/
structure Header where
  magic : List Byte
  w : Word
  h : Word
  c : Byte
  cs : Byte
  deriving DecidableEq, Repr

/-- The 14 bytes as fields (43_header_codec R243; `++` puts its left operand in the more significant bits); none where
there are fewer than 14. -/
def parseHeader : List Byte → Option Header
  | [m0, m1, m2, m3, w0, w1, w2, w3, h0, h1, h2, h3, c, cs] =>
    some ⟨[m0, m1, m2, m3], w0 ++ w1 ++ w2 ++ w3, h0 ++ h1 ++ h2 ++ h3, c, cs⟩
  | _ => none

/-- The first failing check of 43_header_codec R244, in its order; none where every check passes. -/
def Header.check (hd : Header) (p : Params) : Option ErrorCode :=
  if hd.magic ≠ Machine.magic then some .format
  else if hd.w = 0 ∨ hd.h = 0 then some .invalidDimensions
  else if ¬(hd.c = 3 ∨ hd.c = 4) then some .invalidDimensions
  else if ¬(Params.admits p (hd.w.toNat * hd.h.toNat) = true) then some .invalidDimensions
  else none

/-- The latch of 43_header_codec R243 with the allocation of `PB` and the entry of the body (R245). -/
def State.latchHeader (hd : Header) (s : State) : State :=
  { s with
    w := hd.w, h := hd.h, c := hd.c, cs := hd.cs,
    pb := some ⟨hd.w.toNat * hd.h.toNat * hd.c.toNat, []⟩,
    phase := .body }

/-- The DECODE header step: 14 bytes read before any check (43_header_codec R242), the checks (R244), the latch (R243,
R245). A stream that ends inside the header is a FormatError. A failing check leaves `W`, `H`, `C` and `CS` as they were
(60_exceptions R272; DEDUCED, log 10). -/
def decodeHeader (s : State) : Host.Outcome State Fault Refusal :=
  let bs := s.delivered headerLength
  match parseHeader bs with
  | some hd =>
    match hd.check s.params with
    | some e => .next ((s.consume headerLength).raise e)
    | none => .next ((s.consume headerLength).latchHeader hd)
  | none => s.readStopped bs.length .format

end Sys2Proof.Machine
end

