-- ==== Sys2Proof/Machine/Trailer.lean ====
section
/-! DEFINITION. The end-marker step of both engines. -/

namespace Sys2Proof.Machine

/-- The end marker (00_scope R7, 20_memory R76). -/
def endMarker : List Byte := [0, 0, 0, 0, 0, 0, 0, 1]

/-- The end of a command without an error (10_state R32). -/
def State.finish (s : State) : State := { s with phase := .done }

/-- The DECODE end-marker loop over the marker bytes still expected (41_decoder R172): reading stops at the first
mismatch, which sets `END_WARN`, as the end of the stream does. -/
def checkMarker : List Byte → State → Host.Outcome State Fault Refusal
  | [], s => .next s.finish
  | e :: es, s =>
    match s.readByte with
    | .byte v t => if v = e then checkMarker es t else .next t.warnEnd.finish
    | .noByte .eos => .next s.warnEnd.finish
    | .noByte .ioFail => .next (s.raise .io)
    | .noByte .silent => .fault .sourceSilent

/-- The DECODE end-marker step (41_decoder R172). -/
def decodeTrailer (s : State) : Host.Outcome State Fault Refusal := checkMarker endMarker s

/-- The ENCODE end-marker step (42_encoder R213). -/
def encodeTrailer (s : State) : Host.Outcome State Fault Refusal := s.emitThen endMarker State.finish

end Sys2Proof.Machine
end

