-- ==== Sys2Proof/Machine/Control.lean ====
section
/-! DEFINITION. What the engine does next: command start, fetching an opcode, and the step each phase is due (10_state
R32, R33, R45). -/

namespace Sys2Proof.Machine

/-! ### Command start, the block's only reset (10_state R45, 70_reset R300) -/

/-- The fields every command start sets alike. -/
def State.clear (s : State) : State :=
  { s with
    phase := .header, prev := Pixel.initial, cache := Vector.replicate 64 Pixel.zero, cursor := 0, bpos := 0,
    err := .noError, endWarn := false, out := [] }

/-- Command start of DECODE: `W`, `H`, `C`, `CS` are unspecified until the header step (10_state R39, R45: free values,
log 7), `PB` is not yet allocated, and no sink is attached (log 25). -/
def State.startDecode (input : List Byte) (inEnd : SourceEnd) (s : State) : State :=
  { s.clear with
    mode := .decode,
    w := Config.freeWord s.draws, h := Config.freeWord (s.draws + 1),
    c := Config.freeByte (s.draws + 2), cs := Config.freeByte (s.draws + 3), draws := s.draws + 4,
    pb := none, inp := Mem.ofBytesFrom 0 input, inEnd := inEnd, sinkEnd := .silentAt 0 }

/-- Command start of ENCODE: the operands, `CS` from `COLORSPACE_OUT` (10_state R39, R45), and no source attached
(log 25). -/
def State.startEncode (w h : Word) (c : Byte) (pb : List Byte) (sinkEnd : SinkEnd) (s : State) : State :=
  { s.clear with
    mode := .encode, w := w, h := h, c := c, cs := s.params.colorspaceOut,
    pb := some (PixelBuffer.ofBytes pb), inp := [], inEnd := .silent, sinkEnd := sinkEnd }

/-- Command start from the command issued. -/
def State.start (cmd : Command) (s : State) : State :=
  match cmd with
  | .decode input inEnd => s.startDecode input inEnd
  | .encode w h c pb sinkEnd => s.startEncode w h c pb sinkEnd

/-- Between commands the engine waits (60_exceptions R286, log 2) and takes the host's next command (10_state R31). -/
def awaitCommand (s : State) : Host.Outcome State Fault Refusal :=
  match s.commands with
  | [] => .next s
  | cmd :: rest => .next (({ s with commands := rest }).start cmd)

/-! ### Fetching an opcode (41_decoder R162, R163) -/

/-- What the fetch at `BPOS` finds. -/
inductive Fetched where
  /-- A whole opcode. -/
  | opcode (i : Instr)
  /-- After `k` bytes of an opcode the source answers no byte. -/
  | cutShort (k : Nat)
  deriving DecidableEq, Repr

/-- The opcode at `BPOS`: the decoder needs no byte past the opcode's last (10_state R44), and where the bytes are too
few it has read them all. -/
def fetch (s : State) : Fetched :=
  match decode (s.delivered maxOpcodeLength) with
  | .ok (i, _) => .opcode i
  | .error _ => .cutShort (s.delivered maxOpcodeLength).length

/-! ### The step each phase is due (10_state R32) -/

/-- What a step does: run an opcode, or end as given. -/
inductive Action where
  | run (i : Instr)
  | other (o : Host.Outcome State Fault Refusal)

/-- The body of DECODE (41_decoder R161 to R163). -/
def decodeBody (s : State) : Action :=
  match fetch s with
  | .opcode i => .run i
  | .cutShort k => .other (s.readStopped k .truncatedStream)

/-- The body of ENCODE (42_encoder R201, R202). -/
def encodeBody (s : State) : Action :=
  match s.encSelect with
  | some i => .run i
  | none => .other (.fault .pbByteAbsent)

/-- What the engine does in this state. In BODY with `CURSOR` not below `N`, which no state after a command start
reaches, the loop is over (10_state R32, log 14). -/
def nextAction (s : State) : Action :=
  match s.phase with
  | .idle => .other (awaitCommand s)
  | .done => .other (awaitCommand s)
  | .error => .other (awaitCommand s)
  | .header =>
    match s.mode with
    | .decode => .other (decodeHeader s)
    | .encode => .other (encodeHeader s)
  | .body =>
    if s.cursor < s.n then
      match s.mode with
      | .decode => decodeBody s
      | .encode => encodeBody s
    else .other (.next { s with phase := .trailer })
  | .trailer =>
    match s.mode with
    | .decode => .other (decodeTrailer s)
    | .encode => .other (encodeTrailer s)

/-! ### Placing an opcode for the host -/

/-- A DECODE of a 62 by 1 image of 4 channels whose header step is over and whose body is about to begin: what stands
between a newly created engine and its first opcode (log 19). -/
def State.enterBody (s : State) : State :=
  { s with
    mode := .decode, phase := .body, cursor := 0, bpos := headerLength, w := 62, h := 1, c := 4,
    pb := some ⟨248, []⟩ }

/-- Whether `step` fetches an opcode in this state. -/
def State.fetches (s : State) : Bool :=
  decide (s.mode = .decode ∧ s.phase = .body ∧ s.cursor < s.n)

/-- Bytes placed where `step` fetches its next opcode, entering the body of a DECODE first where the state is in none
(log 19). -/
def State.placeBytes (bs : List Byte) (s : State) : State :=
  let t := if s.fetches then s else s.enterBody
  { t with inp := Mem.writeList t.inp t.bpos bs }

end Sys2Proof.Machine
end

