-- ==== Sys2Proof/Machine/Delta.lean ====
section
/-! DEFINITION. The delta opcodes DIFF and LUMA, in both engines. -/

namespace Sys2Proof.Machine

/-- DEC-DIFF (41_decoder R168). -/
def decDiff (dr2 dg2 db2 : BitVec 2) (s : State) : Host.Outcome State Fault Refusal :=
  s.decPixel (Instr.diff dr2 dg2 db2).length true (diffPixel s.prev dr2 dg2 db2)

/-- ENC-DIFF (42_encoder R207). -/
def encDiff (dr2 dg2 db2 : BitVec 2) (s : State) : Host.Outcome State Fault Refusal :=
  s.encOpcode (.diff dr2 dg2 db2) fun px => State.encCommit px true

/-- DIFF in either engine. -/
def execDiff (dr2 dg2 db2 : BitVec 2) (s : State) : Host.Outcome State Fault Refusal :=
  opcodeStep s (decDiff dr2 dg2 db2 s) (encDiff dr2 dg2 db2 s)

/-- DEC-LUMA (41_decoder R169). -/
def decLuma (dg32 : BitVec 6) (drg8 dbg8 : BitVec 4) (s : State) : Host.Outcome State Fault Refusal :=
  s.decPixel (Instr.luma dg32 drg8 dbg8).length true (lumaPixel s.prev dg32 drg8 dbg8)

/-- ENC-LUMA (42_encoder R208). -/
def encLuma (dg32 : BitVec 6) (drg8 dbg8 : BitVec 4) (s : State) : Host.Outcome State Fault Refusal :=
  s.encOpcode (.luma dg32 drg8 dbg8) fun px => State.encCommit px true

/-- LUMA in either engine. -/
def execLuma (dg32 : BitVec 6) (drg8 dbg8 : BitVec 4) (s : State) : Host.Outcome State Fault Refusal :=
  opcodeStep s (decLuma dg32 drg8 dbg8 s) (encLuma dg32 drg8 dbg8 s)

end Sys2Proof.Machine
end

