-- ==== Sys2Proof/Machine/Index.lean ====
section
/-! DEFINITION. The opcode INDEX, in both engines. -/

namespace Sys2Proof.Machine

/-- DEC-INDEX (41_decoder R167): the slot's pixel with no hash re-check (40_color_cache R145); the cache is not
written. -/
def decIndex (idx : BitVec 6) (s : State) : Host.Outcome State Fault Refusal :=
  s.decPixel (Instr.index idx).length false (s.cacheAt idx)

/-- ENC-INDEX (42_encoder R206): the cache is not written. -/
def encIndex (idx : BitVec 6) (s : State) : Host.Outcome State Fault Refusal :=
  s.encOpcode (.index idx) fun px => State.encCommit px false

/-- INDEX in either engine. -/
def execIndex (idx : BitVec 6) (s : State) : Host.Outcome State Fault Refusal :=
  opcodeStep s (decIndex idx s) (encIndex idx s)

end Sys2Proof.Machine
end

