-- ==== Sys2Proof/Machine/Literal.lean ====
section
/-! DEFINITION. The literal opcodes RGB and RGBA, in both engines. -/

namespace Sys2Proof.Machine

/-- DEC-RGB (41_decoder R165). -/
def decRgb (r g b : Byte) (s : State) : Host.Outcome State Fault Refusal :=
  s.decPixel (Instr.rgb r g b).length true (rgbPixel s.prev r g b)

/-- ENC-RGB (42_encoder R209). -/
def encRgb (r g b : Byte) (s : State) : Host.Outcome State Fault Refusal :=
  s.encOpcode (.rgb r g b) fun px => State.encCommit px true

/-- RGB in either engine. -/
def execRgb (r g b : Byte) (s : State) : Host.Outcome State Fault Refusal :=
  opcodeStep s (decRgb r g b s) (encRgb r g b s)

/-- DEC-RGBA (41_decoder R166), the same for every `C`: alpha enters `PREV` and the cache and is dropped only at the
store (92_eei_decisions D18). -/
def decRgba (r g b a : Byte) (s : State) : Host.Outcome State Fault Refusal :=
  s.decPixel (Instr.rgba r g b a).length true ⟨r, g, b, a⟩

/-- ENC-RGBA (42_encoder R210). -/
def encRgba (r g b a : Byte) (s : State) : Host.Outcome State Fault Refusal :=
  s.encOpcode (.rgba r g b a) fun px => State.encCommit px true

/-- RGBA in either engine. -/
def execRgba (r g b a : Byte) (s : State) : Host.Outcome State Fault Refusal :=
  opcodeStep s (decRgba r g b a s) (encRgba r g b a s)

end Sys2Proof.Machine
end

