-- ==== Sys2Proof/Machine/Run.lean ====
section
/-! DEFINITION. The opcode RUN, in both engines. -/

namespace Sys2Proof.Machine

/-- DEC-RUN (41_decoder R170): the run clamped to the pixels left (92_eei_decisions D10). -/
def decRunOp (len1 : BitVec 6) (s : State) : Host.Outcome State Fault Refusal :=
  s.decRun (Instr.run len1).length (min (runCount len1) (s.n - s.cursor))

/-- ENC-RUN (42_encoder R205): the cursor moves by the run length; `PREV` and the cache are not written. -/
def encRunOp (len1 : BitVec 6) (s : State) : Host.Outcome State Fault Refusal :=
  s.encOpcode (.run len1) fun _ => State.encRunCommit (runCount len1)

/-- RUN in either engine; the length fields 62 and 63 are reserved and no byte decodes to them (30_encoding R108,
R112). -/
def execRun (len1 : BitVec 6) (s : State) : Host.Outcome State Fault Refusal :=
  if (Instr.run len1).wellFormed then opcodeStep s (decRunOp len1 s) (encRunOp len1 s)
  else .refused .reservedRunLength

end Sys2Proof.Machine
end

