-- ==== Sys2Proof/Machine/Step.lean ====
section
/-! DEFINITION. One atomic step of the engine (10_state R33). -/

namespace Sys2Proof.Machine

/-- One step: the opcode that is due, or the other step the phase is due (10_state R32, R33). -/
def step (s : State) : Host.Outcome State Fault Refusal :=
  match nextAction s with
  | .run i => exec i s
  | .other o => o

/-- The state with an instruction, given as spec/opcode_table.json numbers its bits, where `step` fetches its next one
(log 19). -/
def State.withFetchWord (s : State) (nbits w : Nat) : State := s.placeBytes (tableBytes nbits w)

end Sys2Proof.Machine
end

