-- ==== Sys2Proof/Machine/Result.lean ====
section
/-! DEFINITION. What the host does beside a step (10_state R31, R46; 60_exceptions R281): reading the result of a
command, issuing one, and abandoning one. -/

namespace Sys2Proof.Machine

/-- An image (10_state R31, 41_decoder R174). -/
structure Image where
  w : Word
  h : Word
  c : Byte
  cs : Byte
  pb : PixelBuffer
  deriving DecidableEq, Repr

/-- The result of a command (10_state R31). -/
inductive Result where
  /-- DECODE, DONE. -/
  | decoded (image : Image) (endWarn : Bool)
  /-- DECODE, ERROR: the image where the header step succeeded, holding the first `CURSOR` pixels. -/
  | decodeError (err : ErrorCode) (bpos cursor : Nat) (image : Option Image)
  /-- ENCODE, DONE: `OUT`, of `BPOS` bytes. -/
  | encoded (out : Mem) (bpos : Nat)
  /-- ENCODE, ERROR: the first `BPOS` bytes of `OUT` are those the sink accepted. -/
  | encodeError (err : ErrorCode) (bpos cursor : Nat) (out : Mem)
  deriving DecidableEq, Repr

/-- The image of a DECODE: there is one once the header step has allocated `PB` (43_header_codec R245, log 23). -/
def State.image (s : State) : Option Image :=
  match s.pb with
  | some pb => some ⟨s.w, s.h, s.c, s.cs, pb⟩
  | none => none

/-- The bytes of `OUT` in order (42_encoder R214). -/
def State.outBytes (s : State) : List Byte := s.out.map (fun cell => cell.2)

/-- The result the host reads (10_state R31, R46): none while no command has ended. -/
def State.result (s : State) : Option Result :=
  match s.phase, s.mode with
  | .done, .decode =>
    match s.image with
    | some im => some (.decoded im s.endWarn)
    | none => none
  | .error, .decode => some (.decodeError s.err s.bpos s.cursor s.image)
  | .done, .encode => some (.encoded s.out s.bpos)
  | .error, .encode => some (.encodeError s.err s.bpos s.cursor s.out)
  | .idle, _ => none
  | .header, _ => none
  | .body, _ => none
  | .trailer, _ => none

/-- Whether the host may issue a command (10_state R31, 92_eei_decisions D24). -/
def State.mayIssue (s : State) : Bool := decide (s.phase = .idle ∨ s.phase = .done ∨ s.phase = .error)

/-- The host issues a command; it has no such move while a command runs (10_state R31). -/
def State.issue (cmd : Command) (s : State) : Option State :=
  if s.mayIssue then some { s with commands := s.commands ++ [cmd] } else none

/-- The host abandons the command by discarding the codec state (60_exceptions R281). DESIGN CHOICE (log 17): the engine
is then in IDLE, and every other field stands as it was. Where no command runs the host has no such move, and a finished
command keeps its phase and its result: 60_exceptions R281 gives abandoning only during a command, and R279 keeps an
ERROR until a new command (DEDUCED, log 17). -/
def State.abandon (s : State) : Option State := if s.mayIssue then none else some { s with phase := .idle }

end Sys2Proof.Machine
end

