-- ==== Sys2Proof/Safety.lean ====
section
/-! DEFINITION. The terms claims are stated in: what a step answers, what an opcode step changes and leaves alone, and
the invariants of the machine. -/

namespace Sys2Proof.Machine

/-! ### Answers -/

/-- The next state of an answer, none where it is a fault or a refusal. -/
def nextOf (o : Host.Outcome State Fault Refusal) : Option State :=
  match o with
  | .next t => some t
  | .fault _ => none
  | .refused _ => none

/-- The fault of an answer. -/
def faultOf (o : Host.Outcome State Fault Refusal) : Option Fault :=
  match o with
  | .next _ => none
  | .fault f => some f
  | .refused _ => none

/-- The refusal of an answer. -/
def refusalOf (o : Host.Outcome State Fault Refusal) : Option Refusal :=
  match o with
  | .next _ => none
  | .fault _ => none
  | .refused r => some r

/-- The source of a DECODE, the sink of an ENCODE, answers every request (70_reset R311's fairness premise). -/
def State.peerAnswers (s : State) : Bool :=
  match s.mode with
  | .decode => decide (s.inEnd ≠ .silent)
  | .encode =>
    match s.sinkEnd with
    | .never => true
    | .ioFailAt _ => true
    | .silentAt _ => false

/-- `k` steps from a state, stopping at the first fault or refusal. -/
def steps : Nat → State → Host.Outcome State Fault Refusal
  | 0, s => .next s
  | k + 1, s =>
    match step s with
    | .next t => steps k t
    | .fault f => .fault f
    | .refused r => .refused r

/-! ### Where an opcode step is due -/

/-- The dimensions and the size of `PB` after a successful header step (10_state R39, R40). -/
def State.DimsOk (s : State) : Prop :=
  s.w ≠ 0 ∧ s.h ≠ 0 ∧ (s.c = 3 ∨ s.c = 4) ∧ s.pbSize = some (s.n * s.channels)

/-- An opcode step of DECODE is due (41_decoder R161). -/
def State.DecodeDue (s : State) : Prop :=
  s.mode = .decode ∧ s.phase = .body ∧ s.cursor < s.n ∧ s.DimsOk

/-- An opcode step of ENCODE is due for the pixel `px` (42_encoder R201, R202), and the sink accepts its next `k`
bytes. -/
def State.EncodeDue (s : State) (px : Pixel) (k : Nat) : Prop :=
  s.mode = .encode ∧ s.phase = .body ∧ s.cursor < s.n ∧ s.loadPixel s.cursor = some px ∧
    ∀ j, j < k → s.sinkEnd.answer (s.bpos + j) = .ok

/-- The phase an opcode step leaves (41_decoder R171, 42_encoder R212): TRAILER when the cursor reaches `N`. -/
def State.phaseAt (s : State) (cursor : Nat) : Phase := if cursor = s.n then .trailer else .body

/-! ### Frames -/

/-- The fields no opcode step of either engine writes. -/
def State.KeepsCommand (s t : State) : Prop :=
  t.mode = s.mode ∧ t.w = s.w ∧ t.h = s.h ∧ t.c = s.c ∧ t.cs = s.cs ∧ t.err = s.err ∧ t.endWarn = s.endWarn ∧
    t.inp = s.inp ∧ t.inEnd = s.inEnd ∧ t.sinkEnd = s.sinkEnd ∧ t.commands = s.commands ∧ t.params = s.params ∧
    t.draws = s.draws

/-- `PB` holds the pixel `p` at pixel index `i` (20_memory R73, R78). -/
def State.PixelAt (t : State) (i : Nat) (p : Pixel) : Prop :=
  t.pbRead (i * t.channels) = some p.r ∧ t.pbRead (i * t.channels + 1) = some p.g ∧
    t.pbRead (i * t.channels + 2) = some p.b ∧ (t.c = 4 → t.pbRead (i * t.channels + 3) = some p.a)

/-- A DECODE opcode step of `len` bytes that produced `m` pixels equal to `p` from the cursor on: what it wrote besides
`PREV` and the cache, and everything it left alone. -/
def State.Produced (s t : State) (len m : Nat) (p : Pixel) : Prop :=
  t.bpos = s.bpos + len ∧ t.cursor = s.cursor + m ∧ t.phase = s.phaseAt (s.cursor + m) ∧
    (∀ k, k < m → t.PixelAt (s.cursor + k) p) ∧
    (∀ a, ¬(s.cursor * s.channels ≤ a ∧ a < (s.cursor + m) * s.channels) → t.pbRead a = s.pbRead a) ∧
    t.pbSize = s.pbSize ∧ t.out = s.out ∧ s.KeepsCommand t

/-- An ENCODE opcode step that emitted `bs` and consumed `m` pixels: what it wrote besides `PREV` and the cache, and
everything it left alone. -/
def State.Emitted (s t : State) (bs : List Byte) (m : Nat) : Prop :=
  t.bpos = s.bpos + bs.length ∧ t.cursor = s.cursor + m ∧ t.phase = s.phaseAt (s.cursor + m) ∧
    (∀ j, j < bs.length → Mem.read t.out (s.bpos + j) = bs[j]?) ∧
    (∀ a, ¬(s.bpos ≤ a ∧ a < s.bpos + bs.length) → Mem.read t.out a = Mem.read s.out a) ∧
    t.pb = s.pb ∧ s.KeepsCommand t

/-- The cache of `t` is that of `s` with `p` written at its hash (40_color_cache R143). -/
def State.CacheWritten (s t : State) (p : Pixel) : Prop :=
  ∀ i, t.cacheAt i = if i = pixelHash p then p else s.cacheAt i

/-! ### Invariants -/

/-- Every memory is in canonical form. -/
def State.MemWf (s : State) : Prop :=
  Mem.wf s.inp ∧ Mem.wf s.out ∧ ∀ pb, s.pb = some pb → Mem.wf pb.bytes

/-- Every cache slot holds (0,0,0,0) or a pixel that hashes to it (40_color_cache R147). -/
def State.CacheOk (s : State) : Prop := ∀ i, s.cacheAt i = Pixel.zero ∨ pixelHash (s.cacheAt i) = i

/-- The control state of a command, phase by phase (10_state R32, R39, R41, R45, R47). -/
def State.LoopOk (s : State) : Prop :=
  match s.phase with
  | .idle => True
  | .header =>
    s.cursor = 0 ∧ s.bpos = 0 ∧ s.err = .noError ∧ s.endWarn = false ∧ s.prev = Pixel.initial ∧
      ∀ i, s.cacheAt i = Pixel.zero
  | .body => s.DimsOk ∧ s.cursor < s.n ∧ headerLength ≤ s.bpos ∧ s.err = .noError ∧ s.endWarn = false
  | .trailer => s.DimsOk ∧ s.cursor = s.n ∧ headerLength ≤ s.bpos ∧ s.err = .noError ∧ s.endWarn = false
  | .done => s.DimsOk ∧ s.cursor = s.n ∧ headerLength ≤ s.bpos ∧ s.err = .noError
  | .error => s.err ≠ .noError

/-- `PB` of a DECODE holds a value in the bytes of the first `CURSOR` pixels and nowhere else (41_decoder R173). -/
def State.DecodedPrefix (s : State) : Prop :=
  ∀ a, (s.pbRead a).isSome = decide (a < s.cursor * s.channels)

/-- `PB` of an ENCODE holds a value in every byte (20_memory R73, 10_state R31). -/
def State.SuppliedWhole (s : State) : Prop :=
  ∀ a size, s.pbSize = some size → (s.pbRead a).isSome = decide (a < size)

/-- `OUT` of an ENCODE holds exactly the `BPOS` bytes accepted (20_memory R70, R72). -/
def State.OutExact (s : State) : Prop := ∀ o, (Mem.read s.out o).isSome = decide (o < s.bpos)

/-- The contents of the buffers of a command (20_memory R70 to R73, 41_decoder R173). -/
def State.BuffersOk (s : State) : Prop :=
  match s.phase, s.mode with
  | .idle, _ => True
  | .header, .decode => s.pb = none
  | .header, .encode => s.SuppliedWhole ∧ s.OutExact
  | .body, .decode => s.DecodedPrefix
  | .body, .encode => s.SuppliedWhole ∧ s.OutExact
  | .trailer, .decode => s.DecodedPrefix
  | .trailer, .encode => s.SuppliedWhole ∧ s.OutExact
  | .done, .decode => s.DecodedPrefix
  | .done, .encode => s.SuppliedWhole ∧ s.OutExact
  | .error, .decode => s.pb ≠ none → s.DecodedPrefix
  | .error, .encode => s.SuppliedWhole ∧ s.OutExact

/-- What every state between a command start and the next meets. -/
def State.Inv (s : State) : Prop := s.LoopOk ∧ s.BuffersOk

/-- With three channels the encoder's previous pixel has alpha 255 (42_encoder R204). -/
def State.OpaqueWhenRgb (s : State) : Prop :=
  s.phase = .body → s.mode = .encode → s.c = 3 → s.prev.a = 255

/-- The least number of opcode bytes that carry `k` pixels: `ceil(k / 62)` (70_reset R312). -/
def leastBytes (k : Nat) : Nat := (k + 61) / 62

/-- The most opcode bytes that carry `k` pixels of `c` channels (70_reset R312). -/
def mostBytes (c : Byte) (k : Nat) : Nat := if c = 3 then 4 * k else 5 * k

/-- The bounds of the stream length at every point of the body and after it (70_reset R312). -/
def State.LengthOk (s : State) : Prop :=
  match s.phase, s.mode with
  | .body, .decode => headerLength + leastBytes s.cursor ≤ s.bpos
  | .body, .encode =>
    headerLength + leastBytes s.cursor ≤ s.bpos ∧ s.bpos ≤ headerLength + mostBytes s.c s.cursor
  | .trailer, .decode => headerLength + leastBytes s.cursor ≤ s.bpos
  | .trailer, .encode =>
    headerLength + leastBytes s.cursor ≤ s.bpos ∧ s.bpos ≤ headerLength + mostBytes s.c s.cursor
  | .done, .decode => headerLength + leastBytes s.cursor ≤ s.bpos
  | .done, .encode =>
    headerLength + leastBytes s.cursor + 8 ≤ s.bpos ∧ s.bpos ≤ headerLength + mostBytes s.c s.cursor + 8
  | .idle, _ => True
  | .header, _ => True
  | .error, _ => True

end Sys2Proof.Machine
end

