-- ==== Sys2Proof/Certificates/Slice0/Obligations.lean ====
section
/-! DEFINITION. The statements about the QOI codec core, from the numbered rules of spec/. -/

open Sys2Proof Sys2Proof.Machine

/-! ### The opcode stream (30_encoding) -/

/-- Every well-formed instruction is read back from its own bytes, whatever follows them. -/
def Obligations.DecodeOfEncode : Prop :=
  ∀ (i : Instr) (rest : List Byte), i.wellFormed = true → decode (encode i ++ rest) = .ok (i, rest)

/-- Whatever bytes decode, they begin with exactly the encoding of the instruction read, and it is well formed: no two
instructions share bytes, and the reserved RUN lengths are never read (30_encoding R108, R112). -/
def Obligations.EncodeOfDecode : Prop :=
  ∀ (bs : List Byte) (i : Instr) (rest : List Byte), decode bs = .ok (i, rest) →
    i.wellFormed = true ∧ bs = encode i ++ rest

/-- No byte value is refused as a tag or as a payload byte: decoding fails only where the bytes are too few
(30_encoding R111). -/
def Obligations.OnlyTooFewBytesFailToDecode : Prop :=
  ∀ (b0 : Byte) (payload : List Byte),
    ((classify b0).length ≤ payload.length + 1 → ∃ i rest, decode (b0 :: payload) = .ok (i, rest) ∧
      i.opcode = classify b0 ∧ rest = payload.drop ((classify b0).length - 1)) ∧
    (payload.length + 1 < (classify b0).length → decode (b0 :: payload) = .error .payloadCutShort)

/-- The tag byte's range fixes the opcode and with it the length (30_encoding R101, R102, R110). -/
def Obligations.TagRangesFixOpcodeAndLength : Prop :=
  ∀ b0 : Byte,
    (classify b0 = if b0.toNat ≤ 0x3F then .index else if b0.toNat ≤ 0x7F then .diff else if b0.toNat ≤ 0xBF then .luma
      else if b0.toNat ≤ 0xFD then .run else if b0.toNat = 0xFE then .rgb else .rgba) ∧
    (classify b0).length = if b0 = 0xFE then 4 else if b0 = 0xFF then 5 else if b0.extractLsb' 6 2 = 0b10 then 2 else 1

/-- Words written out from 30_encoding R103 to R108 decode to the instructions they stand for (95 W1, T-D1, T-D2, T-D3,
T-D5, T-D9, T-D13, T-D15). -/
def Obligations.WordsOfTheSpecDecode : Prop :=
  decode [0xFE, 0x0A, 0x14, 0x1E] = .ok (.rgb 10 20 30, []) ∧
  decode [0xFF, 0x01, 0x02, 0x03, 0x04] = .ok (.rgba 1 2 3 4, []) ∧
  decode [0x35] = .ok (.index 53, []) ∧
  decode [0x5B] = .ok (.diff 1 2 3, []) ∧
  decode [0x9E, 0x9A] = .ok (.luma 30 9 10, []) ∧
  decode [0xC4] = .ok (.run 4, []) ∧
  decode [0xFD] = .ok (.run 61, [])

/-! ### Arithmetic (40_color_cache, 42_encoder) -/

/-- The hash, and that reducing the sum or each product modulo 256 first gives the same value (40_color_cache R140,
R141). -/
def Obligations.HashWhateverTheWidth : Prop :=
  ∀ p : Pixel,
    (pixelHash p).toNat = (p.r.toNat * 3 + p.g.toNat * 5 + p.b.toNat * 7 + p.a.toNat * 11) % 64 ∧
    (pixelHash p).toNat = (p.r.toNat * 3 + p.g.toNat * 5 + p.b.toNat * 7 + p.a.toNat * 11) % 256 % 64 ∧
    (pixelHash p).toNat = (p.r.toNat * 3 % 256 + p.g.toNat * 5 % 256 + p.b.toNat * 7 % 256 + p.a.toNat * 11 % 256) % 64

/-- Whatever opcode the encoder chooses for a pixel of unchanged alpha, the decoder rebuilds that pixel from it
(42_encoder R203). -/
def Obligations.DeltasDecodeBack : Prop :=
  ∀ px prev : Pixel, px.a = prev.a →
    match sameAlphaInstr px prev with
    | .diff dr2 dg2 db2 => diffPixel prev dr2 dg2 db2 = px
    | .luma dg32 drg8 dbg8 => lumaPixel prev dg32 drg8 dbg8 = px
    | .rgb r g b => rgbPixel prev r g b = px
    | .rgba _ _ _ _ => False
    | .index _ => False
    | .run _ => False

/-- The order of the encoder's choice (42_encoder R201): the first branch whose condition holds. -/
def Obligations.SelectionTakesTheFirstBranch : Prop :=
  ∀ (s : State) (px : Pixel), s.loadPixel s.cursor = some px →
    let dr := s8 ((px.r.toNat : Int) - (s.prev.r.toNat : Int))
    let dg := s8 ((px.g.toNat : Int) - (s.prev.g.toNat : Int))
    let db := s8 ((px.b.toNat : Int) - (s.prev.b.toNat : Int))
    let drg := s8 (dr - dg)
    let dbg := s8 (db - dg)
    let inDiff := (-2 ≤ dr ∧ dr ≤ 1) ∧ (-2 ≤ dg ∧ dg ≤ 1) ∧ (-2 ≤ db ∧ db ≤ 1)
    let inLuma := (-32 ≤ dg ∧ dg ≤ 31) ∧ (-8 ≤ drg ∧ drg ≤ 7) ∧ (-8 ≤ dbg ∧ dbg ≤ 7)
    (px = s.prev → ∀ r, s.runLength = some r → s.encSelect = some (.run (BitVec.ofNat 6 (r - 1)))) ∧
    (px ≠ s.prev → s.cacheAt (pixelHash px) = px → s.encSelect = some (.index (pixelHash px))) ∧
    (px ≠ s.prev → s.cacheAt (pixelHash px) ≠ px → px.a = s.prev.a → inDiff → s.encSelect = some (diffInstr dr dg db)) ∧
    (px ≠ s.prev → s.cacheAt (pixelHash px) ≠ px → px.a = s.prev.a → ¬inDiff → inLuma →
      s.encSelect = some (lumaInstr dg drg dbg)) ∧
    (px ≠ s.prev → s.cacheAt (pixelHash px) ≠ px → px.a = s.prev.a → ¬inDiff → ¬inLuma →
      s.encSelect = some (.rgb px.r px.g px.b)) ∧
    (px ≠ s.prev → s.cacheAt (pixelHash px) ≠ px → px.a ≠ s.prev.a → s.encSelect = some (.rgba px.r px.g px.b px.a))

/-- The bounds of what the encoder emits (42_encoder R215): runs of 1 to 62 and never a literal's tag, DIFF and LUMA
only with deltas in range, and their fields stand for exactly those deltas. -/
def Obligations.SelectionStaysInBounds : Prop :=
  ∀ (s : State) (i : Instr), s.encSelect = some i →
    i.wellFormed = true ∧
    (∀ len1, i = .run len1 → 1 ≤ runCount len1 ∧ runCount len1 ≤ 62 ∧ encode i ≠ [0xFE] ∧ encode i ≠ [0xFF]) ∧
    (∀ dr2 dg2 db2, i = .diff dr2 dg2 db2 → ∃ px, s.loadPixel s.cursor = some px ∧
      channelDelta px.r s.prev.r = (dr2.toNat : Int) - 2 ∧ channelDelta px.g s.prev.g = (dg2.toNat : Int) - 2 ∧
      channelDelta px.b s.prev.b = (db2.toNat : Int) - 2) ∧
    (∀ dg32 drg8 dbg8, i = .luma dg32 drg8 dbg8 → ∃ px, s.loadPixel s.cursor = some px ∧
      channelDelta px.g s.prev.g = (dg32.toNat : Int) - 32 ∧
      s8 (channelDelta px.r s.prev.r - channelDelta px.g s.prev.g) = (drg8.toNat : Int) - 8 ∧
      s8 (channelDelta px.b s.prev.b - channelDelta px.g s.prev.g) = (dbg8.toNat : Int) - 8)

/-! ### Commands and phases (10_state, 70_reset) -/

/-- A newly created engine is IDLE and meets every invariant stated below. That it does so rests on the values the model
chose for the fields 70_reset R300 leaves unspecified (log 6). -/
def Obligations.ResetMeetsTheInvariants : Prop :=
  State.reset.phase = .idle ∧ State.reset.Inv ∧ State.reset.MemWf ∧ State.reset.CacheOk ∧ State.reset.OpaqueWhenRgb ∧
    State.reset.LengthOk

/-- The command start of DECODE (10_state R34, R45; 70_reset R302). -/
def Obligations.DecodeStartResets : Prop :=
  ∀ (s : State) (input : List Byte) (inEnd : SourceEnd) (rest : List Command), s.mayIssue = true →
    s.commands = .decode input inEnd :: rest →
    ∃ t, step s = .next t ∧ t.mode = .decode ∧ t.phase = .header ∧ t.prev = ⟨0, 0, 0, 255⟩ ∧
      (∀ i, t.cacheAt i = ⟨0, 0, 0, 0⟩) ∧ t.cursor = 0 ∧ t.bpos = 0 ∧ t.err = .noError ∧ t.endWarn = false ∧
      t.pb = none ∧ (∀ o, Mem.read t.inp o = input[o]?) ∧ t.inEnd = inEnd ∧ t.commands = rest ∧ t.params = s.params

/-- The command start of ENCODE (10_state R34, R39, R45; 70_reset R302). -/
def Obligations.EncodeStartResets : Prop :=
  ∀ (s : State) (w h : Word) (c : Byte) (pb : List Byte) (sinkEnd : SinkEnd) (rest : List Command),
    s.mayIssue = true → s.commands = .encode w h c pb sinkEnd :: rest →
    ∃ t, step s = .next t ∧ t.mode = .encode ∧ t.phase = .header ∧ t.prev = ⟨0, 0, 0, 255⟩ ∧
      (∀ i, t.cacheAt i = ⟨0, 0, 0, 0⟩) ∧ t.cursor = 0 ∧ t.bpos = 0 ∧ t.w = w ∧ t.h = h ∧ t.c = c ∧
      t.cs = s.params.colorspaceOut ∧ t.err = .noError ∧ t.endWarn = false ∧ t.pbSize = some pb.length ∧
      (∀ a, t.pbRead a = pb[a]?) ∧ (∀ o, Mem.read t.out o = none) ∧ t.sinkEnd = sinkEnd ∧ t.commands = rest ∧
      t.params = s.params

/-- Nothing survives from one command to the next (10_state R44, R45; 70_reset R302): the step that starts a command
depends on the command, the machine's parameters and the model's own counter of free values alone. -/
def Obligations.CommandStartForgetsThePast : Prop :=
  ∀ s u : State, s.mayIssue = true → u.mayIssue = true → s.commands = u.commands → s.commands ≠ [] →
    s.params = u.params → s.draws = u.draws → step s = step u

/-- The transitions of PHASE (10_state R32); an engine with no command waits where it is (the model's reading of
60_exceptions R286, log 2), and BODY with the loop over goes to TRAILER (log 14). -/
def Obligations.PhaseFollowsTheTable : Prop :=
  ∀ s t : State, step s = .next t →
    match s.phase with
    | .idle => t.phase = .idle ∨ t.phase = .header
    | .header => t.phase = .body ∨ t.phase = .error
    | .body => t.phase = .body ∨ t.phase = .trailer ∨ t.phase = .error
    | .trailer => t.phase = .done ∨ t.phase = .error
    | .done => t.phase = .done ∨ t.phase = .header
    | .error => t.phase = .error ∨ t.phase = .header

/-- Outside BODY, and with the cursor not below `N`, no opcode has a step (41_decoder R161, 42_encoder R202; the refusal
is the model's, log 13). -/
def Obligations.NoOpcodeStepOutsideTheLoop : Prop :=
  ∀ (i : Instr) (s : State), i.wellFormed = true → ¬(s.phase = .body ∧ s.cursor < s.n) →
    exec i s = .refused .noOpcodeStep

/-- A RUN whose field is 62 or 63 has no meaning in either engine (30_encoding R112; the refusal is the model's,
log 13). -/
def Obligations.ReservedRunIsRefused : Prop :=
  ∀ (len1 : BitVec 6) (s : State), 62 ≤ len1.toNat → exec (.run len1) s = .refused .reservedRunLength

/-- The encoder has one choice: every other opcode is refused (42_encoder R201, 30_encoding R114; log 13). -/
def Obligations.EncoderRefusesWhatItDidNotSelect : Prop :=
  ∀ (i j : Instr) (s : State), i.wellFormed = true → s.mode = .encode → s.phase = .body → s.cursor < s.n →
    s.encSelect = some j → j ≠ i → exec i s = .refused .notSelected

/-! ### A step runs the opcode that is due -/

/-- In the body of a DECODE, the bytes at `BPOS` that encode a well-formed instruction make `step` run it, whatever
follows them (41_decoder R161, R162). The instruction moves `BPOS` itself. -/
def Obligations.StepRunsTheDecodedOpcode : Prop :=
  ∀ (i : Instr) (s : State), i.wellFormed = true → s.mode = .decode → s.phase = .body → s.cursor < s.n →
    (∀ j, j < (encode i).length → Mem.read s.inp (s.bpos + j) = (encode i)[j]?) → step s = exec i s

/-- In the body of an ENCODE, `step` runs the opcode the selection chose (42_encoder R201, R202). -/
def Obligations.StepRunsTheSelectedOpcode : Prop :=
  ∀ (i : Instr) (s : State), s.mode = .encode → s.phase = .body → s.cursor < s.n → s.encSelect = some i →
    step s = exec i s

/-! ### DECODE, opcode by opcode (41_decoder R165 to R170) -/

/-- DEC-RGB (41_decoder R165): completion, result and frame. -/
def Obligations.DecodeRgbKeepsAlpha : Prop :=
  ∀ (s : State) (r g b : Byte), s.DecodeDue →
    ∃ t, exec (.rgb r g b) s = .next t ∧ t.prev = ⟨r, g, b, s.prev.a⟩ ∧ s.CacheWritten t ⟨r, g, b, s.prev.a⟩ ∧
      s.Produced t 4 1 ⟨r, g, b, s.prev.a⟩

/-- DEC-RGBA (41_decoder R166): completion, result and frame, for 3 and for 4 channels. -/
def Obligations.DecodeRgbaSetsThePixel : Prop :=
  ∀ (s : State) (r g b a : Byte), s.DecodeDue →
    ∃ t, exec (.rgba r g b a) s = .next t ∧ t.prev = ⟨r, g, b, a⟩ ∧ s.CacheWritten t ⟨r, g, b, a⟩ ∧
      s.Produced t 5 1 ⟨r, g, b, a⟩

/-- DEC-INDEX (41_decoder R167, 40_color_cache R145): completion, result and frame; the cache is not written. -/
def Obligations.DecodeIndexFetchesTheSlot : Prop :=
  ∀ (s : State) (idx : BitVec 6), s.DecodeDue →
    ∃ t, exec (.index idx) s = .next t ∧ t.prev = s.cacheAt idx ∧ (∀ i, t.cacheAt i = s.cacheAt i) ∧
      s.Produced t 1 1 (s.cacheAt idx)

/-- DEC-DIFF (41_decoder R168): completion, result and frame; each channel moves by field - 2 modulo 256. -/
def Obligations.DecodeDiffMovesEachChannel : Prop :=
  ∀ (s : State) (dr2 dg2 db2 : BitVec 2), s.DecodeDue →
    ∃ t, exec (.diff dr2 dg2 db2) s = .next t ∧
      (t.prev.r.toNat : Int) = ((s.prev.r.toNat : Int) + ((dr2.toNat : Int) - 2)) % 256 ∧
      (t.prev.g.toNat : Int) = ((s.prev.g.toNat : Int) + ((dg2.toNat : Int) - 2)) % 256 ∧
      (t.prev.b.toNat : Int) = ((s.prev.b.toNat : Int) + ((db2.toNat : Int) - 2)) % 256 ∧
      t.prev.a = s.prev.a ∧ s.CacheWritten t t.prev ∧ s.Produced t 1 1 t.prev

/-- DEC-LUMA (41_decoder R169): completion, result and frame; green moves by field - 32, red and blue by that plus
their own field - 8, modulo 256. -/
def Obligations.DecodeLumaMovesEachChannel : Prop :=
  ∀ (s : State) (dg32 : BitVec 6) (drg8 dbg8 : BitVec 4), s.DecodeDue →
    ∃ t, exec (.luma dg32 drg8 dbg8) s = .next t ∧
      (t.prev.r.toNat : Int) =
        ((s.prev.r.toNat : Int) + ((dg32.toNat : Int) - 32) + ((drg8.toNat : Int) - 8)) % 256 ∧
      (t.prev.g.toNat : Int) = ((s.prev.g.toNat : Int) + ((dg32.toNat : Int) - 32)) % 256 ∧
      (t.prev.b.toNat : Int) =
        ((s.prev.b.toNat : Int) + ((dg32.toNat : Int) - 32) + ((dbg8.toNat : Int) - 8)) % 256 ∧
      t.prev.a = s.prev.a ∧ s.CacheWritten t t.prev ∧ s.Produced t 2 1 t.prev

/-- DEC-RUN (41_decoder R170): completion, result and frame; a run past the last pixel is clamped, and `PREV` and the
cache are not written. -/
def Obligations.DecodeRunRepeatsThePixel : Prop :=
  ∀ (s : State) (len1 : BitVec 6), len1.toNat < 62 → s.DecodeDue →
    ∃ t, exec (.run len1) s = .next t ∧ t.prev = s.prev ∧ (∀ i, t.cacheAt i = s.cacheAt i) ∧
      s.Produced t 1 (min (len1.toNat + 1) (s.n - s.cursor)) s.prev

/-- An opcode whose tag or payload is cut short (41_decoder R162, R163): the error by what the source answers, with
`BPOS` after the last byte read and nothing else changed. The clause for a source that never answers, where the step is
not enabled (10_state R33), is the fault `sourceSilent` of the model's reading (DEDUCED, log 5). -/
def Obligations.CutShortOpcodeChangesNothing : Prop :=
  ∀ (s : State) (k : Nat), s.mode = .decode → s.phase = .body → s.cursor < s.n →
    (∀ j, j < k → (Mem.read s.inp (s.bpos + j)).isSome = true) → Mem.read s.inp (s.bpos + k) = none →
    (k = 0 ∨ ∃ b0, Mem.read s.inp s.bpos = some b0 ∧ k < (classify b0).length) →
    (s.inEnd = .eos → step s = .next { s with bpos := s.bpos + k, err := .truncatedStream, phase := .error }) ∧
    (s.inEnd = .ioFail → step s = .next { s with bpos := s.bpos + k, err := .io, phase := .error }) ∧
    (s.inEnd = .silent → step s = .fault .sourceSilent)

/-- A truncated stream gives the partial image with its error (60_exceptions R275, 41_decoder R173): the pixels before
the cursor as they were, and no value in any byte after them. -/
def Obligations.TruncationReturnsThePartialImage : Prop :=
  ∀ s t : State, s.Inv → s.phase = .body → step s = .next t → t.err = .truncatedStream →
    ∃ pb, s.pb = some pb ∧ pb.size = s.n * s.channels ∧
      (∀ a, a < pb.size → (Mem.read pb.bytes a).isSome = decide (a < s.cursor * s.channels)) ∧
      t.result = some (.decodeError .truncatedStream t.bpos s.cursor (some ⟨s.w, s.h, s.c, s.cs, pb⟩))

/-! ### ENCODE, opcode by opcode (42_encoder R205 to R210) -/

/-- ENC-RUN (42_encoder R205): the longest run of pixels equal to `PREV`, at most 62 and inside the image, is emitted as
one byte; `PREV` and the cache are not written. Completion, result and frame. -/
def Obligations.EncodeRunEmitsTheLongestRun : Prop :=
  ∀ (s : State) (r : Nat), s.EncodeDue s.prev 1 → 1 ≤ r → r ≤ 62 → s.cursor + r ≤ s.n →
    (∀ j, j < r → s.loadPixel (s.cursor + j) = some s.prev) →
    (r = 62 ∨ s.cursor + r = s.n ∨ ∃ q, s.loadPixel (s.cursor + r) = some q ∧ q ≠ s.prev) →
    s.encSelect = some (.run (BitVec.ofNat 6 (r - 1))) ∧
    ∃ t, exec (.run (BitVec.ofNat 6 (r - 1))) s = .next t ∧ t.prev = s.prev ∧ (∀ i, t.cacheAt i = s.cacheAt i) ∧
      s.Emitted t [0xC0#8 ||| BitVec.ofNat 8 (r - 1)] r

/-- ENC-INDEX (42_encoder R206): a pixel its slot holds is emitted as the slot; the cache is not written. Completion,
result and frame. -/
def Obligations.EncodeIndexEmitsTheSlot : Prop :=
  ∀ (s : State) (px : Pixel), s.EncodeDue px 1 → px ≠ s.prev → s.cacheAt (pixelHash px) = px →
    s.encSelect = some (.index (pixelHash px)) ∧
    ∃ t, exec (.index (pixelHash px)) s = .next t ∧ t.prev = px ∧ (∀ i, t.cacheAt i = s.cacheAt i) ∧
      s.Emitted t [BitVec.ofNat 8 (pixelHash px).toNat] 1

/-- ENC-DIFF (42_encoder R207): its condition, its byte, its commit, and its frame. -/
def Obligations.EncodeDiffEmitsTheDeltas : Prop :=
  ∀ (s : State) (px : Pixel), s.EncodeDue px 1 → px ≠ s.prev → s.cacheAt (pixelHash px) ≠ px → px.a = s.prev.a →
    let dr := s8 ((px.r.toNat : Int) - (s.prev.r.toNat : Int))
    let dg := s8 ((px.g.toNat : Int) - (s.prev.g.toNat : Int))
    let db := s8 ((px.b.toNat : Int) - (s.prev.b.toNat : Int))
    (-2 ≤ dr ∧ dr ≤ 1) → (-2 ≤ dg ∧ dg ≤ 1) → (-2 ≤ db ∧ db ≤ 1) →
    s.encSelect = some (.diff (BitVec.ofInt 2 (dr + 2)) (BitVec.ofInt 2 (dg + 2)) (BitVec.ofInt 2 (db + 2))) ∧
    ∃ t, exec (.diff (BitVec.ofInt 2 (dr + 2)) (BitVec.ofInt 2 (dg + 2)) (BitVec.ofInt 2 (db + 2))) s = .next t ∧
      t.prev = px ∧ s.CacheWritten t px ∧
      s.Emitted t [0x40#8 ||| (BitVec.ofInt 8 (dr + 2) <<< 4) ||| (BitVec.ofInt 8 (dg + 2) <<< 2) |||
        BitVec.ofInt 8 (db + 2)] 1

/-- ENC-LUMA (42_encoder R208): its condition, its two bytes, its commit, and its frame. -/
def Obligations.EncodeLumaEmitsTheDeltas : Prop :=
  ∀ (s : State) (px : Pixel), s.EncodeDue px 2 → px ≠ s.prev → s.cacheAt (pixelHash px) ≠ px → px.a = s.prev.a →
    let dr := s8 ((px.r.toNat : Int) - (s.prev.r.toNat : Int))
    let dg := s8 ((px.g.toNat : Int) - (s.prev.g.toNat : Int))
    let db := s8 ((px.b.toNat : Int) - (s.prev.b.toNat : Int))
    let drg := s8 (dr - dg)
    let dbg := s8 (db - dg)
    ¬((-2 ≤ dr ∧ dr ≤ 1) ∧ (-2 ≤ dg ∧ dg ≤ 1) ∧ (-2 ≤ db ∧ db ≤ 1)) →
    (-32 ≤ dg ∧ dg ≤ 31) → (-8 ≤ drg ∧ drg ≤ 7) → (-8 ≤ dbg ∧ dbg ≤ 7) →
    s.encSelect = some (.luma (BitVec.ofInt 6 (dg + 32)) (BitVec.ofInt 4 (drg + 8)) (BitVec.ofInt 4 (dbg + 8))) ∧
    ∃ t, exec (.luma (BitVec.ofInt 6 (dg + 32)) (BitVec.ofInt 4 (drg + 8)) (BitVec.ofInt 4 (dbg + 8))) s = .next t ∧
      t.prev = px ∧ s.CacheWritten t px ∧
      s.Emitted t [0x80#8 ||| BitVec.ofInt 8 (dg + 32),
        (BitVec.ofInt 8 (drg + 8) <<< 4) ||| BitVec.ofInt 8 (dbg + 8)] 1

/-- ENC-RGB (42_encoder R209): its condition, its four bytes, its commit, and its frame. -/
def Obligations.EncodeRgbEmitsTheChannels : Prop :=
  ∀ (s : State) (px : Pixel), s.EncodeDue px 4 → px ≠ s.prev → s.cacheAt (pixelHash px) ≠ px → px.a = s.prev.a →
    let dr := s8 ((px.r.toNat : Int) - (s.prev.r.toNat : Int))
    let dg := s8 ((px.g.toNat : Int) - (s.prev.g.toNat : Int))
    let db := s8 ((px.b.toNat : Int) - (s.prev.b.toNat : Int))
    let drg := s8 (dr - dg)
    let dbg := s8 (db - dg)
    ¬((-2 ≤ dr ∧ dr ≤ 1) ∧ (-2 ≤ dg ∧ dg ≤ 1) ∧ (-2 ≤ db ∧ db ≤ 1)) →
    ¬((-32 ≤ dg ∧ dg ≤ 31) ∧ (-8 ≤ drg ∧ drg ≤ 7) ∧ (-8 ≤ dbg ∧ dbg ≤ 7)) →
    s.encSelect = some (.rgb px.r px.g px.b) ∧
    ∃ t, exec (.rgb px.r px.g px.b) s = .next t ∧ t.prev = px ∧ s.CacheWritten t px ∧
      s.Emitted t [0xFE, px.r, px.g, px.b] 1

/-- ENC-RGBA (42_encoder R210): its condition, its five bytes, its commit, and its frame. -/
def Obligations.EncodeRgbaEmitsTheChannels : Prop :=
  ∀ (s : State) (px : Pixel), s.EncodeDue px 5 → px ≠ s.prev → s.cacheAt (pixelHash px) ≠ px → px.a ≠ s.prev.a →
    s.encSelect = some (.rgba px.r px.g px.b px.a) ∧
    ∃ t, exec (.rgba px.r px.g px.b px.a) s = .next t ∧ t.prev = px ∧ s.CacheWritten t px ∧
      s.Emitted t [0xFF, px.r, px.g, px.b, px.a] 1

/-- An ENCODE opcode step whose byte at offset `k` of the opcode the sink fails (42_encoder R211, 60_exceptions R272,
R276): IOError, with the bytes accepted before it in `OUT` and nothing committed. -/
def Obligations.FailedEmissionCommitsNothing : Prop :=
  ∀ (s : State) (i : Instr) (k : Nat), s.mode = .encode → s.phase = .body → s.cursor < s.n → s.encSelect = some i →
    k < (encode i).length → (∀ j, j < k → s.sinkEnd.answer (s.bpos + j) = .ok) →
    s.sinkEnd.answer (s.bpos + k) = .ioFail →
    ∃ t, step s = .next t ∧ t.err = .io ∧ t.phase = .error ∧ t.bpos = s.bpos + k ∧ t.cursor = s.cursor ∧
      t.prev = s.prev ∧ t.cache = s.cache ∧ t.pb = s.pb ∧ t.endWarn = s.endWarn ∧
      (∀ j, j < k → Mem.read t.out (s.bpos + j) = (encode i)[j]?) ∧
      (∀ a, ¬(s.bpos ≤ a ∧ a < s.bpos + k) → Mem.read t.out a = Mem.read s.out a)

/-- After a pixel that is no run, `PREV` is that pixel and its slot holds it, whichever opcode carried it (42_encoder
R217). -/
def Obligations.AnyPixelOpcodeLeavesTheSameState : Prop :=
  ∀ (i : Instr) (s t : State), s.mode = .encode → i.opcode ≠ .run → exec i s = .next t → t.phase ≠ .error →
    ∃ px, s.loadPixel s.cursor = some px ∧ t.prev = px ∧ t.cacheAt (pixelHash px) = px ∧ t.cursor = s.cursor + 1

/-! ### The header and the end marker (43_header_codec, 41_decoder R172, 42_encoder R213) -/

/-- Header round trip (43_header_codec R247): the 14 bytes that ENCODE writes (R241) pass every check of DECODE, which
latches the same fields, allocates `PB` and enters the body (R243, R245). -/
def Obligations.HeaderRoundTrip : Prop :=
  ∀ (s : State) (w h : Word) (c cs : Byte), s.phase = .header → s.mode = .decode → w ≠ 0 → h ≠ 0 → (c = 3 ∨ c = 4) →
    Params.admits s.params (w.toNat * h.toNat) = true →
    (∀ j, j < 14 → Mem.read s.inp (s.bpos + j) = (headerBytes w h c cs)[j]?) →
    step s = .next { s with
      bpos := s.bpos + 14, w := w, h := h, c := c, cs := cs,
      pb := some ⟨w.toNat * h.toNat * c.toNat, []⟩, phase := .body }

/-- The checks of the DECODE header step and their order (43_header_codec R244): magic, then the others. -/
def Obligations.DecodeHeaderChecksInOrder : Prop :=
  ∀ (s : State) (m0 m1 m2 m3 w0 w1 w2 w3 h0 h1 h2 h3 c cs : Byte), s.phase = .header → s.mode = .decode →
    (∀ j, j < 14 → Mem.read s.inp (s.bpos + j) = [m0, m1, m2, m3, w0, w1, w2, w3, h0, h1, h2, h3, c, cs][j]?) →
    let w := w0.toNat * 2 ^ 24 + w1.toNat * 2 ^ 16 + w2.toNat * 2 ^ 8 + w3.toNat
    let h := h0.toNat * 2 ^ 24 + h1.toNat * 2 ^ 16 + h2.toNat * 2 ^ 8 + h3.toNat
    let magicOk := m0 = 0x71 ∧ m1 = 0x6F ∧ m2 = 0x69 ∧ m3 = 0x66
    let restOk := w ≠ 0 ∧ h ≠ 0 ∧ (c = 3 ∨ c = 4) ∧ (∀ m, s.params.maxPixels = some m → w * h ≤ m)
    (¬magicOk → ∃ t, step s = .next t ∧ t.err = .format ∧ t.phase = .error ∧ t.bpos = s.bpos + 14 ∧
      t.cursor = s.cursor ∧ t.pb = s.pb) ∧
    (magicOk → ¬restOk → ∃ t, step s = .next t ∧ t.err = .invalidDimensions ∧ t.phase = .error ∧
      t.bpos = s.bpos + 14 ∧ t.cursor = s.cursor ∧ t.pb = s.pb) ∧
    (magicOk → restOk → ∃ t, step s = .next t ∧ t.err = s.err ∧ t.phase = .body ∧ t.bpos = s.bpos + 14 ∧
      t.w.toNat = w ∧ t.h.toNat = h ∧ t.c = c ∧ t.cs = cs ∧ t.pbSize = some (w * h * c.toNat) ∧
      t.cursor = s.cursor ∧ t.prev = s.prev ∧ t.cache = s.cache)

/-- A DECODE stream that ends or fails inside the header (43_header_codec R242): FormatError or IOError with `BPOS` at
the bytes it held. The clause for a source that never answers (10_state R33) is the fault `sourceSilent` of the model's
reading (DEDUCED, log 5). -/
def Obligations.ShortHeaderIsAFormatError : Prop :=
  ∀ (s : State) (k : Nat), s.phase = .header → s.mode = .decode → k < 14 →
    (∀ j, j < k → (Mem.read s.inp (s.bpos + j)).isSome = true) → Mem.read s.inp (s.bpos + k) = none →
    (s.inEnd = .eos → step s = .next { s with bpos := s.bpos + k, err := .format, phase := .error }) ∧
    (s.inEnd = .ioFail → step s = .next { s with bpos := s.bpos + k, err := .io, phase := .error }) ∧
    (s.inEnd = .silent → step s = .fault .sourceSilent)

/-- ENCODE validates before it writes (43_header_codec R240): an operand that fails a check raises
InvalidDimensionsError and no byte is written. -/
def Obligations.EncodeValidatesBeforeWriting : Prop :=
  ∀ s : State, s.phase = .header → s.mode = .encode →
    (¬(s.c = 3 ∨ s.c = 4) ∨ s.w = 0 ∨ s.h = 0 ∨ s.pbSize ≠ some (s.w.toNat * s.h.toNat * s.c.toNat) ∨
      ∃ m, s.params.maxPixels = some m ∧ m < s.w.toNat * s.h.toNat) →
    step s = .next { s with err := .invalidDimensions, phase := .error }

/-- The ENCODE header step writes the 14 bytes, big-endian, and enters the body; a byte the sink fails ends the command
with the bytes accepted before it (43_header_codec R241, 20_memory R79). -/
def Obligations.EncodeWritesTheHeader : Prop :=
  ∀ s : State, s.phase = .header → s.mode = .encode → (s.c = 3 ∨ s.c = 4) → s.w ≠ 0 → s.h ≠ 0 →
    s.pbSize = some (s.w.toNat * s.h.toNat * s.c.toNat) →
    (∀ m, s.params.maxPixels = some m → s.w.toNat * s.h.toNat ≤ m) →
    let byteOf := fun (v : Word) (shift : Nat) => BitVec.ofNat 8 (v.toNat / 2 ^ shift)
    let bytes := [0x71, 0x6F, 0x69, 0x66, byteOf s.w 24, byteOf s.w 16, byteOf s.w 8, byteOf s.w 0,
      byteOf s.h 24, byteOf s.h 16, byteOf s.h 8, byteOf s.h 0, s.c, s.cs]
    ((∀ j, j < 14 → s.sinkEnd.answer (s.bpos + j) = .ok) →
      ∃ t, step s = .next t ∧ t.phase = .body ∧ t.bpos = s.bpos + 14 ∧
        (∀ j, j < 14 → Mem.read t.out (s.bpos + j) = bytes[j]?) ∧
        (∀ a, ¬(s.bpos ≤ a ∧ a < s.bpos + 14) → Mem.read t.out a = Mem.read s.out a) ∧
        t.cursor = s.cursor ∧ t.prev = s.prev ∧ t.cache = s.cache ∧ t.pb = s.pb ∧ s.KeepsCommand t) ∧
    ∀ k, k < 14 → (∀ j, j < k → s.sinkEnd.answer (s.bpos + j) = .ok) → s.sinkEnd.answer (s.bpos + k) = .ioFail →
      ∃ t, step s = .next t ∧ t.err = .io ∧ t.phase = .error ∧ t.bpos = s.bpos + k ∧ t.cursor = s.cursor ∧
        (∀ j, j < k → Mem.read t.out (s.bpos + j) = bytes[j]?) ∧
        (∀ a, ¬(s.bpos ≤ a ∧ a < s.bpos + k) → Mem.read t.out a = Mem.read s.out a)

/-- The DECODE end-marker step (41_decoder R172): after `k` marker bytes, the end of the marker, a mismatch, or no
byte. The clause for a source that never answers (10_state R33) is the fault `sourceSilent` of the model's reading
(DEDUCED, log 5). -/
def Obligations.DecodeChecksTheEndMarker : Prop :=
  ∀ (s : State) (k : Nat), s.phase = .trailer → s.mode = .decode → k ≤ 8 →
    (∀ j, j < k → Mem.read s.inp (s.bpos + j) = some (if j < 7 then 0x00 else 0x01)) →
    (k = 8 → step s = .next { s with bpos := s.bpos + 8, phase := .done }) ∧
    (∀ v, k < 8 → Mem.read s.inp (s.bpos + k) = some v → v ≠ (if k < 7 then 0x00 else 0x01) →
      step s = .next { s with bpos := s.bpos + (k + 1), endWarn := true, phase := .done }) ∧
    (k < 8 → Mem.read s.inp (s.bpos + k) = none → s.inEnd = .eos →
      step s = .next { s with bpos := s.bpos + k, endWarn := true, phase := .done }) ∧
    (k < 8 → Mem.read s.inp (s.bpos + k) = none → s.inEnd = .ioFail →
      step s = .next { s with bpos := s.bpos + k, err := .io, phase := .error }) ∧
    (k < 8 → Mem.read s.inp (s.bpos + k) = none → s.inEnd = .silent → step s = .fault .sourceSilent)

/-- The ENCODE end-marker step (42_encoder R213): all eight bytes accepted, or one that the sink fails. -/
def Obligations.EncodeWritesTheEndMarker : Prop :=
  ∀ s : State, s.phase = .trailer → s.mode = .encode →
    ((∀ j, j < 8 → s.sinkEnd.answer (s.bpos + j) = .ok) →
      ∃ t, step s = .next t ∧ t.phase = .done ∧ t.bpos = s.bpos + 8 ∧
        (∀ j, j < 8 → Mem.read t.out (s.bpos + j) = some (if j < 7 then 0x00 else 0x01)) ∧
        (∀ a, ¬(s.bpos ≤ a ∧ a < s.bpos + 8) → Mem.read t.out a = Mem.read s.out a) ∧
        t.cursor = s.cursor ∧ t.prev = s.prev ∧ t.cache = s.cache ∧ t.pb = s.pb ∧ s.KeepsCommand t) ∧
    ∀ k, k < 8 → (∀ j, j < k → s.sinkEnd.answer (s.bpos + j) = .ok) → s.sinkEnd.answer (s.bpos + k) = .ioFail →
      ∃ t, step s = .next t ∧ t.err = .io ∧ t.phase = .error ∧ t.bpos = s.bpos + k ∧ t.cursor = s.cursor ∧
        (∀ j, j < k → Mem.read t.out (s.bpos + j) = some 0x00) ∧
        (∀ a, ¬(s.bpos ≤ a ∧ a < s.bpos + k) → Mem.read t.out a = Mem.read s.out a)

/-! ### Whole-machine rules -/

/-- The control state of a command and the contents of its buffers are kept by every step (10_state R32, R39, R41, R45,
R47; 20_memory R70; 41_decoder R173). -/
def Obligations.StepKeepsTheInvariant : Prop := ∀ s t : State, s.Inv → step s = .next t → t.Inv

/-- Every step keeps the canonical form of the three memories. -/
def Obligations.StepKeepsTheMemoryForm : Prop := ∀ s t : State, s.MemWf → step s = .next t → t.MemWf

/-- Every step keeps the cache invariant (40_color_cache R147): no slot holds a pixel that hashes elsewhere but
(0,0,0,0). -/
def Obligations.StepKeepsTheCacheInvariant : Prop := ∀ s t : State, s.CacheOk → step s = .next t → t.CacheOk

/-- With three channels the encoder's alpha stays 255, so it never chooses RGBA (42_encoder R204). -/
def Obligations.ThreeChannelsNeverNeedRgba : Prop :=
  (∀ s t : State, s.LoopOk → s.OpaqueWhenRgb → step s = .next t → t.OpaqueWhenRgb) ∧
  (∀ (s : State) (i : Instr), s.c = 3 → s.prev.a = 255 → s.encSelect = some i → i.opcode ≠ .rgba)

/-- The bounds of the stream length hold at every point of a command (70_reset R312). -/
def Obligations.StepKeepsTheLengthBounds : Prop :=
  ∀ s t : State, s.LoopOk → s.OpaqueWhenRgb → s.LengthOk → step s = .next t → t.LengthOk

/-- During a command no step writes the stream it reads, the buffer it reads, or anything of the host's (20_memory R70,
R86; 10_state R34): DECODE leaves `IN` and `OUT` alone, ENCODE leaves `IN` and `PB` alone. -/
def Obligations.CommandLeavesItsInputsAlone : Prop :=
  ∀ s t : State, s.mayIssue = false → step s = .next t →
    t.mode = s.mode ∧ t.inp = s.inp ∧ t.inEnd = s.inEnd ∧ t.sinkEnd = s.sinkEnd ∧ t.commands = s.commands ∧
      t.params = s.params ∧ t.draws = s.draws ∧ (s.mode = .decode → t.out = s.out) ∧ (s.mode = .encode → t.pb = s.pb)

/-- During a command `BPOS` never decreases and `CURSOR` never decreases (10_state R37, R38, R47), and an opcode step
that raises no error moves the cursor strictly forward and never past `N`. -/
def Obligations.CursorsOnlyMoveForward : Prop :=
  (∀ s t : State, s.mayIssue = false → step s = .next t → s.bpos ≤ t.bpos ∧ s.cursor ≤ t.cursor) ∧
  (∀ (i : Instr) (s t : State), exec i s = .next t → t.phase ≠ .error → s.cursor < t.cursor ∧ t.cursor ≤ s.n)

/-- `END_WARN` is written only by a command start and by the DECODE end-marker step, which sets it without an error
(10_state R42, 60_exceptions R278). -/
def Obligations.WarningComesOnlyFromTheEndMarker : Prop :=
  ∀ s t : State, s.mayIssue = false → step s = .next t → t.endWarn ≠ s.endWarn →
    s.phase = .trailer ∧ s.mode = .decode ∧ t.endWarn = true ∧ t.phase = .done ∧ t.err = s.err

/-- `ERR` is written only by a command start and by a raise, which ends the command (10_state R41, 60_exceptions R272).
With the kinds each step can raise (60_exceptions R270). -/
def Obligations.ErrorsEndTheCommand : Prop :=
  ∀ s t : State, s.mayIssue = false → step s = .next t → t.phase = .error →
    t.prev = s.prev ∧ t.cache = s.cache ∧ t.cursor = s.cursor ∧ t.pb = s.pb ∧ t.endWarn = s.endWarn ∧
    (t.err = .io ∨ (t.err = .format ∧ s.phase = .header ∧ s.mode = .decode) ∨
      (t.err = .invalidDimensions ∧ s.phase = .header) ∨
      (t.err = .truncatedStream ∧ s.phase = .body ∧ s.mode = .decode))

/-- Outside a raise and a command start no step writes `ERR` (10_state R41). -/
def Obligations.OnlyARaiseWritesErr : Prop :=
  ∀ s t : State, s.mayIssue = false → step s = .next t → t.phase ≠ .error → t.err = s.err

/-- The colorspace byte has no effect on any step of the body or the end marker (43_header_codec R246): changing it
changes nothing but itself. -/
def Obligations.ColorspaceHasNoEffect : Prop :=
  ∀ (s : State) (x : Byte), (s.phase = .body ∨ s.phase = .trailer) →
    step { s with cs := x } =
      match step s with
      | .next t => .next { t with cs := x }
      | .fault f => .fault f
      | .refused r => .refused r

/-- The encoder never loads a pixel at or past `N` (70_reset R306, 42_encoder R202): its choice depends on the pixels
below `N` alone. -/
def Obligations.NoPixelPastTheEndIsRead : Prop :=
  ∀ (s : State) (q : Option PixelBuffer), s.cursor < s.n →
    (∀ i, i < s.n → ({ s with pb := q } : State).loadPixel i = s.loadPixel i) →
    ({ s with pb := q } : State).encSelect = s.encSelect

/-- Malformed input yields a typed error, never undefined behaviour (60_exceptions R271): with a peer that answers,
every state of a command has a next state. -/
def Obligations.EveryInputHasANextState : Prop :=
  ∀ s : State, s.Inv → s.peerAnswers = true → ∃ t, step s = .next t

/-- Cache determinism (40_color_cache R148), one opcode at a time: when the encoder has emitted an opcode and a decoder
in the same `PREV`, `CACHE`, cursors and dimensions reads its bytes, the two agree again afterwards, and the decoder has
stored the pixels the encoder loaded. -/
def Obligations.EncoderAndDecoderStayInLockstep : Prop :=
  ∀ e e' d : State, e.mode = .encode → e.phase = .body → e.cursor < e.n → step e = .next e' → e'.phase ≠ .error →
    d.DecodeDue → d.prev = e.prev → d.cache = e.cache → d.cursor = e.cursor → d.bpos = e.bpos → d.w = e.w → d.h = e.h →
    d.c = e.c → (∀ o, e.bpos ≤ o → o < e'.bpos → Mem.read d.inp o = Mem.read e'.out o) →
    ∃ d', step d = .next d' ∧ d'.prev = e'.prev ∧ d'.cache = e'.cache ∧ d'.cursor = e'.cursor ∧ d'.bpos = e'.bpos ∧
      d'.phase = e'.phase ∧
      ∀ k, e.cursor ≤ k → k < e'.cursor → ∃ p, e.loadPixel k = some p ∧ d'.loadPixel k = some p

/-- A command ends within `N + 2` steps of its start when the source or the sink answers every request (70_reset
R311). -/
def Obligations.CommandEndsWithinItsBound : Prop :=
  ∀ s : State, s.Inv → s.phase = .header → s.peerAnswers = true →
    ∃ k t, steps k s = .next t ∧ (t.phase = .done ∨ t.phase = .error) ∧ k ≤ t.n + 2

/-- Round trip (42_encoder R216): for every valid image, DECODE of the DONE output of ENCODE is DONE with no warning and
a pixel buffer equal to the input. -/
def Obligations.EveryImageRoundTrips : Prop :=
  ∀ (s : State) (w h : Word) (c : Byte) (pb : List Byte) (rest : List Command), s.mayIssue = true →
    s.commands = .encode w h c pb .never :: rest → w ≠ 0 → h ≠ 0 → (c = 3 ∨ c = 4) →
    pb.length = w.toNat * h.toNat * c.toNat → Params.admits s.params (w.toNat * h.toNat) = true →
    ∃ k t, steps k s = .next t ∧ t.phase = .done ∧ t.mode = .encode ∧ t.err = .noError ∧
      t.commands = rest ∧
      ∀ (u : State) (more : List Command), u.mayIssue = true → u.commands = .decode t.outBytes .eos :: more →
        u.params = s.params →
        ∃ k' v, steps k' u = .next v ∧ v.phase = .done ∧ v.mode = .decode ∧ v.err = .noError ∧
          v.commands = more ∧ v.endWarn = false ∧ v.w = w ∧ v.h = h ∧ v.c = c ∧ v.pb = some (PixelBuffer.ofBytes pb)

/-! ### The host's side (10_state R31, R46; 60_exceptions R281) -/

/-- What the host reads and may do: a result once a command has ended and never before (10_state R31, R46; 41_decoder
R174; 42_encoder R214), a command only while none runs (10_state R31), abandoning only while one runs (60_exceptions R281,
R279), and no result after it. That an abandoned engine is in IDLE, and that the host has no such move while no command
runs, are the model's reading (log 17). -/
def Obligations.HostSeesOnlyResults : Prop :=
  ∀ s : State,
    (s.phase = .done → s.mode = .encode → s.result = some (.encoded s.out s.bpos)) ∧
    (s.phase = .error → s.mode = .encode → s.result = some (.encodeError s.err s.bpos s.cursor s.out)) ∧
    (∀ pb, s.phase = .done → s.mode = .decode → s.pb = some pb →
      s.result = some (.decoded ⟨s.w, s.h, s.c, s.cs, pb⟩ s.endWarn)) ∧
    (s.phase = .error → s.mode = .decode → s.pb = none →
      s.result = some (.decodeError s.err s.bpos s.cursor none)) ∧
    (∀ pb, s.phase = .error → s.mode = .decode → s.pb = some pb →
      s.result = some (.decodeError s.err s.bpos s.cursor (some ⟨s.w, s.h, s.c, s.cs, pb⟩))) ∧
    ((s.phase = .header ∨ s.phase = .body ∨ s.phase = .trailer) →
      s.result = none ∧ (∀ cmd, s.issue cmd = none) ∧ ∃ t, s.abandon = some t ∧ t.phase = .idle ∧ t.result = none) ∧
    ((s.phase = .idle ∨ s.phase = .done ∨ s.phase = .error) → s.abandon = none)
end

