-- ==== Sys2Proof/Laws/Memory.lean ====
section
/-! SUPPORT. The laws of memory: a read after a write, and that every memory operation keeps the canonical form. -/

namespace Sys2Proof.Machine

@[simp] theorem Mem.read_nil (a : Nat) : Mem.read [] a = none := rfl

theorem Mem.read_cons (k : Nat) (v : Byte) (m : Mem) (a : Nat) :
    Mem.read ((k, v) :: m) a = if k = a then some v else Mem.read m a := rfl

/-- A byte that was just written reads back. -/
@[simp] theorem Mem.read_write_same (m : Mem) (a : Nat) (v : Byte) : Mem.read (Mem.write m a v) a = some v := by
  induction m with
  | nil => simp [Mem.write, Mem.read]
  | cons x m ih =>
    obtain ⟨k, u⟩ := x
    unfold Mem.write
    split
    · simp [Mem.read]
    · split
      · simp [Mem.read]
      · rw [Mem.read_cons, if_neg (by omega), ih]

/-- A write leaves every other byte alone. -/
theorem Mem.read_write_other (m : Mem) {a b : Nat} (v : Byte) (h : b ≠ a) :
    Mem.read (Mem.write m a v) b = Mem.read m b := by
  induction m with
  | nil => simp [Mem.write, Mem.read, Ne.symm h, Mem.unlisted]
  | cons x m ih =>
    obtain ⟨k, u⟩ := x
    unfold Mem.write
    split
    · rw [Mem.read_cons, if_neg (Ne.symm h)]
    · split
      · subst_vars; rw [Mem.read_cons, Mem.read_cons, if_neg (Ne.symm h), if_neg (Ne.symm h)]
      · rw [Mem.read_cons, Mem.read_cons, ih]

theorem Mem.read_write (m : Mem) (a b : Nat) (v : Byte) :
    Mem.read (Mem.write m a v) b = if b = a then some v else Mem.read m b := by
  split
  · subst_vars; exact Mem.read_write_same m _ v
  · exact Mem.read_write_other m v ‹_›

/-- Every cell of a written memory is the written one or one of the old ones. -/
theorem Mem.mem_write {m : Mem} {a : Nat} {v : Byte} {x : Host.Cell} (h : x ∈ Mem.write m a v) :
    x = (a, v) ∨ x ∈ m := by
  induction m with
  | nil => simpa [Mem.write] using h
  | cons y m ih =>
    obtain ⟨k, u⟩ := y
    unfold Mem.write at h
    split at h
    · simpa using h
    · split at h
      · rcases List.mem_cons.1 h with h | h
        · exact .inl h
        · exact .inr (List.mem_cons_of_mem _ h)
      · rcases List.mem_cons.1 h with h | h
        · exact .inr (by simp [h])
        · exact (ih h).imp_right (List.mem_cons_of_mem _)

/-- A write keeps the canonical form. -/
theorem Mem.write_wf {m : Mem} (h : Mem.wf m) (a : Nat) (v : Byte) : Mem.wf (Mem.write m a v) := by
  induction m with
  | nil => simp [Mem.write, Mem.wf]
  | cons x m ih =>
    obtain ⟨k, u⟩ := x
    obtain ⟨hk, hm⟩ := List.pairwise_cons.1 h
    unfold Mem.write
    split
    · exact List.pairwise_cons.2 ⟨fun y hy => by
        rcases List.mem_cons.1 hy with rfl | hy
        · assumption
        · exact lt_trans ‹_› (hk y hy), h⟩
    · split
      · subst_vars; exact List.pairwise_cons.2 ⟨hk, hm⟩
      · refine List.pairwise_cons.2 ⟨fun y hy => ?_, ih hm⟩
        rcases Mem.mem_write hy with rfl | hy
        · show k < a; omega
        · exact hk y hy

theorem Mem.writeList_wf {m : Mem} (h : Mem.wf m) (a : Nat) (vs : List Byte) : Mem.wf (Mem.writeList m a vs) := by
  induction vs generalizing m a with
  | nil => exact h
  | cons v vs ih => exact ih (Mem.write_wf h a v) (a + 1)

/-- A read after consecutive writes. -/
theorem Mem.read_writeList (m : Mem) (a b : Nat) (vs : List Byte) :
    Mem.read (Mem.writeList m a vs) b = if a ≤ b ∧ b < a + vs.length then vs[b - a]? else Mem.read m b := by
  induction vs generalizing m a with
  | nil => simp only [Mem.writeList, List.length_nil]; rw [if_neg (by omega)]
  | cons v vs ih =>
    rw [Mem.writeList, ih, Mem.read_write]
    simp only [List.length_cons]
    by_cases hb : b = a
    · subst hb; rw [if_neg (by omega), if_pos rfl, if_pos (by omega)]; simp
    · by_cases hin : a ≤ b ∧ b < a + (vs.length + 1)
      · rw [if_pos (by omega), if_pos hin, show b - a = (b - (a + 1)) + 1 by omega]; simp
      · rw [if_neg (by omega), if_neg hb, if_neg hin]

theorem Mem.fst_ge_of_mem_ofBytesFrom {a : Nat} {vs : List Byte} {x : Host.Cell} (h : x ∈ Mem.ofBytesFrom a vs) :
    a ≤ x.1 := by
  induction vs generalizing a with
  | nil => simp [Mem.ofBytesFrom] at h
  | cons v vs ih =>
    rcases List.mem_cons.1 h with rfl | h
    · exact le_refl _
    · have := ih h; omega

theorem Mem.ofBytesFrom_wf (a : Nat) (vs : List Byte) : Mem.wf (Mem.ofBytesFrom a vs) := by
  induction vs generalizing a with
  | nil => exact List.Pairwise.nil
  | cons v vs ih =>
    exact List.pairwise_cons.2 ⟨fun y hy => by have := Mem.fst_ge_of_mem_ofBytesFrom hy; show a < y.1; omega, ih _⟩

/-- The bytes of a list, read by address. -/
theorem Mem.read_ofBytesFrom (a b : Nat) (vs : List Byte) :
    Mem.read (Mem.ofBytesFrom a vs) b = if a ≤ b then vs[b - a]? else none := by
  induction vs generalizing a with
  | nil => simp [Mem.ofBytesFrom]
  | cons v vs ih =>
    rw [Mem.ofBytesFrom, Mem.read_cons, ih]
    by_cases hb : a = b
    · subst hb; simp
    · by_cases hle : a ≤ b
      · rw [if_neg hb, if_pos (by omega), if_pos hle, show b - a = (b - (a + 1)) + 1 by omega]; simp
      · rw [if_neg hb, if_neg (by omega), if_neg hle]

theorem Mem.read_of_lt {m : Mem} {a : Nat} (h : ∀ x ∈ m, a < x.1) : Mem.read m a = none := by
  induction m with
  | nil => rfl
  | cons x m ih =>
    obtain ⟨k, u⟩ := x
    have hk : a < k := h (k, u) (by simp)
    rw [Mem.read_cons, if_neg (by omega)]
    exact ih fun y hy => h y (List.mem_cons_of_mem _ hy)

/-- Canonical memories that read alike are equal data. -/
theorem Mem.ext_of_read {m m' : Mem} (h : Mem.wf m) (h' : Mem.wf m') (hr : ∀ a, Mem.read m a = Mem.read m' a) :
    m = m' := by
  induction m generalizing m' with
  | nil =>
    cases m' with
    | nil => rfl
    | cons y m' => have := hr y.1; simp [Mem.read, Mem.unlisted] at this
  | cons x m ih =>
    obtain ⟨k, u⟩ := x
    obtain ⟨hk, hm⟩ := List.pairwise_cons.1 h
    cases m' with
    | nil => have := hr k; simp [Mem.read, Mem.unlisted] at this
    | cons y m' =>
      obtain ⟨k', u'⟩ := y
      obtain ⟨hk', hm'⟩ := List.pairwise_cons.1 h'
      have hkk : k = k' := by
        rcases Nat.lt_trichotomy k k' with hlt | heq | hgt
        · have h0 := hr k
          rw [Mem.read_cons, if_pos rfl, Mem.read_of_lt (fun x hx => by
            rcases List.mem_cons.1 hx with rfl | hx
            · exact hlt
            · exact lt_trans hlt (hk' x hx))] at h0
          cases h0
        · exact heq
        · have h0 := hr k'
          rw [Mem.read_cons k', if_pos rfl, Mem.read_of_lt (fun x hx => by
            rcases List.mem_cons.1 hx with rfl | hx
            · exact hgt
            · exact lt_trans hgt (hk x hx))] at h0
          cases h0
      subst hkk
      have hu := hr k
      rw [Mem.read_cons, Mem.read_cons, if_pos rfl, if_pos rfl] at hu
      cases hu
      refine congrArg _ (ih hm hm' fun a => ?_)
      by_cases ha : k = a
      · subst ha; rw [Mem.read_of_lt hk, Mem.read_of_lt hk']
      · have := hr a; rwa [Mem.read_cons, Mem.read_cons, if_neg ha, if_neg ha] at this

end Sys2Proof.Machine
end

