-- ==== Sys2Proof/Laws/State.lean ====
section
/-! SUPPORT. One lemma per field per update of the state, so that no later proof unfolds a record update. -/

namespace Sys2Proof.Machine

variable (s : State)

/-! ### `raise` -/

@[simp] theorem State.raise_mode (e : ErrorCode) : (s.raise e).mode = s.mode := rfl
@[simp] theorem State.raise_phase (e : ErrorCode) : (s.raise e).phase = .error := rfl
@[simp] theorem State.raise_prev (e : ErrorCode) : (s.raise e).prev = s.prev := rfl
@[simp] theorem State.raise_cache (e : ErrorCode) : (s.raise e).cache = s.cache := rfl
@[simp] theorem State.raise_cursor (e : ErrorCode) : (s.raise e).cursor = s.cursor := rfl
@[simp] theorem State.raise_bpos (e : ErrorCode) : (s.raise e).bpos = s.bpos := rfl
@[simp] theorem State.raise_w (e : ErrorCode) : (s.raise e).w = s.w := rfl
@[simp] theorem State.raise_h (e : ErrorCode) : (s.raise e).h = s.h := rfl
@[simp] theorem State.raise_c (e : ErrorCode) : (s.raise e).c = s.c := rfl
@[simp] theorem State.raise_cs (e : ErrorCode) : (s.raise e).cs = s.cs := rfl
@[simp] theorem State.raise_err (e : ErrorCode) : (s.raise e).err = e := rfl
@[simp] theorem State.raise_endWarn (e : ErrorCode) : (s.raise e).endWarn = s.endWarn := rfl
@[simp] theorem State.raise_pb (e : ErrorCode) : (s.raise e).pb = s.pb := rfl
@[simp] theorem State.raise_inp (e : ErrorCode) : (s.raise e).inp = s.inp := rfl
@[simp] theorem State.raise_inEnd (e : ErrorCode) : (s.raise e).inEnd = s.inEnd := rfl
@[simp] theorem State.raise_out (e : ErrorCode) : (s.raise e).out = s.out := rfl
@[simp] theorem State.raise_sinkEnd (e : ErrorCode) : (s.raise e).sinkEnd = s.sinkEnd := rfl
@[simp] theorem State.raise_commands (e : ErrorCode) : (s.raise e).commands = s.commands := rfl
@[simp] theorem State.raise_params (e : ErrorCode) : (s.raise e).params = s.params := rfl
@[simp] theorem State.raise_draws (e : ErrorCode) : (s.raise e).draws = s.draws := rfl
@[simp] theorem State.raise_n (e : ErrorCode) : (s.raise e).n = s.n := rfl
@[simp] theorem State.raise_channels (e : ErrorCode) : (s.raise e).channels = s.channels := rfl
@[simp] theorem State.raise_pbSize (e : ErrorCode) : (s.raise e).pbSize = s.pbSize := rfl

/-! ### `consume` -/

@[simp] theorem State.consume_mode (k : Nat) : (s.consume k).mode = s.mode := rfl
@[simp] theorem State.consume_phase (k : Nat) : (s.consume k).phase = s.phase := rfl
@[simp] theorem State.consume_prev (k : Nat) : (s.consume k).prev = s.prev := rfl
@[simp] theorem State.consume_cache (k : Nat) : (s.consume k).cache = s.cache := rfl
@[simp] theorem State.consume_cursor (k : Nat) : (s.consume k).cursor = s.cursor := rfl
@[simp] theorem State.consume_bpos (k : Nat) : (s.consume k).bpos = s.bpos + k := rfl
@[simp] theorem State.consume_w (k : Nat) : (s.consume k).w = s.w := rfl
@[simp] theorem State.consume_h (k : Nat) : (s.consume k).h = s.h := rfl
@[simp] theorem State.consume_c (k : Nat) : (s.consume k).c = s.c := rfl
@[simp] theorem State.consume_cs (k : Nat) : (s.consume k).cs = s.cs := rfl
@[simp] theorem State.consume_err (k : Nat) : (s.consume k).err = s.err := rfl
@[simp] theorem State.consume_endWarn (k : Nat) : (s.consume k).endWarn = s.endWarn := rfl
@[simp] theorem State.consume_pb (k : Nat) : (s.consume k).pb = s.pb := rfl
@[simp] theorem State.consume_inp (k : Nat) : (s.consume k).inp = s.inp := rfl
@[simp] theorem State.consume_inEnd (k : Nat) : (s.consume k).inEnd = s.inEnd := rfl
@[simp] theorem State.consume_out (k : Nat) : (s.consume k).out = s.out := rfl
@[simp] theorem State.consume_sinkEnd (k : Nat) : (s.consume k).sinkEnd = s.sinkEnd := rfl
@[simp] theorem State.consume_commands (k : Nat) : (s.consume k).commands = s.commands := rfl
@[simp] theorem State.consume_params (k : Nat) : (s.consume k).params = s.params := rfl
@[simp] theorem State.consume_draws (k : Nat) : (s.consume k).draws = s.draws := rfl
@[simp] theorem State.consume_n (k : Nat) : (s.consume k).n = s.n := rfl
@[simp] theorem State.consume_channels (k : Nat) : (s.consume k).channels = s.channels := rfl
@[simp] theorem State.consume_pbSize (k : Nat) : (s.consume k).pbSize = s.pbSize := rfl

/-! ### `warnEnd` -/

@[simp] theorem State.warnEnd_mode : (s.warnEnd).mode = s.mode := rfl
@[simp] theorem State.warnEnd_phase : (s.warnEnd).phase = s.phase := rfl
@[simp] theorem State.warnEnd_prev : (s.warnEnd).prev = s.prev := rfl
@[simp] theorem State.warnEnd_cache : (s.warnEnd).cache = s.cache := rfl
@[simp] theorem State.warnEnd_cursor : (s.warnEnd).cursor = s.cursor := rfl
@[simp] theorem State.warnEnd_bpos : (s.warnEnd).bpos = s.bpos := rfl
@[simp] theorem State.warnEnd_w : (s.warnEnd).w = s.w := rfl
@[simp] theorem State.warnEnd_h : (s.warnEnd).h = s.h := rfl
@[simp] theorem State.warnEnd_c : (s.warnEnd).c = s.c := rfl
@[simp] theorem State.warnEnd_cs : (s.warnEnd).cs = s.cs := rfl
@[simp] theorem State.warnEnd_err : (s.warnEnd).err = s.err := rfl
@[simp] theorem State.warnEnd_endWarn : (s.warnEnd).endWarn = true := rfl
@[simp] theorem State.warnEnd_pb : (s.warnEnd).pb = s.pb := rfl
@[simp] theorem State.warnEnd_inp : (s.warnEnd).inp = s.inp := rfl
@[simp] theorem State.warnEnd_inEnd : (s.warnEnd).inEnd = s.inEnd := rfl
@[simp] theorem State.warnEnd_out : (s.warnEnd).out = s.out := rfl
@[simp] theorem State.warnEnd_sinkEnd : (s.warnEnd).sinkEnd = s.sinkEnd := rfl
@[simp] theorem State.warnEnd_commands : (s.warnEnd).commands = s.commands := rfl
@[simp] theorem State.warnEnd_params : (s.warnEnd).params = s.params := rfl
@[simp] theorem State.warnEnd_draws : (s.warnEnd).draws = s.draws := rfl
@[simp] theorem State.warnEnd_n : (s.warnEnd).n = s.n := rfl
@[simp] theorem State.warnEnd_channels : (s.warnEnd).channels = s.channels := rfl
@[simp] theorem State.warnEnd_pbSize : (s.warnEnd).pbSize = s.pbSize := rfl

/-! ### `finish` -/

@[simp] theorem State.finish_mode : (s.finish).mode = s.mode := rfl
@[simp] theorem State.finish_phase : (s.finish).phase = .done := rfl
@[simp] theorem State.finish_prev : (s.finish).prev = s.prev := rfl
@[simp] theorem State.finish_cache : (s.finish).cache = s.cache := rfl
@[simp] theorem State.finish_cursor : (s.finish).cursor = s.cursor := rfl
@[simp] theorem State.finish_bpos : (s.finish).bpos = s.bpos := rfl
@[simp] theorem State.finish_w : (s.finish).w = s.w := rfl
@[simp] theorem State.finish_h : (s.finish).h = s.h := rfl
@[simp] theorem State.finish_c : (s.finish).c = s.c := rfl
@[simp] theorem State.finish_cs : (s.finish).cs = s.cs := rfl
@[simp] theorem State.finish_err : (s.finish).err = s.err := rfl
@[simp] theorem State.finish_endWarn : (s.finish).endWarn = s.endWarn := rfl
@[simp] theorem State.finish_pb : (s.finish).pb = s.pb := rfl
@[simp] theorem State.finish_inp : (s.finish).inp = s.inp := rfl
@[simp] theorem State.finish_inEnd : (s.finish).inEnd = s.inEnd := rfl
@[simp] theorem State.finish_out : (s.finish).out = s.out := rfl
@[simp] theorem State.finish_sinkEnd : (s.finish).sinkEnd = s.sinkEnd := rfl
@[simp] theorem State.finish_commands : (s.finish).commands = s.commands := rfl
@[simp] theorem State.finish_params : (s.finish).params = s.params := rfl
@[simp] theorem State.finish_draws : (s.finish).draws = s.draws := rfl
@[simp] theorem State.finish_n : (s.finish).n = s.n := rfl
@[simp] theorem State.finish_channels : (s.finish).channels = s.channels := rfl
@[simp] theorem State.finish_pbSize : (s.finish).pbSize = s.pbSize := rfl

/-! ### `cachePut` -/

@[simp] theorem State.cachePut_mode (p : Pixel) : (s.cachePut p).mode = s.mode := rfl
@[simp] theorem State.cachePut_phase (p : Pixel) : (s.cachePut p).phase = s.phase := rfl
@[simp] theorem State.cachePut_prev (p : Pixel) : (s.cachePut p).prev = s.prev := rfl
@[simp] theorem State.cachePut_cache (p : Pixel) : (s.cachePut p).cache = s.cache.set (pixelHash p).toNat p (pixelHash p).isLt := rfl
@[simp] theorem State.cachePut_cursor (p : Pixel) : (s.cachePut p).cursor = s.cursor := rfl
@[simp] theorem State.cachePut_bpos (p : Pixel) : (s.cachePut p).bpos = s.bpos := rfl
@[simp] theorem State.cachePut_w (p : Pixel) : (s.cachePut p).w = s.w := rfl
@[simp] theorem State.cachePut_h (p : Pixel) : (s.cachePut p).h = s.h := rfl
@[simp] theorem State.cachePut_c (p : Pixel) : (s.cachePut p).c = s.c := rfl
@[simp] theorem State.cachePut_cs (p : Pixel) : (s.cachePut p).cs = s.cs := rfl
@[simp] theorem State.cachePut_err (p : Pixel) : (s.cachePut p).err = s.err := rfl
@[simp] theorem State.cachePut_endWarn (p : Pixel) : (s.cachePut p).endWarn = s.endWarn := rfl
@[simp] theorem State.cachePut_pb (p : Pixel) : (s.cachePut p).pb = s.pb := rfl
@[simp] theorem State.cachePut_inp (p : Pixel) : (s.cachePut p).inp = s.inp := rfl
@[simp] theorem State.cachePut_inEnd (p : Pixel) : (s.cachePut p).inEnd = s.inEnd := rfl
@[simp] theorem State.cachePut_out (p : Pixel) : (s.cachePut p).out = s.out := rfl
@[simp] theorem State.cachePut_sinkEnd (p : Pixel) : (s.cachePut p).sinkEnd = s.sinkEnd := rfl
@[simp] theorem State.cachePut_commands (p : Pixel) : (s.cachePut p).commands = s.commands := rfl
@[simp] theorem State.cachePut_params (p : Pixel) : (s.cachePut p).params = s.params := rfl
@[simp] theorem State.cachePut_draws (p : Pixel) : (s.cachePut p).draws = s.draws := rfl
@[simp] theorem State.cachePut_n (p : Pixel) : (s.cachePut p).n = s.n := rfl
@[simp] theorem State.cachePut_channels (p : Pixel) : (s.cachePut p).channels = s.channels := rfl
@[simp] theorem State.cachePut_pbSize (p : Pixel) : (s.cachePut p).pbSize = s.pbSize := rfl

/-! ### `setPrev` -/

@[simp] theorem State.setPrev_mode (p : Pixel) : (s.setPrev p).mode = s.mode := rfl
@[simp] theorem State.setPrev_phase (p : Pixel) : (s.setPrev p).phase = s.phase := rfl
@[simp] theorem State.setPrev_prev (p : Pixel) : (s.setPrev p).prev = p := rfl
@[simp] theorem State.setPrev_cache (p : Pixel) : (s.setPrev p).cache = s.cache := rfl
@[simp] theorem State.setPrev_cursor (p : Pixel) : (s.setPrev p).cursor = s.cursor := rfl
@[simp] theorem State.setPrev_bpos (p : Pixel) : (s.setPrev p).bpos = s.bpos := rfl
@[simp] theorem State.setPrev_w (p : Pixel) : (s.setPrev p).w = s.w := rfl
@[simp] theorem State.setPrev_h (p : Pixel) : (s.setPrev p).h = s.h := rfl
@[simp] theorem State.setPrev_c (p : Pixel) : (s.setPrev p).c = s.c := rfl
@[simp] theorem State.setPrev_cs (p : Pixel) : (s.setPrev p).cs = s.cs := rfl
@[simp] theorem State.setPrev_err (p : Pixel) : (s.setPrev p).err = s.err := rfl
@[simp] theorem State.setPrev_endWarn (p : Pixel) : (s.setPrev p).endWarn = s.endWarn := rfl
@[simp] theorem State.setPrev_pb (p : Pixel) : (s.setPrev p).pb = s.pb := rfl
@[simp] theorem State.setPrev_inp (p : Pixel) : (s.setPrev p).inp = s.inp := rfl
@[simp] theorem State.setPrev_inEnd (p : Pixel) : (s.setPrev p).inEnd = s.inEnd := rfl
@[simp] theorem State.setPrev_out (p : Pixel) : (s.setPrev p).out = s.out := rfl
@[simp] theorem State.setPrev_sinkEnd (p : Pixel) : (s.setPrev p).sinkEnd = s.sinkEnd := rfl
@[simp] theorem State.setPrev_commands (p : Pixel) : (s.setPrev p).commands = s.commands := rfl
@[simp] theorem State.setPrev_params (p : Pixel) : (s.setPrev p).params = s.params := rfl
@[simp] theorem State.setPrev_draws (p : Pixel) : (s.setPrev p).draws = s.draws := rfl
@[simp] theorem State.setPrev_n (p : Pixel) : (s.setPrev p).n = s.n := rfl
@[simp] theorem State.setPrev_channels (p : Pixel) : (s.setPrev p).channels = s.channels := rfl
@[simp] theorem State.setPrev_pbSize (p : Pixel) : (s.setPrev p).pbSize = s.pbSize := rfl

/-! ### `setPb` -/

@[simp] theorem State.setPb_mode (q : PixelBuffer) : (s.setPb q).mode = s.mode := rfl
@[simp] theorem State.setPb_phase (q : PixelBuffer) : (s.setPb q).phase = s.phase := rfl
@[simp] theorem State.setPb_prev (q : PixelBuffer) : (s.setPb q).prev = s.prev := rfl
@[simp] theorem State.setPb_cache (q : PixelBuffer) : (s.setPb q).cache = s.cache := rfl
@[simp] theorem State.setPb_cursor (q : PixelBuffer) : (s.setPb q).cursor = s.cursor := rfl
@[simp] theorem State.setPb_bpos (q : PixelBuffer) : (s.setPb q).bpos = s.bpos := rfl
@[simp] theorem State.setPb_w (q : PixelBuffer) : (s.setPb q).w = s.w := rfl
@[simp] theorem State.setPb_h (q : PixelBuffer) : (s.setPb q).h = s.h := rfl
@[simp] theorem State.setPb_c (q : PixelBuffer) : (s.setPb q).c = s.c := rfl
@[simp] theorem State.setPb_cs (q : PixelBuffer) : (s.setPb q).cs = s.cs := rfl
@[simp] theorem State.setPb_err (q : PixelBuffer) : (s.setPb q).err = s.err := rfl
@[simp] theorem State.setPb_endWarn (q : PixelBuffer) : (s.setPb q).endWarn = s.endWarn := rfl
@[simp] theorem State.setPb_pb (q : PixelBuffer) : (s.setPb q).pb = some q := rfl
@[simp] theorem State.setPb_inp (q : PixelBuffer) : (s.setPb q).inp = s.inp := rfl
@[simp] theorem State.setPb_inEnd (q : PixelBuffer) : (s.setPb q).inEnd = s.inEnd := rfl
@[simp] theorem State.setPb_out (q : PixelBuffer) : (s.setPb q).out = s.out := rfl
@[simp] theorem State.setPb_sinkEnd (q : PixelBuffer) : (s.setPb q).sinkEnd = s.sinkEnd := rfl
@[simp] theorem State.setPb_commands (q : PixelBuffer) : (s.setPb q).commands = s.commands := rfl
@[simp] theorem State.setPb_params (q : PixelBuffer) : (s.setPb q).params = s.params := rfl
@[simp] theorem State.setPb_draws (q : PixelBuffer) : (s.setPb q).draws = s.draws := rfl
@[simp] theorem State.setPb_n (q : PixelBuffer) : (s.setPb q).n = s.n := rfl
@[simp] theorem State.setPb_channels (q : PixelBuffer) : (s.setPb q).channels = s.channels := rfl
@[simp] theorem State.setPb_pbSize (q : PixelBuffer) : (s.setPb q).pbSize = some q.size := rfl

/-! ### `advance` -/

@[simp] theorem State.advance_mode (len m : Nat) : (s.advance len m).mode = s.mode := rfl
@[simp] theorem State.advance_phase (len m : Nat) : (s.advance len m).phase = s.phase := rfl
@[simp] theorem State.advance_prev (len m : Nat) : (s.advance len m).prev = s.prev := rfl
@[simp] theorem State.advance_cache (len m : Nat) : (s.advance len m).cache = s.cache := rfl
@[simp] theorem State.advance_cursor (len m : Nat) : (s.advance len m).cursor = s.cursor + m := rfl
@[simp] theorem State.advance_bpos (len m : Nat) : (s.advance len m).bpos = s.bpos + len := rfl
@[simp] theorem State.advance_w (len m : Nat) : (s.advance len m).w = s.w := rfl
@[simp] theorem State.advance_h (len m : Nat) : (s.advance len m).h = s.h := rfl
@[simp] theorem State.advance_c (len m : Nat) : (s.advance len m).c = s.c := rfl
@[simp] theorem State.advance_cs (len m : Nat) : (s.advance len m).cs = s.cs := rfl
@[simp] theorem State.advance_err (len m : Nat) : (s.advance len m).err = s.err := rfl
@[simp] theorem State.advance_endWarn (len m : Nat) : (s.advance len m).endWarn = s.endWarn := rfl
@[simp] theorem State.advance_pb (len m : Nat) : (s.advance len m).pb = s.pb := rfl
@[simp] theorem State.advance_inp (len m : Nat) : (s.advance len m).inp = s.inp := rfl
@[simp] theorem State.advance_inEnd (len m : Nat) : (s.advance len m).inEnd = s.inEnd := rfl
@[simp] theorem State.advance_out (len m : Nat) : (s.advance len m).out = s.out := rfl
@[simp] theorem State.advance_sinkEnd (len m : Nat) : (s.advance len m).sinkEnd = s.sinkEnd := rfl
@[simp] theorem State.advance_commands (len m : Nat) : (s.advance len m).commands = s.commands := rfl
@[simp] theorem State.advance_params (len m : Nat) : (s.advance len m).params = s.params := rfl
@[simp] theorem State.advance_draws (len m : Nat) : (s.advance len m).draws = s.draws := rfl
@[simp] theorem State.advance_n (len m : Nat) : (s.advance len m).n = s.n := rfl
@[simp] theorem State.advance_channels (len m : Nat) : (s.advance len m).channels = s.channels := rfl
@[simp] theorem State.advance_pbSize (len m : Nat) : (s.advance len m).pbSize = s.pbSize := rfl

/-! ### `accept` -/

@[simp] theorem State.accept_mode (b : Byte) : (s.accept b).mode = s.mode := rfl
@[simp] theorem State.accept_phase (b : Byte) : (s.accept b).phase = s.phase := rfl
@[simp] theorem State.accept_prev (b : Byte) : (s.accept b).prev = s.prev := rfl
@[simp] theorem State.accept_cache (b : Byte) : (s.accept b).cache = s.cache := rfl
@[simp] theorem State.accept_cursor (b : Byte) : (s.accept b).cursor = s.cursor := rfl
@[simp] theorem State.accept_bpos (b : Byte) : (s.accept b).bpos = s.bpos + 1 := rfl
@[simp] theorem State.accept_w (b : Byte) : (s.accept b).w = s.w := rfl
@[simp] theorem State.accept_h (b : Byte) : (s.accept b).h = s.h := rfl
@[simp] theorem State.accept_c (b : Byte) : (s.accept b).c = s.c := rfl
@[simp] theorem State.accept_cs (b : Byte) : (s.accept b).cs = s.cs := rfl
@[simp] theorem State.accept_err (b : Byte) : (s.accept b).err = s.err := rfl
@[simp] theorem State.accept_endWarn (b : Byte) : (s.accept b).endWarn = s.endWarn := rfl
@[simp] theorem State.accept_pb (b : Byte) : (s.accept b).pb = s.pb := rfl
@[simp] theorem State.accept_inp (b : Byte) : (s.accept b).inp = s.inp := rfl
@[simp] theorem State.accept_inEnd (b : Byte) : (s.accept b).inEnd = s.inEnd := rfl
@[simp] theorem State.accept_out (b : Byte) : (s.accept b).out = Mem.write s.out s.bpos b := rfl
@[simp] theorem State.accept_sinkEnd (b : Byte) : (s.accept b).sinkEnd = s.sinkEnd := rfl
@[simp] theorem State.accept_commands (b : Byte) : (s.accept b).commands = s.commands := rfl
@[simp] theorem State.accept_params (b : Byte) : (s.accept b).params = s.params := rfl
@[simp] theorem State.accept_draws (b : Byte) : (s.accept b).draws = s.draws := rfl
@[simp] theorem State.accept_n (b : Byte) : (s.accept b).n = s.n := rfl
@[simp] theorem State.accept_channels (b : Byte) : (s.accept b).channels = s.channels := rfl
@[simp] theorem State.accept_pbSize (b : Byte) : (s.accept b).pbSize = s.pbSize := rfl

/-! ### `cachePutIf` -/

@[simp] theorem State.cachePutIf_mode (b : Bool) (p : Pixel) : (s.cachePutIf b p).mode = s.mode := by cases b <;> rfl
@[simp] theorem State.cachePutIf_phase (b : Bool) (p : Pixel) : (s.cachePutIf b p).phase = s.phase := by cases b <;> rfl
@[simp] theorem State.cachePutIf_prev (b : Bool) (p : Pixel) : (s.cachePutIf b p).prev = s.prev := by cases b <;> rfl
@[simp] theorem State.cachePutIf_cursor (b : Bool) (p : Pixel) : (s.cachePutIf b p).cursor = s.cursor := by cases b <;> rfl
@[simp] theorem State.cachePutIf_bpos (b : Bool) (p : Pixel) : (s.cachePutIf b p).bpos = s.bpos := by cases b <;> rfl
@[simp] theorem State.cachePutIf_w (b : Bool) (p : Pixel) : (s.cachePutIf b p).w = s.w := by cases b <;> rfl
@[simp] theorem State.cachePutIf_h (b : Bool) (p : Pixel) : (s.cachePutIf b p).h = s.h := by cases b <;> rfl
@[simp] theorem State.cachePutIf_c (b : Bool) (p : Pixel) : (s.cachePutIf b p).c = s.c := by cases b <;> rfl
@[simp] theorem State.cachePutIf_cs (b : Bool) (p : Pixel) : (s.cachePutIf b p).cs = s.cs := by cases b <;> rfl
@[simp] theorem State.cachePutIf_err (b : Bool) (p : Pixel) : (s.cachePutIf b p).err = s.err := by cases b <;> rfl
@[simp] theorem State.cachePutIf_endWarn (b : Bool) (p : Pixel) : (s.cachePutIf b p).endWarn = s.endWarn := by cases b <;> rfl
@[simp] theorem State.cachePutIf_pb (b : Bool) (p : Pixel) : (s.cachePutIf b p).pb = s.pb := by cases b <;> rfl
@[simp] theorem State.cachePutIf_inp (b : Bool) (p : Pixel) : (s.cachePutIf b p).inp = s.inp := by cases b <;> rfl
@[simp] theorem State.cachePutIf_inEnd (b : Bool) (p : Pixel) : (s.cachePutIf b p).inEnd = s.inEnd := by cases b <;> rfl
@[simp] theorem State.cachePutIf_out (b : Bool) (p : Pixel) : (s.cachePutIf b p).out = s.out := by cases b <;> rfl
@[simp] theorem State.cachePutIf_sinkEnd (b : Bool) (p : Pixel) : (s.cachePutIf b p).sinkEnd = s.sinkEnd := by cases b <;> rfl
@[simp] theorem State.cachePutIf_commands (b : Bool) (p : Pixel) : (s.cachePutIf b p).commands = s.commands := by cases b <;> rfl
@[simp] theorem State.cachePutIf_params (b : Bool) (p : Pixel) : (s.cachePutIf b p).params = s.params := by cases b <;> rfl
@[simp] theorem State.cachePutIf_draws (b : Bool) (p : Pixel) : (s.cachePutIf b p).draws = s.draws := by cases b <;> rfl
@[simp] theorem State.cachePutIf_n (b : Bool) (p : Pixel) : (s.cachePutIf b p).n = s.n := by cases b <;> rfl
@[simp] theorem State.cachePutIf_channels (b : Bool) (p : Pixel) : (s.cachePutIf b p).channels = s.channels := by cases b <;> rfl
@[simp] theorem State.cachePutIf_pbSize (b : Bool) (p : Pixel) : (s.cachePutIf b p).pbSize = s.pbSize := by cases b <;> rfl

@[simp] theorem State.cachePutIf_true (p : Pixel) : s.cachePutIf true p = s.cachePut p := rfl

@[simp] theorem State.cachePutIf_false (p : Pixel) : s.cachePutIf false p = s := rfl

@[simp] theorem State.cachePutIf_pbRead (b : Bool) (p : Pixel) (a : Nat) :
    (s.cachePutIf b p).pbRead a = s.pbRead a := by cases b <;> rfl

/-! ### `endBody` -/

@[simp] theorem State.endBody_mode : s.endBody.mode = s.mode := by unfold State.endBody; split <;> rfl
theorem State.endBody_phase : s.endBody.phase = if s.cursor = s.n then .trailer else s.phase := by
  unfold State.endBody; split <;> rfl
@[simp] theorem State.endBody_prev : s.endBody.prev = s.prev := by unfold State.endBody; split <;> rfl
@[simp] theorem State.endBody_cache : s.endBody.cache = s.cache := by unfold State.endBody; split <;> rfl
@[simp] theorem State.endBody_cursor : s.endBody.cursor = s.cursor := by unfold State.endBody; split <;> rfl
@[simp] theorem State.endBody_bpos : s.endBody.bpos = s.bpos := by unfold State.endBody; split <;> rfl
@[simp] theorem State.endBody_w : s.endBody.w = s.w := by unfold State.endBody; split <;> rfl
@[simp] theorem State.endBody_h : s.endBody.h = s.h := by unfold State.endBody; split <;> rfl
@[simp] theorem State.endBody_c : s.endBody.c = s.c := by unfold State.endBody; split <;> rfl
@[simp] theorem State.endBody_cs : s.endBody.cs = s.cs := by unfold State.endBody; split <;> rfl
@[simp] theorem State.endBody_err : s.endBody.err = s.err := by unfold State.endBody; split <;> rfl
@[simp] theorem State.endBody_endWarn : s.endBody.endWarn = s.endWarn := by unfold State.endBody; split <;> rfl
@[simp] theorem State.endBody_pb : s.endBody.pb = s.pb := by unfold State.endBody; split <;> rfl
@[simp] theorem State.endBody_inp : s.endBody.inp = s.inp := by unfold State.endBody; split <;> rfl
@[simp] theorem State.endBody_inEnd : s.endBody.inEnd = s.inEnd := by unfold State.endBody; split <;> rfl
@[simp] theorem State.endBody_out : s.endBody.out = s.out := by unfold State.endBody; split <;> rfl
@[simp] theorem State.endBody_sinkEnd : s.endBody.sinkEnd = s.sinkEnd := by unfold State.endBody; split <;> rfl
@[simp] theorem State.endBody_commands : s.endBody.commands = s.commands := by unfold State.endBody; split <;> rfl
@[simp] theorem State.endBody_params : s.endBody.params = s.params := by unfold State.endBody; split <;> rfl
@[simp] theorem State.endBody_draws : s.endBody.draws = s.draws := by unfold State.endBody; split <;> rfl
@[simp] theorem State.endBody_n : s.endBody.n = s.n := by unfold State.endBody; split <;> rfl
@[simp] theorem State.endBody_channels : s.endBody.channels = s.channels := by unfold State.endBody; split <;> rfl
@[simp] theorem State.endBody_pbSize : s.endBody.pbSize = s.pbSize := by unfold State.endBody; split <;> rfl

/-! ### Reads that follow from the fields -/

@[simp] theorem State.endBody_pbRead (a : Nat) : s.endBody.pbRead a = s.pbRead a := by
  unfold State.endBody; split <;> rfl

@[simp] theorem State.endBody_cacheAt (i : BitVec 6) : s.endBody.cacheAt i = s.cacheAt i := by
  unfold State.endBody; split <;> rfl

/-- A cache read after a cache write (40_color_cache R142, R143). -/
theorem State.cacheAt_cachePut (p : Pixel) (i : BitVec 6) :
    (s.cachePut p).cacheAt i = if i = pixelHash p then p else s.cacheAt i := by
  unfold State.cacheAt State.cachePut
  simp only [Vector.getElem_set, BitVec.toNat_inj, eq_comm]

@[simp] theorem State.cachePut_pbRead (p : Pixel) (a : Nat) : (s.cachePut p).pbRead a = s.pbRead a := rfl

@[simp] theorem State.setPrev_cacheAt (p : Pixel) (i : BitVec 6) : (s.setPrev p).cacheAt i = s.cacheAt i := rfl

@[simp] theorem State.setPrev_pbRead (p : Pixel) (a : Nat) : (s.setPrev p).pbRead a = s.pbRead a := rfl

@[simp] theorem State.setPb_cacheAt (q : PixelBuffer) (i : BitVec 6) : (s.setPb q).cacheAt i = s.cacheAt i := rfl

@[simp] theorem State.setPb_pbRead (q : PixelBuffer) (a : Nat) :
    (s.setPb q).pbRead a = if a < q.size then Mem.read q.bytes a else none := rfl

@[simp] theorem State.advance_cacheAt (len m : Nat) (i : BitVec 6) : (s.advance len m).cacheAt i = s.cacheAt i := rfl

@[simp] theorem State.advance_pbRead (len m a : Nat) : (s.advance len m).pbRead a = s.pbRead a := rfl

@[simp] theorem State.accept_cacheAt (b : Byte) (i : BitVec 6) : (s.accept b).cacheAt i = s.cacheAt i := rfl

@[simp] theorem State.accept_pbRead (b : Byte) (a : Nat) : (s.accept b).pbRead a = s.pbRead a := rfl

@[simp] theorem State.raise_cacheAt (e : ErrorCode) (i : BitVec 6) : (s.raise e).cacheAt i = s.cacheAt i := rfl

@[simp] theorem State.raise_pbRead (e : ErrorCode) (a : Nat) : (s.raise e).pbRead a = s.pbRead a := rfl

@[simp] theorem State.consume_cacheAt (k : Nat) (i : BitVec 6) : (s.consume k).cacheAt i = s.cacheAt i := rfl

@[simp] theorem State.consume_pbRead (k a : Nat) : (s.consume k).pbRead a = s.pbRead a := rfl

end Sys2Proof.Machine
end

