-- ==== Sys2Proof/Laws/Streams.lean ====
section
/-! SUPPORT. What the stream operations do: the bytes a row of reads delivers, and how an emit ends. -/

namespace Sys2Proof.Machine

/-! ### Reading (20_memory R74) -/

theorem State.readByte_of_some {s : State} {v : Byte} (h : Mem.read s.inp s.bpos = some v) :
    s.readByte = .byte v (s.consume 1) := by
  unfold State.readByte; rw [h]; rfl

theorem State.readByte_of_none {s : State} (h : Mem.read s.inp s.bpos = none) : s.readByte = .noByte s.inEnd := by
  unfold State.readByte; rw [h]

theorem State.delivered_succ_some {s : State} {v : Byte} (k : Nat) (h : Mem.read s.inp s.bpos = some v) :
    State.delivered (k + 1) s = v :: State.delivered k (s.consume 1) := by
  rw [State.delivered, State.readByte_of_some h]

theorem State.delivered_succ_none {s : State} (k : Nat) (h : Mem.read s.inp s.bpos = none) :
    State.delivered (k + 1) s = [] := by
  rw [State.delivered, State.readByte_of_none h]

theorem State.delivered_length_le (k : Nat) (s : State) : (State.delivered k s).length ≤ k := by
  induction k generalizing s with
  | zero => simp [State.delivered]
  | succ k ih =>
    cases h : Mem.read s.inp s.bpos with
    | none => simp [State.delivered_succ_none k h]
    | some v => simpa [State.delivered_succ_some k h] using ih _

/-- Each byte delivered stands in `IN` at its offset. -/
theorem State.read_of_delivered {k : Nat} {s : State} {j : Nat} (h : j < (State.delivered k s).length) :
    Mem.read s.inp (s.bpos + j) = (State.delivered k s)[j]? := by
  induction k generalizing s j with
  | zero => simp [State.delivered] at h
  | succ k ih =>
    cases hr : Mem.read s.inp s.bpos with
    | none => simp [State.delivered_succ_none k hr] at h
    | some v =>
      rw [State.delivered_succ_some k hr] at h ⊢
      cases j with
      | zero => simpa using hr
      | succ j =>
        have := ih (s := s.consume 1) (j := j) (by simpa using h)
        simpa [Nat.add_assoc, Nat.add_comm 1 j] using this

/-- Where fewer bytes than asked for are delivered, `IN` lists no byte after them. -/
theorem State.read_after_delivered {k : Nat} {s : State} (h : (State.delivered k s).length < k) :
    Mem.read s.inp (s.bpos + (State.delivered k s).length) = none := by
  induction k generalizing s with
  | zero => simp at h
  | succ k ih =>
    cases hr : Mem.read s.inp s.bpos with
    | none => simpa [State.delivered_succ_none k hr] using hr
    | some v =>
      rw [State.delivered_succ_some k hr] at h ⊢
      have := ih (s := s.consume 1) (by simpa using h)
      simpa [Nat.add_assoc, Nat.add_comm 1] using this

/-- Bytes that stand in `IN` from `BPOS` on are the first ones delivered. -/
theorem State.delivered_of_reads {s : State} {bs : List Byte}
    (h : ∀ j, j < bs.length → Mem.read s.inp (s.bpos + j) = bs[j]?) (k : Nat) :
    State.delivered (bs.length + k) s = bs ++ State.delivered k (s.consume bs.length) := by
  induction bs generalizing s with
  | nil => simp [State.consume]
  | cons v bs ih =>
    have h0 : Mem.read s.inp s.bpos = some v := by simpa using h 0 (by simp)
    have hrest := ih (s := s.consume 1) fun j hj => by
      have := h (j + 1) (by simpa using hj)
      simpa [Nat.add_assoc, Nat.add_comm 1 j] using this
    rw [List.length_cons, show bs.length + 1 + k = (bs.length + k) + 1 by omega, State.delivered_succ_some _ h0, hrest]
    simp [State.consume, Nat.add_assoc, Nat.add_comm 1]

/-- How many bytes are delivered: those before the first that `IN` does not list. -/
theorem State.delivered_length_eq {s : State} {k m : Nat} (hk : k < m)
    (hr : ∀ j, j < k → (Mem.read s.inp (s.bpos + j)).isSome = true) (hn : Mem.read s.inp (s.bpos + k) = none) :
    (State.delivered m s).length = k := by
  rcases Nat.lt_trichotomy (State.delivered m s).length k with h | h | h
  · have := hr _ h; rw [State.read_after_delivered (by omega)] at this; cases this
  · exact h
  · have := State.read_of_delivered h; rw [hn, List.getElem?_eq_getElem h] at this; cases this

/-- The bytes delivered depend on `IN` and `BPOS` alone. -/
theorem State.delivered_congr {s t : State} (hi : t.inp = s.inp) (hb : t.bpos = s.bpos) (k : Nat) :
    State.delivered k t = State.delivered k s := by
  induction k generalizing s t with
  | zero => rfl
  | succ k ih =>
    cases hr : Mem.read s.inp s.bpos with
    | none => rw [State.delivered_succ_none k hr, State.delivered_succ_none k (by rw [hi, hb]; exact hr)]
    | some v =>
      rw [State.delivered_succ_some k hr, State.delivered_succ_some k (by rw [hi, hb]; exact hr)]
      exact congrArg _ (ih (by simpa using hi) (by simpa using hb))

/-- How a stopped read ends. -/
theorem State.readStopped_next {s t : State} {k : Nat} {e : ErrorCode} (h : s.readStopped k e = .next t) :
    t = (s.consume k).raise e ∨ t = (s.consume k).raise .io := by
  unfold State.readStopped at h
  cases hs : s.inEnd <;> rw [hs] at h <;> simp_all

theorem State.readStopped_eos {s : State} {k : Nat} {e : ErrorCode} (h : s.inEnd = .eos) :
    s.readStopped k e = .next ((s.consume k).raise e) := by
  unfold State.readStopped; rw [h]

theorem State.readStopped_ioFail {s : State} {k : Nat} {e : ErrorCode} (h : s.inEnd = .ioFail) :
    s.readStopped k e = .next ((s.consume k).raise .io) := by
  unfold State.readStopped; rw [h]

theorem State.readStopped_silent {s : State} {k : Nat} {e : ErrorCode} (h : s.inEnd = .silent) :
    s.readStopped k e = .fault .sourceSilent := by
  unfold State.readStopped; rw [h]

/-! ### Emitting (00_scope R12, 20_memory R75) -/

/-- The state after a list of bytes is accepted. -/
def State.sentAs (bs : List Byte) (s : State) : State :=
  { s with out := Mem.writeList s.out s.bpos bs, bpos := s.bpos + bs.length }

theorem State.sentAs_nil (s : State) : s.sentAs [] = s := rfl

theorem State.sentAs_cons (b : Byte) (bs : List Byte) (s : State) : s.sentAs (b :: bs) = (s.accept b).sentAs bs := by
  simp [State.sentAs, State.accept, Mem.writeList, Nat.add_assoc, Nat.add_comm 1]

/-- An emit whose every byte the sink accepts. -/
theorem State.emit_of_ok {s : State} {bs : List Byte}
    (h : ∀ j, j < bs.length → s.sinkEnd.answer (s.bpos + j) = .ok) : s.emit bs = .sent (s.sentAs bs) := by
  induction bs generalizing s with
  | nil => rfl
  | cons b bs ih =>
    have h0 : s.sinkEnd.answer s.bpos = .ok := by simpa using h 0 (by simp)
    rw [State.emit, h0, State.sentAs_cons]
    exact ih fun j hj => by
      have := h (j + 1) (by simpa using hj)
      simpa [Nat.add_assoc, Nat.add_comm 1 j] using this

/-- An emit ends in one of three ways: all bytes accepted, the bytes before the first failing one accepted, or not at
all. -/
theorem State.emit_cases (bs : List Byte) (s : State) :
    s.emit bs = .sent (s.sentAs bs) ∨
    (∃ k, k < bs.length ∧ s.sinkEnd.answer (s.bpos + k) = .ioFail ∧ s.emit bs = .failed (s.sentAs (bs.take k))) ∨
    (∃ k, k < bs.length ∧ s.sinkEnd.answer (s.bpos + k) = .silent ∧ s.emit bs = .held) := by
  induction bs generalizing s with
  | nil => exact .inl rfl
  | cons b bs ih =>
    cases h0 : s.sinkEnd.answer s.bpos with
    | ok =>
      rw [State.emit, h0, State.sentAs_cons]
      rcases ih (s.accept b) with h | ⟨k, hk, ha, h⟩ | ⟨k, hk, ha, h⟩
      · exact .inl h
      · refine .inr (.inl ⟨k + 1, by simpa using hk, ?_, ?_⟩)
        · simpa [Nat.add_assoc, Nat.add_comm 1 k] using ha
        · simpa [State.sentAs_cons] using h
      · refine .inr (.inr ⟨k + 1, by simpa using hk, ?_, h⟩)
        simpa [Nat.add_assoc, Nat.add_comm 1 k] using ha
    | ioFail => exact .inr (.inl ⟨0, by simp, by simpa using h0, by rw [State.emit, h0]; rfl⟩)
    | silent => exact .inr (.inr ⟨0, by simp, by simpa using h0, by rw [State.emit, h0]⟩)

/-- An emit whose byte at offset `k` is the first the sink fails: the bytes before it are accepted. -/
theorem State.emit_of_ioFail {bs : List Byte} {s : State} {k : Nat} (hk : k < bs.length)
    (h : ∀ j, j < k → s.sinkEnd.answer (s.bpos + j) = .ok) (hf : s.sinkEnd.answer (s.bpos + k) = .ioFail) :
    s.emit bs = .failed (s.sentAs (bs.take k)) := by
  induction bs generalizing s k with
  | nil => simp at hk
  | cons b bs ih =>
    cases k with
    | zero => rw [State.emit, show s.sinkEnd.answer s.bpos = .ioFail from hf]; rfl
    | succ k =>
      rw [State.emit, show s.sinkEnd.answer s.bpos = .ok from h 0 (by omega)]
      dsimp only
      rw [ih (k := k) (by simpa using hk), List.take_succ_cons, State.sentAs_cons]
      · intro j hj
        have := h (j + 1) (by omega)
        simpa [Nat.add_assoc, Nat.add_comm 1 j] using this
      · simpa [Nat.add_assoc, Nat.add_comm 1 k] using hf

/-- A step that emits and commits, when every byte is accepted. -/
theorem State.emitThen_of_ok {s : State} {bs : List Byte} (commit : State → State)
    (h : ∀ j, j < bs.length → s.sinkEnd.answer (s.bpos + j) = .ok) :
    s.emitThen bs commit = .next (commit (s.sentAs bs)) := by
  unfold State.emitThen; rw [State.emit_of_ok h]

/-- The next states of a step that emits and commits: committed, or IOError with the bytes accepted before it. -/
theorem State.emitThen_next {s t : State} {bs : List Byte} {commit : State → State}
    (h : s.emitThen bs commit = .next t) :
    t = commit (s.sentAs bs) ∨ ∃ k, k < bs.length ∧ s.sinkEnd.answer (s.bpos + k) = .ioFail ∧
      t = (s.sentAs (bs.take k)).raise .io := by
  unfold State.emitThen at h
  rcases State.emit_cases bs s with he | ⟨k, hk, ha, he⟩ | ⟨k, _, _, he⟩ <;> rw [he] at h
  · exact .inl (by simpa using h.symm)
  · exact .inr ⟨k, hk, ha, by simpa using h.symm⟩
  · simp at h

/-- `OUT` after an emit. -/
theorem State.read_out_sentAs (bs : List Byte) (s : State) (a : Nat) :
    Mem.read (s.sentAs bs).out a =
      if s.bpos ≤ a ∧ a < s.bpos + bs.length then bs[a - s.bpos]? else Mem.read s.out a :=
  Mem.read_writeList s.out s.bpos a bs

end Sys2Proof.Machine
end

