-- ==== Sys2Proof/Laws/Pixels.lean ====
section
/-! SUPPORT. What the pixel-buffer operations do (20_memory R73, R77, R78). -/

namespace Sys2Proof.Machine

theorem State.pbSize_eq_some {s : State} {k : Nat} (h : s.pbSize = some k) : ∃ m, s.pb = some ⟨k, m⟩ := by
  unfold State.pbSize at h
  cases hp : s.pb with
  | none => rw [hp] at h; cases h
  | some pb => rw [hp] at h; cases pb; cases h; exact ⟨_, rfl⟩

theorem State.pbRead_of_pb {s : State} {k : Nat} {m : Mem} (h : s.pb = some ⟨k, m⟩) (a : Nat) :
    s.pbRead a = if a < k then Mem.read m a else none := by
  unfold State.pbRead; rw [h]

/-- With 3 or 4 channels a pixel stores as many bytes as it has channels. -/
theorem pixelBytes_length {c : Byte} (hc : c = 3 ∨ c = 4) (p : Pixel) : (pixelBytes c p).length = c.toNat := by
  rcases hc with rfl | rfl <;> rfl

/-- What a pixel store writes, in any state. -/
theorem State.storePixel_eq_some {s t : State} {i : Nat} {p : Pixel} (h : s.storePixel i p = some t) :
    ∃ k m, s.pb = some ⟨k, m⟩ ∧ i * s.channels + (pixelBytes s.c p).length ≤ k ∧
      t = s.setPb ⟨k, Mem.writeList m (i * s.channels) (pixelBytes s.c p)⟩ := by
  unfold State.storePixel at h
  cases hp : s.pb with
  | none => rw [hp] at h; cases h
  | some pb =>
    simp only [hp] at h
    split at h
    · exact ⟨pb.size, pb.bytes, rfl, ‹_›, by simpa using h.symm⟩
    · cases h

/-- What a row of pixel stores leaves, in any state: only the bytes of `PB` change, and they keep the canonical form. -/
theorem State.storePixels_eq_some {m i : Nat} {p : Pixel} {s t : State} (h : State.storePixels m i p s = some t) :
    (t = s ∨ ∃ q, t = s.setPb q) ∧ t.pbSize = s.pbSize ∧
      ((∀ pb, s.pb = some pb → Mem.wf pb.bytes) → ∀ pb, t.pb = some pb → Mem.wf pb.bytes) := by
  induction m generalizing i s with
  | zero => cases h; exact ⟨.inl rfl, rfl, id⟩
  | succ m ih =>
    unfold State.storePixels at h
    cases hs : s.storePixel i p with
    | none => rw [hs] at h; cases h
    | some u =>
      rw [hs] at h
      obtain ⟨k, bytes, hpb, -, rfl⟩ := State.storePixel_eq_some hs
      obtain ⟨ht, hsz, hwf⟩ := ih h
      refine ⟨.inr ?_, hsz.trans (by simp [State.pbSize, hpb]), fun h0 => hwf fun pb hq => ?_⟩
      · rcases ht with rfl | ⟨q, rfl⟩
        · exact ⟨_, rfl⟩
        · exact ⟨q, rfl⟩
      · cases hq; exact Mem.writeList_wf (h0 _ hpb) _ _

/-- A row of pixel stores inside the buffer: it succeeds, and what every byte of `PB` then holds. -/
theorem State.storePixels_of_fits {s : State} {k i : Nat} {bytes : Mem} (p : Pixel) (m : Nat)
    (hpb : s.pb = some ⟨k, bytes⟩) (hc : s.c = 3 ∨ s.c = 4) (hfit : (i + m) * s.channels ≤ k) :
    ∃ bytes', State.storePixels m i p s = some (s.setPb ⟨k, bytes'⟩) ∧
      (Mem.wf bytes → Mem.wf bytes') ∧
      ∀ a, Mem.read bytes' a =
        if i * s.channels ≤ a ∧ a < (i + m) * s.channels
        then (pixelBytes s.c p)[(a - i * s.channels) % s.channels]? else Mem.read bytes a := by
  have hlen : (pixelBytes s.c p).length = s.channels := pixelBytes_length hc p
  have hch : 0 < s.channels := by unfold State.channels; rcases hc with h | h <;> rw [h] <;> decide
  induction m generalizing i s bytes with
  | zero =>
    refine ⟨bytes, by rw [State.storePixels, State.setPb, ← hpb], id, fun a => ?_⟩
    rw [Nat.add_zero, if_neg (by omega)]
  | succ m ih =>
    have hstep : (i + 1) * s.channels = i * s.channels + s.channels := by rw [Nat.add_mul, Nat.one_mul]
    have hle : (i + 1) * s.channels ≤ (i + (m + 1)) * s.channels := Nat.mul_le_mul_right _ (by omega)
    have hs : s.storePixel i p =
        some (s.setPb ⟨k, Mem.writeList bytes (i * s.channels) (pixelBytes s.c p)⟩) := by
      unfold State.storePixel; rw [hpb]; exact if_pos (by rw [hlen]; show i * s.channels + s.channels ≤ k; omega)
    obtain ⟨b', h1, h2, h3⟩ := ih (s := s.setPb ⟨k, Mem.writeList bytes (i * s.channels) (pixelBytes s.c p)⟩)
      (i := i + 1) rfl hc (by show (i + 1 + m) * s.channels ≤ k; rw [show i + 1 + m = i + (m + 1) by omega]; exact hfit)
      hlen hch
    refine ⟨b', by rw [State.storePixels, hs]; exact h1, fun hw => h2 (Mem.writeList_wf hw _ _), fun a => ?_⟩
    have h3a : Mem.read b' a = if (i + 1) * s.channels ≤ a ∧ a < (i + 1 + m) * s.channels
        then (pixelBytes s.c p)[(a - (i + 1) * s.channels) % s.channels]?
        else Mem.read (Mem.writeList bytes (i * s.channels) (pixelBytes s.c p)) a := h3 a
    rw [h3a, Mem.read_writeList, hlen, show i + 1 + m = i + (m + 1) by omega]
    by_cases hlo : i * s.channels ≤ a
    · by_cases hhi : a < (i + (m + 1)) * s.channels
      · rw [if_pos (c := i * s.channels ≤ a ∧ a < (i + (m + 1)) * s.channels) ⟨hlo, hhi⟩]
        by_cases h1st : a < i * s.channels + s.channels
        · rw [if_neg (by omega), if_pos ⟨hlo, h1st⟩, Nat.mod_eq_of_lt (by omega)]
        · rw [if_pos (by omega)]
          have : a - i * s.channels = (a - (i + 1) * s.channels) + s.channels := by omega
          rw [this, Nat.add_mod_right]
      · rw [if_neg (by omega), if_neg (by omega), if_neg (by omega)]
    · rw [if_neg (by omega), if_neg (by omega), if_neg (by omega)]

/-- One pixel store is a row of one. -/
theorem State.storePixels_one (i : Nat) (p : Pixel) (s : State) :
    State.storePixels 1 i p s = s.storePixel i p := by
  unfold State.storePixels
  cases s.storePixel i p <;> rfl

/-- A pixel load depends on `PB` and `C` alone. -/
theorem State.loadPixel_congr {s t : State} (hpb : t.pb = s.pb) (hc : t.c = s.c) (i : Nat) :
    t.loadPixel i = s.loadPixel i := by
  unfold State.loadPixel State.pbRead State.channels
  rw [hpb, hc]

/-- Where a pixel loads, `PB` holds it. -/
theorem State.pixelAt_of_loadPixel {s : State} {i : Nat} {p : Pixel} (h : s.loadPixel i = some p) : s.PixelAt i p := by
  unfold State.loadPixel at h
  split at h
  · rename_i hr hg hb
    split at h
    · split at h
      · cases h; exact ⟨hr, hg, hb, fun _ => ‹_›⟩
      · cases h
    · cases h; exact ⟨hr, hg, hb, fun h4 => absurd h4 ‹_›⟩
  · cases h

/-- Where `PB` holds a pixel, it loads. -/
theorem State.loadPixel_of_pixelAt {t : State} {i : Nat} {p : Pixel} (hc : t.c = 3 ∨ t.c = 4) (h : t.PixelAt i p)
    (ha : t.c = 3 → p.a = 255) : t.loadPixel i = some p := by
  obtain ⟨h0, h1, h2, h3⟩ := h
  unfold State.loadPixel
  rw [Nat.add_zero, h0, h1, h2]; dsimp only
  split
  · rename_i h4; rw [h3 h4]
  · rename_i h4
    have := ha (hc.resolve_right h4)
    cases p; simp at this; subst this; rfl

/-- A loaded pixel's alpha is 255 when the buffer has three channels (20_memory R77). -/
theorem State.loadPixel_alpha {s : State} {i : Nat} {p : Pixel} (h : s.loadPixel i = some p) (hc : s.c = 3) :
    p.a = 255 := by
  unfold State.loadPixel at h
  split at h
  · rw [if_neg (by rw [hc]; decide)] at h; cases h; rfl
  · cases h

end Sys2Proof.Machine
end

