-- ==== Sys2Proof/Laws/Opcodes.lean ====
section
/-! SUPPORT. What the shared ends of the opcode steps do: once for a state where the step is due, and once for any state
in which it answers a next state. -/

namespace Sys2Proof.Machine

/-! ### The body's end and the frame -/

theorem State.endBody_phaseAt {s : State} {k : Nat} (hn : s.phase = .body) (hc : s.cursor = k) :
    s.endBody.phase = s.phaseAt k := by
  rw [State.endBody_phase, hn, hc]; rfl

theorem State.phaseAt_congr {s t : State} (h : t.n = s.n) (k : Nat) : t.phaseAt k = s.phaseAt k := by
  unfold State.phaseAt; rw [h]

/-! ### DECODE -/

/-- A row of stores of a DECODE opcode step, its cursors and its end. -/
theorem State.produced_of_stores {s : State} (h : s.DecodeDue) (p : Pixel) {m : Nat} (hm : m ≤ s.n - s.cursor) :
    ∃ t, State.storePixels m s.cursor p s = some t ∧ (t = s ∨ ∃ q, t = s.setPb q) ∧
      ∀ (q : State) (len : Nat), q.pb = t.pb → q.n = s.n → q.c = s.c → q.phase = s.phase → q.cursor = s.cursor →
        q.bpos = s.bpos → q.out = s.out → s.KeepsCommand q → s.Produced (q.advance len m).endBody len m p := by
  obtain ⟨hmode, hphase, hcur, hw, hh, hc, hsize⟩ := h
  obtain ⟨bytes, hpb⟩ := State.pbSize_eq_some hsize
  have hfit : (s.cursor + m) * s.channels ≤ s.n * s.channels := Nat.mul_le_mul_right _ (by omega)
  obtain ⟨b', h1, -, h3⟩ := State.storePixels_of_fits p m hpb hc hfit
  refine ⟨_, h1, .inr ⟨_, rfl⟩, fun q len hq hn hqc hqp hqcur hqb hqo hk => ?_⟩
  have hlen : (pixelBytes s.c p).length = s.channels := pixelBytes_length hc p
  have hch : 0 < s.channels := by unfold State.channels; rcases hc with h | h <;> rw [h] <;> decide
  have hqch : q.channels = s.channels := by unfold State.channels; rw [hqc]
  have hread : ∀ a, (q.advance len m).endBody.pbRead a =
      if a < s.n * s.channels then
        if s.cursor * s.channels ≤ a ∧ a < (s.cursor + m) * s.channels
        then (pixelBytes s.c p)[(a - s.cursor * s.channels) % s.channels]? else Mem.read bytes a
      else none := fun a => by
    rw [State.endBody_pbRead, State.advance_pbRead, State.pbRead_of_pb (k := s.n * s.channels) (m := b') (by rw [hq]; rfl), h3]
  have hpix : ∀ k j, k < m → j < s.channels →
      (q.advance len m).endBody.pbRead ((s.cursor + k) * s.channels + j) = (pixelBytes s.c p)[j]? := fun k j hkm hj => by
    have e1 : (s.cursor + k) * s.channels = s.cursor * s.channels + k * s.channels := Nat.add_mul ..
    have e2 : (s.cursor + k + 1) * s.channels ≤ (s.cursor + m) * s.channels := Nat.mul_le_mul_right _ (by omega)
    rw [Nat.add_mul, Nat.one_mul] at e2
    rw [hread, if_pos (by omega), if_pos (by omega)]
    congr 1
    rw [show (s.cursor + k) * s.channels + j - s.cursor * s.channels = j + k * s.channels by omega,
      Nat.add_mul_mod_self_right, Nat.mod_eq_of_lt hj]
  refine ⟨by simp [hqb], by simp [hqcur], ?_, fun k hkm => ?_, fun a ha => ?_, ?_, by simpa using hqo, ?_⟩
  · rw [State.endBody_phaseAt (k := s.cursor + m) (by simpa using hqp.trans hphase) (by simp [hqcur])]
    exact State.phaseAt_congr (by simpa using hn) _
  · have hc3 : 3 ≤ s.channels := by unfold State.channels; rcases hc with h | h <;> rw [h] <;> decide
    unfold State.PixelAt
    rw [State.endBody_channels, State.advance_channels, hqch, State.endBody_c, State.advance_c, hqc]
    have h0 := hpix k 0 hkm (by omega)
    have h1 := hpix k 1 hkm (by omega)
    have h2 := hpix k 2 hkm (by omega)
    rw [Nat.add_zero] at h0
    refine ⟨h0.trans ?_, h1.trans ?_, h2.trans ?_, fun h4 => (hpix k 3 hkm ?_).trans ?_⟩
    · unfold pixelBytes; split <;> rfl
    · unfold pixelBytes; split <;> rfl
    · unfold pixelBytes; split <;> rfl
    · unfold State.channels; rw [h4]; decide
    · unfold pixelBytes; rw [if_pos h4]; rfl
  · rw [hread, State.pbRead_of_pb hpb, if_neg ha]
  · rw [State.endBody_pbSize, State.advance_pbSize, hsize]; unfold State.pbSize; rw [hq]; rfl
  · simpa [State.KeepsCommand] using hk

/-- The end of a one-pixel DECODE opcode step, where it is due. -/
theorem State.decPixel_of_due {s : State} (h : s.DecodeDue) (len : Nat) (wc : Bool) (px : Pixel) :
    ∃ t, s.decPixel len wc px = .next t ∧ t.prev = px ∧ t.cache = (s.cachePutIf wc px).cache ∧
      s.Produced t len 1 px := by
  obtain ⟨t, ht, hq, hP⟩ := State.produced_of_stores h px (m := 1) (by have := h.2.2.1; omega)
  rw [State.storePixels_one] at ht
  refine ⟨((t.cachePutIf wc px).setPrev px |>.advance len 1).endBody, by unfold State.decPixel; rw [ht], by simp, ?_, ?_⟩
  · rcases hq with rfl | ⟨q, rfl⟩ <;> cases wc <;> simp
  · refine hP _ len (by simp) ?_ ?_ ?_ ?_ ?_ ?_ ?_ <;> rcases hq with rfl | ⟨q, rfl⟩ <;> simp [State.KeepsCommand]

/-- The end of a DECODE RUN step, where it is due. -/
theorem State.decRun_of_due {s : State} (h : s.DecodeDue) (len : Nat) {m : Nat} (hm : m ≤ s.n - s.cursor) :
    ∃ t, s.decRun len m = .next t ∧ t.prev = s.prev ∧ t.cache = s.cache ∧ s.Produced t len m s.prev := by
  obtain ⟨t, ht, hq, hP⟩ := State.produced_of_stores h s.prev hm
  refine ⟨(t.advance len m).endBody, by unfold State.decRun; rw [ht], ?_, ?_, ?_⟩
  · rcases hq with rfl | ⟨q, rfl⟩ <;> simp
  · rcases hq with rfl | ⟨q, rfl⟩ <;> simp
  · refine hP _ len rfl ?_ ?_ ?_ ?_ ?_ ?_ ?_ <;> rcases hq with rfl | ⟨q, rfl⟩ <;> simp [State.KeepsCommand]

/-- A one-pixel DECODE opcode step that answers a next state, in any state. -/
theorem State.decPixel_next {s t : State} {len : Nat} {wc : Bool} {px : Pixel} (h : s.decPixel len wc px = .next t) :
    ∃ u, s.storePixel s.cursor px = some u ∧ t = ((u.cachePutIf wc px).setPrev px |>.advance len 1).endBody := by
  unfold State.decPixel at h
  cases hs : s.storePixel s.cursor px with
  | none => rw [hs] at h; cases h
  | some u => rw [hs] at h; exact ⟨u, rfl, by simpa using h.symm⟩

/-- A DECODE RUN step that answers a next state, in any state. -/
theorem State.decRun_next {s t : State} {len m : Nat} (h : s.decRun len m = .next t) :
    ∃ u, State.storePixels m s.cursor s.prev s = some u ∧ t = (u.advance len m).endBody := by
  unfold State.decRun at h
  cases hs : State.storePixels m s.cursor s.prev s with
  | none => rw [hs] at h; cases h
  | some u => rw [hs] at h; exact ⟨u, rfl, by simpa using h.symm⟩

/-! ### ENCODE -/

/-- What an emission leaves, whatever the commit writes besides `PREV`, the cache and the cursor. -/
theorem State.emitted_of_sent {s q : State} {bs : List Byte} {m : Nat} (hphase : s.phase = .body)
    (hpb : q.pb = s.pb) (hn : q.n = s.n) (hp : q.phase = s.phase) (hcur : q.cursor = s.cursor)
    (hb : q.bpos = s.bpos + bs.length) (ho : q.out = (s.sentAs bs).out) (hk : s.KeepsCommand q) :
    s.Emitted (q.advance 0 m).endBody bs m := by
  refine ⟨by simp [hb], by simp [hcur], ?_, fun j hj => ?_, fun a ha => ?_, by simpa using hpb, ?_⟩
  · rw [State.endBody_phaseAt (k := s.cursor + m) (by simpa using hp.trans hphase) (by simp [hcur])]
    exact State.phaseAt_congr (by simpa using hn) _
  · rw [State.endBody_out, State.advance_out, ho, State.read_out_sentAs, if_pos (by omega)]
    congr 1; omega
  · rw [State.endBody_out, State.advance_out, ho, State.read_out_sentAs, if_neg ha]
  · simpa [State.KeepsCommand] using hk

/-- `EncCommit` after an emission (42_encoder R211). -/
theorem State.encCommit_sent {s : State} (hphase : s.phase = .body) (bs : List Byte) (px : Pixel) (wc : Bool) :
    (State.encCommit px wc (s.sentAs bs)).prev = px ∧
      (State.encCommit px wc (s.sentAs bs)).cache = (s.cachePutIf wc px).cache ∧
      s.Emitted (State.encCommit px wc (s.sentAs bs)) bs 1 := by
  refine ⟨by simp [State.encCommit], by cases wc <;> simp [State.encCommit, State.sentAs], ?_⟩
  unfold State.encCommit
  refine State.emitted_of_sent hphase ?_ ?_ ?_ ?_ ?_ ?_ ?_ <;> simp [State.sentAs, State.KeepsCommand, State.n]

/-- The commit of an ENCODE RUN step after its emission (42_encoder R205). -/
theorem State.encRunCommit_sent {s : State} (hphase : s.phase = .body) (bs : List Byte) (k : Nat) :
    (State.encRunCommit k (s.sentAs bs)).prev = s.prev ∧ (State.encRunCommit k (s.sentAs bs)).cache = s.cache ∧
      s.Emitted (State.encRunCommit k (s.sentAs bs)) bs k := by
  refine ⟨by simp [State.encRunCommit, State.sentAs], by simp [State.encRunCommit, State.sentAs], ?_⟩
  unfold State.encRunCommit
  refine State.emitted_of_sent hphase ?_ ?_ ?_ ?_ ?_ ?_ ?_ <;> simp [State.sentAs, State.KeepsCommand, State.n]

/-- An emission rule where its opcode is the selected one. -/
theorem State.encOpcode_of_selected {s : State} {i : Instr} {px : Pixel} (commit : Pixel → State → State)
    (hl : s.loadPixel s.cursor = some px) (hsel : s.encSelect = some i) :
    s.encOpcode i commit = s.emitThen (encode i) (commit px) := by
  unfold State.encOpcode; rw [hl, hsel]; exact if_pos rfl

/-- An emission rule that answers a next state: its opcode is the selected one. -/
theorem State.encOpcode_next {s t : State} {i : Instr} {commit : Pixel → State → State}
    (h : s.encOpcode i commit = .next t) :
    ∃ px, s.loadPixel s.cursor = some px ∧ s.encSelect = some i ∧ s.emitThen (encode i) (commit px) = .next t := by
  unfold State.encOpcode at h
  split at h
  · rename_i px j hl hs
    split at h
    · subst_vars; exact ⟨px, hl, hs, h⟩
    · cases h
  · cases h

/-! ### The selection (42_encoder R201, R205) -/

/-- The run count: at least where it began, at most `room` further, inside the image, and every pixel counted equals
`PREV`. -/
theorem State.countRun_spec {s : State} {room k r : Nat} (h : s.countRun room k = some r) :
    k ≤ r ∧ r ≤ k + room ∧ (s.cursor + k ≤ s.n → s.cursor + r ≤ s.n) ∧
      (∀ j, k ≤ j → j < r → s.loadPixel (s.cursor + j) = some s.prev) ∧
      (r < k + room → s.cursor + r < s.n → s.loadPixel (s.cursor + r) ≠ some s.prev) := by
  induction room generalizing k with
  | zero =>
    simp only [State.countRun, Option.some.injEq] at h
    subst h
    exact ⟨le_refl _, le_refl _, id, fun j h1 h2 => by omega, fun h1 => by omega⟩
  | succ room ih =>
    unfold State.countRun at h
    split at h
    · rename_i hlt
      cases hl : s.loadPixel (s.cursor + k) with
      | none => rw [hl] at h; cases h
      | some q =>
        simp only [hl] at h
        split at h
        · rename_i hq
          obtain ⟨h1, h2, h3, h4, h5⟩ := ih h
          refine ⟨by omega, by omega, fun _ => h3 (by omega), fun j hj1 hj2 => ?_, fun hr => h5 (by omega)⟩
          rcases Nat.eq_or_lt_of_le hj1 with rfl | hj
          · rw [hl, hq]
          · exact h4 j hj hj2
        · rename_i hq
          simp only [Option.some.injEq] at h
          subst h
          exact ⟨le_refl _, by omega, fun h => h, fun j h1 h2 => by omega, fun _ _ => by rw [hl]; simpa using hq⟩
    · simp only [Option.some.injEq] at h
      subst h
      exact ⟨le_refl _, by omega, fun h => h, fun j h1 h2 => by omega, fun _ h2 => by omega⟩

/-- The run length is 1 to 62, inside the image, and covers pixels equal to `PREV` (42_encoder R205, R215). -/
theorem State.runLength_spec {s : State} {r : Nat} (h : s.runLength = some r)
    (hl : s.loadPixel s.cursor = some s.prev) :
    1 ≤ r ∧ r ≤ 62 ∧ (s.cursor < s.n → s.cursor + r ≤ s.n) ∧
      ∀ j, j < r → s.loadPixel (s.cursor + j) = some s.prev := by
  obtain ⟨h1, h2, h3, h4, -⟩ := State.countRun_spec h
  refine ⟨h1, by simpa [maxRun] using h2, fun hc => h3 (by omega), fun j hj => ?_⟩
  rcases Nat.eq_zero_or_pos j with rfl | hj0
  · simpa using hl
  · exact h4 j hj0 hj

/-- A run of 1 to 62 pixels is stored as the field that stands for it (30_encoding R109). -/
theorem runCount_storeRun {r : Nat} (h1 : 1 ≤ r) (h2 : r ≤ 62) :
    runCount (storeRun r) = r ∧ (Instr.run (storeRun r)).wellFormed = true := by
  have : (storeRun r).toNat = r - 1 := by
    unfold storeRun; rw [BitVec.toNat_ofNat]; exact Nat.mod_eq_of_lt (by omega)
  unfold runCount Instr.wellFormed
  rw [this]
  exact ⟨by omega, by simp; omega⟩

/-- What the selection is, by the pixel at the cursor: a run of pixels equal to `PREV`, or the choice for a pixel that
differs from it. -/
theorem State.encSelect_cases {s : State} {i : Instr} (h : s.encSelect = some i) :
    ∃ px, s.loadPixel s.cursor = some px ∧
      ((px = s.prev ∧ ∃ r, s.runLength = some r ∧ i = .run (storeRun r)) ∨ (px ≠ s.prev ∧ i = s.selectFor px)) := by
  unfold State.encSelect at h
  cases hl : s.loadPixel s.cursor with
  | none => rw [hl] at h; cases h
  | some px =>
    simp only [hl] at h
    refine ⟨px, rfl, ?_⟩
    split at h
    · rename_i heq
      cases hr : s.runLength with
      | none => rw [hr] at h; cases h
      | some r => simp only [hr, Option.some.injEq] at h; exact .inl ⟨heq, r, rfl, h.symm⟩
    · rename_i hne
      exact .inr ⟨hne, by simpa using h.symm⟩

theorem State.encSelect_of_ne {s : State} {px : Pixel} (hl : s.loadPixel s.cursor = some px) (hne : px ≠ s.prev) :
    s.encSelect = some (s.selectFor px) := by
  unfold State.encSelect; rw [hl]; exact if_neg hne

theorem State.encSelect_of_eq {s : State} {r : Nat} (hl : s.loadPixel s.cursor = some s.prev)
    (hr : s.runLength = some r) : s.encSelect = some (.run (storeRun r)) := by
  unfold State.encSelect; rw [hl]; simp [hr]

/-- The choice for a pixel that no cache slot holds and whose alpha differs is RGBA; otherwise it is one of the four. -/
theorem State.selectFor_cases (s : State) (px : Pixel) :
    (s.cacheAt (pixelHash px) = px ∧ s.selectFor px = .index (pixelHash px)) ∨
    (s.cacheAt (pixelHash px) ≠ px ∧ px.a = s.prev.a ∧ s.selectFor px = sameAlphaInstr px s.prev) ∨
    (s.cacheAt (pixelHash px) ≠ px ∧ px.a ≠ s.prev.a ∧ s.selectFor px = .rgba px.r px.g px.b px.a) := by
  unfold State.selectFor
  by_cases h1 : s.cacheAt (pixelHash px) = px
  · exact .inl ⟨h1, if_pos h1⟩
  · by_cases h2 : px.a = s.prev.a
    · exact .inr (.inl ⟨h1, h2, by rw [if_neg h1, if_pos h2]⟩)
    · exact .inr (.inr ⟨h1, h2, by rw [if_neg h1, if_neg h2]⟩)

end Sys2Proof.Machine
end

