-- ==== Sys2Proof/Laws/Operands.lean ====
section
/-! SUPPORT. The arithmetic of the stored fields and of the modulo-256 deltas (00_scope R10, 30_encoding R109,
42_encoder R203). -/

namespace Sys2Proof.Machine

/-- `wrap8` is the mathematical modulus (00_scope R10). -/
theorem wrap8_toNat (v : Int) : ((wrap8 v).toNat : Int) = v % 256 := by
  unfold wrap8
  rw [BitVec.toNat_ofInt, Int.toNat_of_nonneg (Int.emod_nonneg _ (by positivity))]
  rfl

/-- `wrap8` identifies values congruent modulo 256. -/
theorem wrap8_congr {v w : Int} (k : Int) (h : v = w + 256 * k) : wrap8 v = wrap8 w := by
  apply BitVec.eq_of_toNat_eq
  have h1 := wrap8_toNat v
  have h2 := wrap8_toNat w
  omega

/-- `s8` is congruent to its argument and lies in -128..127 (00_scope R10). -/
theorem s8_spec (v : Int) : (∃ k, s8 v = v + 256 * k) ∧ -128 ≤ s8 v ∧ s8 v ≤ 127 := by
  have h : s8 v = Int.bmod v 256 := by unfold s8 wrap8; rw [BitVec.toInt_ofInt]
  rw [h]
  refine ⟨⟨(Int.bmod v 256 - v) / 256, ?_⟩, ?_⟩ <;> (unfold Int.bmod; dsimp only; omega)

theorem wrap8_of_byte (b : Byte) : wrap8 (b.toNat : Int) = b := by
  apply BitVec.eq_of_toNat_eq
  have h := wrap8_toNat (b.toNat : Int)
  have := b.isLt
  omega

/-- Moving a channel by its delta reaches the other channel (42_encoder R203). -/
theorem wrap8_add_channelDelta (prev cur : Byte) : wrap8 ((prev.toNat : Int) + channelDelta cur prev) = cur := by
  obtain ⟨k, hk⟩ := (s8_spec ((cur.toNat : Int) - (prev.toNat : Int))).1
  unfold channelDelta
  rw [hk, wrap8_congr (w := (cur.toNat : Int)) k (by ring), wrap8_of_byte]

/-- Moving a channel by the green delta and its cross-delta reaches the other channel. -/
theorem wrap8_add_crossDelta (prev cur : Byte) (dg : Int) :
    wrap8 ((prev.toNat : Int) + (dg + s8 (channelDelta cur prev - dg))) = cur := by
  obtain ⟨k, hk⟩ := (s8_spec (channelDelta cur prev - dg)).1
  rw [hk, wrap8_congr (w := (prev.toNat : Int) + channelDelta cur prev) k (by ring), wrap8_add_channelDelta]

/-- A value in a field's range is stored as the field that stands for it (30_encoding R109). -/
theorem fieldValue_storeField {n bias : Nat} {d : Int} (h0 : 0 ≤ d + (bias : Int)) (h1 : d + (bias : Int) < 2 ^ n) :
    fieldValue bias (storeField n bias d) = d := by
  have h : ((storeField n bias d).toNat : Int) = d + (bias : Int) := by
    unfold storeField
    rw [BitVec.toNat_ofInt, Int.toNat_of_nonneg (Int.emod_nonneg _ (by positivity))]
    exact Int.emod_eq_of_lt h0 (by exact_mod_cast h1)
  unfold fieldValue
  omega

theorem diffFits_iff {dr dg db : Int} :
    diffFits dr dg db = true ↔ (-2 ≤ dr ∧ dr ≤ 1) ∧ (-2 ≤ dg ∧ dg ≤ 1) ∧ (-2 ≤ db ∧ db ≤ 1) := by
  unfold diffFits; rw [decide_eq_true_eq]; tauto

theorem lumaFits_iff {dg drg dbg : Int} :
    lumaFits dg drg dbg = true ↔ (-32 ≤ dg ∧ dg ≤ 31) ∧ (-8 ≤ drg ∧ drg ≤ 7) ∧ (-8 ≤ dbg ∧ dbg ≤ 7) := by
  unfold lumaFits; rw [decide_eq_true_eq]; tauto

end Sys2Proof.Machine
end

