-- ==== Sys2Proof/Laws/PerInstr.lean ====
section
/-! SUPPORT. A law of every instruction as it is encoded, one lemma per constructor. -/

namespace Sys2Proof.Laws.TagFixesOpcode

/-- The first byte of a well-formed instruction alone fixes its opcode, and the instruction has that opcode's length
(30_encoding R101, R102, R110). -/
def Statement (i : Instr) : Prop :=
  i.wellFormed = true → ∃ b0 payload, encode i = b0 :: payload ∧ classify b0 = i.opcode ∧ (encode i).length = i.length

theorem rgb (r g b : Byte) : Statement (.rgb r g b) := fun _ => ⟨_, _, rfl, by show classify 0xFE = .rgb; decide, rfl⟩

theorem rgba (r g b a : Byte) : Statement (.rgba r g b a) := fun _ => ⟨_, _, rfl, by show classify 0xFF = .rgba; decide, rfl⟩

theorem index (idx : BitVec 6) : Statement (.index idx) := fun _ => by
  refine ⟨_, _, rfl, ?_, rfl⟩
  revert idx; decide

theorem diff (dr2 dg2 db2 : BitVec 2) : Statement (.diff dr2 dg2 db2) := fun _ => by
  refine ⟨_, _, rfl, ?_, rfl⟩
  revert dr2 dg2 db2; decide

theorem luma (dg32 : BitVec 6) (drg8 dbg8 : BitVec 4) : Statement (.luma dg32 drg8 dbg8) := by
  intro _
  refine ⟨_, _, rfl, ?_, rfl⟩
  show classify (0b10#2 ++ dg32) = .luma
  clear * -
  revert dg32; decide

theorem run (len1 : BitVec 6) : Statement (.run len1) := fun h => by
  refine ⟨_, _, rfl, ?_, rfl⟩
  revert len1; decide

end Sys2Proof.Laws.TagFixesOpcode
end

