-- ==== Sys2Proof/Laws/Step.lean ====
section
/-! SUPPORT. What `exec` and `step` can answer: their inversion lemmas, and `step` phase by phase. -/

namespace Sys2Proof.Machine

/-! ### `exec` -/

theorem opcodeStep_decode {s : State} {dec enc : Host.Outcome State Fault Refusal} (hp : s.phase = .body)
    (hc : s.cursor < s.n) (hm : s.mode = .decode) : opcodeStep s dec enc = dec := by
  unfold opcodeStep; rw [if_pos ⟨hp, hc⟩, hm]

theorem opcodeStep_encode {s : State} {dec enc : Host.Outcome State Fault Refusal} (hp : s.phase = .body)
    (hc : s.cursor < s.n) (hm : s.mode = .encode) : opcodeStep s dec enc = enc := by
  unfold opcodeStep; rw [if_pos ⟨hp, hc⟩, hm]

theorem opcodeStep_next {s t : State} {dec enc : Host.Outcome State Fault Refusal} (h : opcodeStep s dec enc = .next t) :
    s.phase = .body ∧ s.cursor < s.n ∧ ((s.mode = .decode ∧ dec = .next t) ∨ (s.mode = .encode ∧ enc = .next t)) := by
  unfold opcodeStep at h
  split at h
  · rename_i hd
    refine ⟨hd.1, hd.2, ?_⟩
    cases hm : s.mode <;> rw [hm] at h
    · exact .inl ⟨rfl, h⟩
    · exact .inr ⟨rfl, h⟩
  · cases h

/-- The four ways an opcode step of DECODE or ENCODE answers a next state. -/
inductive ExecNext (i : Instr) (s t : State) : Prop where
  /-- DECODE, one pixel. -/
  | decodePixel (hm : s.mode = .decode) (wc : Bool) (px : Pixel) (h : s.decPixel i.length wc px = .next t)
  /-- DECODE, a run. -/
  | decodeRun (hm : s.mode = .decode) (l : BitVec 6) (hi : i = .run l)
      (h : s.decRun i.length (min (runCount l) (s.n - s.cursor)) = .next t)
  /-- ENCODE, one pixel. -/
  | encodePixel (hm : s.mode = .encode) (wc : Bool) (px : Pixel) (hl : s.loadPixel s.cursor = some px)
      (hsel : s.encSelect = some i) (h : s.emitThen (encode i) (State.encCommit px wc) = .next t)
  /-- ENCODE, a run. -/
  | encodeRun (hm : s.mode = .encode) (l : BitVec 6) (hi : i = .run l) (hsel : s.encSelect = some i)
      (h : s.emitThen (encode i) (State.encRunCommit (runCount l)) = .next t)

/-- Everything `exec` can do when it answers a next state. -/
theorem exec_next {i : Instr} {s t : State} (h : exec i s = .next t) :
    s.phase = .body ∧ s.cursor < s.n ∧ i.wellFormed = true ∧ ExecNext i s t := by
  cases i with
  | rgb r g b =>
    obtain ⟨hp, hc, ⟨hm, h⟩ | ⟨hm, h⟩⟩ := opcodeStep_next h
    · exact ⟨hp, hc, rfl, .decodePixel hm _ _ h⟩
    · obtain ⟨px, hl, hs, h⟩ := State.encOpcode_next h
      exact ⟨hp, hc, rfl, .encodePixel hm _ px hl hs h⟩
  | rgba r g b a =>
    obtain ⟨hp, hc, ⟨hm, h⟩ | ⟨hm, h⟩⟩ := opcodeStep_next h
    · exact ⟨hp, hc, rfl, .decodePixel hm _ _ h⟩
    · obtain ⟨px, hl, hs, h⟩ := State.encOpcode_next h
      exact ⟨hp, hc, rfl, .encodePixel hm _ px hl hs h⟩
  | index idx =>
    obtain ⟨hp, hc, ⟨hm, h⟩ | ⟨hm, h⟩⟩ := opcodeStep_next h
    · exact ⟨hp, hc, rfl, .decodePixel hm _ _ h⟩
    · obtain ⟨px, hl, hs, h⟩ := State.encOpcode_next h
      exact ⟨hp, hc, rfl, .encodePixel hm _ px hl hs h⟩
  | diff dr2 dg2 db2 =>
    obtain ⟨hp, hc, ⟨hm, h⟩ | ⟨hm, h⟩⟩ := opcodeStep_next h
    · exact ⟨hp, hc, rfl, .decodePixel hm _ _ h⟩
    · obtain ⟨px, hl, hs, h⟩ := State.encOpcode_next h
      exact ⟨hp, hc, rfl, .encodePixel hm _ px hl hs h⟩
  | luma dg32 drg8 dbg8 =>
    obtain ⟨hp, hc, ⟨hm, h⟩ | ⟨hm, h⟩⟩ := opcodeStep_next h
    · exact ⟨hp, hc, rfl, .decodePixel hm _ _ h⟩
    · obtain ⟨px, hl, hs, h⟩ := State.encOpcode_next h
      exact ⟨hp, hc, rfl, .encodePixel hm _ px hl hs h⟩
  | run l =>
    change execRun l s = .next t at h
    unfold execRun at h
    split at h
    · rename_i hwf
      obtain ⟨hp, hc, ⟨hm, h⟩ | ⟨hm, h⟩⟩ := opcodeStep_next h
      · exact ⟨hp, hc, hwf, .decodeRun hm l rfl h⟩
      · obtain ⟨px, hl, hs, h⟩ := State.encOpcode_next h
        exact ⟨hp, hc, hwf, .encodeRun hm l rfl hs h⟩
    · cases h

/-- What `exec` is for the opcode the selection chose: its bytes emitted, and one of the two commits. -/
theorem exec_of_selected {s : State} {i : Instr} (hm : s.mode = .encode) (hp : s.phase = .body) (hc : s.cursor < s.n)
    (hs : s.encSelect = some i) (hwf : i.wellFormed = true) :
    ∃ commit, exec i s = s.emitThen (encode i) commit ∧
      ((∃ px wc, s.loadPixel s.cursor = some px ∧ commit = State.encCommit px wc) ∨
        ∃ l, i = .run l ∧ commit = State.encRunCommit (runCount l)) := by
  obtain ⟨px, hl, -⟩ := State.encSelect_cases hs
  have hop : ∀ dec enc, opcodeStep s dec enc = enc := fun _ _ => opcodeStep_encode hp hc hm
  have henc := fun c => State.encOpcode_of_selected c hl hs
  cases i with
  | rgb => exact ⟨_, (hop _ _).trans (henc _), .inl ⟨px, _, hl, rfl⟩⟩
  | rgba => exact ⟨_, (hop _ _).trans (henc _), .inl ⟨px, _, hl, rfl⟩⟩
  | index => exact ⟨_, (hop _ _).trans (henc _), .inl ⟨px, _, hl, rfl⟩⟩
  | diff => exact ⟨_, (hop _ _).trans (henc _), .inl ⟨px, _, hl, rfl⟩⟩
  | luma => exact ⟨_, (hop _ _).trans (henc _), .inl ⟨px, _, hl, rfl⟩⟩
  | run l =>
    refine ⟨State.encRunCommit (runCount l), ?_, .inr ⟨l, rfl, rfl⟩⟩
    show execRun l s = _
    unfold execRun; rw [if_pos hwf]; exact (hop _ _).trans (henc _)

/-! ### `step`, phase by phase (10_state R32, R33) -/

theorem step_idle {s : State} (hp : s.phase = .idle) : step s = awaitCommand s := by
  unfold step nextAction; rw [hp]

theorem step_done {s : State} (hp : s.phase = .done) : step s = awaitCommand s := by
  unfold step nextAction; rw [hp]

theorem step_error {s : State} (hp : s.phase = .error) : step s = awaitCommand s := by
  unfold step nextAction; rw [hp]

theorem step_header_decode {s : State} (hp : s.phase = .header) (hm : s.mode = .decode) : step s = decodeHeader s := by
  unfold step nextAction; rw [hp, hm]

theorem step_header_encode {s : State} (hp : s.phase = .header) (hm : s.mode = .encode) : step s = encodeHeader s := by
  unfold step nextAction; rw [hp, hm]

theorem step_trailer_decode {s : State} (hp : s.phase = .trailer) (hm : s.mode = .decode) :
    step s = decodeTrailer s := by
  unfold step nextAction; rw [hp, hm]

theorem step_trailer_encode {s : State} (hp : s.phase = .trailer) (hm : s.mode = .encode) :
    step s = encodeTrailer s := by
  unfold step nextAction; rw [hp, hm]

theorem step_body_over {s : State} (hp : s.phase = .body) (hc : ¬s.cursor < s.n) :
    step s = .next { s with phase := .trailer } := by
  unfold step nextAction; rw [hp]; simp [hc]

theorem step_body_decode {s : State} (hp : s.phase = .body) (hc : s.cursor < s.n) (hm : s.mode = .decode) :
    step s = match fetch s with
      | .opcode i => exec i s
      | .cutShort k => s.readStopped k .truncatedStream := by
  unfold step nextAction; rw [hp, hm]; simp only [hc, if_true, decodeBody]; cases fetch s <;> rfl

theorem step_body_encode {s : State} (hp : s.phase = .body) (hc : s.cursor < s.n) (hm : s.mode = .encode) :
    step s = match s.encSelect with
      | some i => exec i s
      | none => .fault .pbByteAbsent := by
  unfold step nextAction; rw [hp, hm]; simp only [hc, if_true, encodeBody]; cases s.encSelect <;> rfl

/-- The kinds of step that answer a next state (10_state R33). -/
inductive StepNext (s t : State) : Prop where
  /-- Between commands: a wait or a command start. -/
  | await (hp : s.phase = .idle ∨ s.phase = .done ∨ s.phase = .error) (h : awaitCommand s = .next t)
  | decodeHeader (hp : s.phase = .header) (hm : s.mode = .decode) (h : decodeHeader s = .next t)
  | encodeHeader (hp : s.phase = .header) (hm : s.mode = .encode) (h : encodeHeader s = .next t)
  /-- An opcode step. -/
  | opcode (i : Instr) (h : exec i s = .next t)
  /-- A body step of DECODE whose opcode is cut short. -/
  | cutShort (hp : s.phase = .body) (hm : s.mode = .decode) (hc : s.cursor < s.n) (k : Nat)
      (h : s.readStopped k .truncatedStream = .next t)
  /-- BODY with the loop over already. -/
  | bodyOver (hp : s.phase = .body) (hc : ¬s.cursor < s.n) (h : t = { s with phase := .trailer })
  | decodeTrailer (hp : s.phase = .trailer) (hm : s.mode = .decode) (h : decodeTrailer s = .next t)
  | encodeTrailer (hp : s.phase = .trailer) (hm : s.mode = .encode) (h : encodeTrailer s = .next t)

/-- Everything `step` can do when it answers a next state. -/
theorem step_next {s t : State} (h : step s = .next t) : StepNext s t := by
  cases hp : s.phase with
  | idle => exact .await (.inl hp) (step_idle hp ▸ h)
  | done => exact .await (.inr (.inl hp)) (step_done hp ▸ h)
  | error => exact .await (.inr (.inr hp)) (step_error hp ▸ h)
  | header =>
    cases hm : s.mode with
    | decode => exact .decodeHeader hp hm (step_header_decode hp hm ▸ h)
    | encode => exact .encodeHeader hp hm (step_header_encode hp hm ▸ h)
  | trailer =>
    cases hm : s.mode with
    | decode => exact .decodeTrailer hp hm (step_trailer_decode hp hm ▸ h)
    | encode => exact .encodeTrailer hp hm (step_trailer_encode hp hm ▸ h)
  | body =>
    by_cases hc : s.cursor < s.n
    · cases hm : s.mode with
      | decode =>
        rw [step_body_decode hp hc hm] at h
        cases hf : fetch s with
        | opcode i => rw [hf] at h; exact .opcode i h
        | cutShort k => rw [hf] at h; exact .cutShort hp hm hc k h
      | encode =>
        rw [step_body_encode hp hc hm] at h
        cases hs : s.encSelect with
        | none => rw [hs] at h; cases h
        | some i => rw [hs] at h; exact .opcode i h
    · rw [step_body_over hp hc] at h
      exact .bodyOver hp hc (by simpa using h.symm)

/-! ### Many steps -/

theorem steps_zero (s : State) : steps 0 s = .next s := rfl

theorem steps_succ {s t : State} (k : Nat) (h : step s = .next t) : steps (k + 1) s = steps k t := by
  rw [steps, h]

/-! ### The other steps -/

/-- A wait, or the start of the host's next command (10_state R31, R45). -/
theorem awaitCommand_next {s t : State} (h : awaitCommand s = .next t) :
    (s.commands = [] ∧ t = s) ∨
      ∃ cmd rest, s.commands = cmd :: rest ∧ t = ({ s with commands := rest } : State).start cmd := by
  unfold awaitCommand at h
  cases hc : s.commands with
  | nil => rw [hc] at h; exact .inl ⟨rfl, by simpa using h.symm⟩
  | cons cmd rest => rw [hc] at h; exact .inr ⟨cmd, rest, rfl, by simpa using h.symm⟩

/-- The three ends of a DECODE header step with a next state (43_header_codec R242 to R245). -/
theorem decodeHeader_next {s t : State} (h : decodeHeader s = .next t) :
    (∃ k e, s.readStopped k e = .next t ∧ e = .format) ∨
      (∃ hd e, Header.check hd s.params = some e ∧ t = (s.consume headerLength).raise e) ∨
      ∃ hd, parseHeader (State.delivered headerLength s) = some hd ∧ Header.check hd s.params = none ∧
        t = (s.consume headerLength).latchHeader hd := by
  unfold decodeHeader at h
  dsimp only at h
  cases hp : parseHeader (State.delivered headerLength s) with
  | none => rw [hp] at h; exact .inl ⟨_, _, h, rfl⟩
  | some hd =>
    rw [hp] at h
    dsimp only at h
    cases hc : Header.check hd s.params with
    | some e => rw [hc] at h; exact .inr (.inl ⟨hd, e, hc, by simpa using h.symm⟩)
    | none => rw [hc] at h; exact .inr (.inr ⟨hd, rfl, hc, by simpa using h.symm⟩)

/-- A header passes every check of 43_header_codec R244 exactly when its fields are these. -/
theorem Header.check_eq_none {hd : Header} {p : Params} :
    hd.check p = none ↔ hd.magic = Machine.magic ∧ hd.w ≠ 0 ∧ hd.h ≠ 0 ∧ (hd.c = 3 ∨ hd.c = 4) ∧
      Params.admits p (hd.w.toNat * hd.h.toNat) = true := by
  unfold Header.check
  constructor
  · intro h
    split at h <;> [cases h; skip]
    split at h <;> [cases h; skip]
    split at h <;> [cases h; skip]
    split at h <;> [cases h; skip]
    tauto
  · rintro ⟨h1, h2, h3, h4, h5⟩
    rw [if_neg (not_not.2 h1), if_neg (by tauto), if_neg (not_not.2 h4), if_neg (not_not.2 h5)]

theorem Header.check_ne_noError {hd : Header} {p : Params} {e : ErrorCode} (h : hd.check p = some e) :
    e ≠ .noError := by
  unfold Header.check at h
  split at h
  · cases h; decide
  · split at h
    · cases h; decide
    · split at h
      · cases h; decide
      · split at h
        · cases h; decide
        · cases h

/-- The two ends of an ENCODE header step with a next state (43_header_codec R240, R241). -/
theorem encodeHeader_next {s t : State} (h : encodeHeader s = .next t) :
    (s.encodeOperandsOk = true ∧
      s.emitThen (headerBytes s.w s.h s.c s.cs) (fun t => { t with phase := .body }) = .next t) ∨
    (s.encodeOperandsOk = false ∧ t = s.raise .invalidDimensions) := by
  unfold encodeHeader at h
  cases hok : s.encodeOperandsOk with
  | true => rw [hok] at h; exact .inl ⟨rfl, h⟩
  | false => rw [hok] at h; exact .inr ⟨rfl, by simpa using h.symm⟩

/-- The ENCODE operands that pass every check (43_header_codec R240). -/
theorem State.encodeOperandsOk_iff {s : State} :
    s.encodeOperandsOk = true ↔ s.DimsOk ∧ Params.admits s.params s.n = true := by
  unfold State.encodeOperandsOk State.DimsOk State.n
  simp only [Bool.and_eq_true, decide_eq_true_eq]
  tauto

/-- The fields of the 14 header bytes ENCODE writes (43_header_codec R241, R243). -/
theorem parseHeader_headerBytes (w h : Word) (c cs : Byte) :
    parseHeader (headerBytes w h c cs) = some ⟨magic, w, h, c, cs⟩ := by
  have e : ∀ v : Word,
      v.extractLsb' 24 8 ++ v.extractLsb' 16 8 ++ v.extractLsb' 8 8 ++ v.extractLsb' 0 8 = v := by
    intro v
    apply BitVec.eq_of_getLsbD_eq
    intro i hi
    simp only [BitVec.getLsbD_append, BitVec.getLsbD_extractLsb']
    by_cases h1 : i < 8
    · simp [h1]
    · by_cases h2 : i - 8 < 8
      · simp [h1, h2, show 8 + (i - 8) = i by omega]
      · by_cases h3 : i - 8 - 8 < 8
        · simp [h1, h2, h3, show 16 + (i - 8 - 8) = i by omega]
        · simp [h1, h2, h3, show 24 + (i - 8 - 8 - 8) = i by omega, show i - 8 - 8 - 8 < 8 by omega]
  show some (Header.mk _ (_ ++ _ ++ _ ++ _) (_ ++ _ ++ _ ++ _) _ _) = _
  rw [e, e]
  rfl

/-- Four bytes, the first the most significant, as a number (20_memory R79). -/
theorem toNat_fourBytes (a b c d : Byte) :
    (a ++ b ++ c ++ d : Word).toNat = a.toNat * 2 ^ 24 + b.toNat * 2 ^ 16 + c.toNat * 2 ^ 8 + d.toNat := by
  simp only [BitVec.toNat_append]
  rw [← Nat.shiftLeft_add_eq_or_of_lt b.isLt, ← Nat.shiftLeft_add_eq_or_of_lt c.isLt,
    ← Nat.shiftLeft_add_eq_or_of_lt d.isLt]
  simp only [Nat.shiftLeft_eq]
  omega

theorem Params.admits_iff (p : Params) (k : Nat) :
    Params.admits p k = true ↔ ∀ m, p.maxPixels = some m → k ≤ m := by
  unfold Params.admits
  cases p.maxPixels <;> simp

/-- Marker bytes that stand in `IN` are read and passed (41_decoder R172). -/
theorem checkMarker_prefix {es fs : List Byte} {s : State}
    (h : ∀ j, j < es.length → Mem.read s.inp (s.bpos + j) = es[j]?) :
    checkMarker (es ++ fs) s = checkMarker fs (s.consume es.length) := by
  induction es generalizing s with
  | nil => rfl
  | cons e es ih =>
    have h0 : Mem.read s.inp s.bpos = some e := by simpa using h 0 (by simp)
    rw [List.cons_append, checkMarker, State.readByte_of_some h0]
    dsimp only
    rw [if_pos rfl, ih]
    · simp [State.consume, Nat.add_assoc, Nat.add_comm 1]
    · intro j hj
      have := h (j + 1) (by simpa using hj)
      simpa [Nat.add_assoc, Nat.add_comm 1 j] using this

/-- The ends of a DECODE end-marker step with a next state (41_decoder R172): some bytes of the marker are read, then it
is finished, finished with the warning, or failed. -/
theorem checkMarker_next {es : List Byte} {s t : State} (h : checkMarker es s = .next t) :
    ∃ k, k ≤ es.length ∧
      (t = (s.consume k).finish ∨ t = (s.consume k).warnEnd.finish ∨ t = (s.consume k).raise .io) := by
  induction es generalizing s with
  | nil => exact ⟨0, le_refl _, .inl (by simpa [checkMarker, State.consume] using h.symm)⟩
  | cons e es ih =>
    unfold checkMarker at h
    cases hr : Mem.read s.inp s.bpos with
    | some v =>
      rw [State.readByte_of_some hr] at h
      dsimp only at h
      split at h
      · obtain ⟨k, hk, hcase⟩ := ih h
        refine ⟨k + 1, by simpa using hk, ?_⟩
        have hcons : (s.consume 1).consume k = s.consume (k + 1) := by
          simp [State.consume, Nat.add_assoc, Nat.add_comm 1]
        rwa [hcons] at hcase
      · exact ⟨1, by simp, .inr (.inl (by simpa using h.symm))⟩
    | none =>
      rw [State.readByte_of_none hr] at h
      refine ⟨0, Nat.zero_le _, ?_⟩
      have hz : s.consume 0 = s := rfl
      rw [hz]
      cases he : s.inEnd <;> rw [he] at h
      · exact .inr (.inl (by simpa using h.symm))
      · exact .inr (.inr (by simpa using h.symm))
      · cases h

end Sys2Proof.Machine
end

