-- ==== Sys2Proof/Tests/Slice0.lean ====
section
/-! SUPPORT. Tests: words and results taken from spec/ by hand (95_test_vectors unless said otherwise), and a witness for
the hypotheses of every statement. -/

namespace Sys2Proof.Machine

/-! ### States -/

/-- The body of a DECODE of a 2 by 1 image of 4 channels, these bytes at `BPOS`. -/
def tDec (bytes : List Byte) (inEnd : SourceEnd := .eos) : State :=
  { State.reset with
    phase := .body, bpos := 14, w := 2, h := 1, c := 4, pb := some ⟨8, []⟩, inp := Mem.ofBytesFrom 14 bytes,
    inEnd := inEnd }

/-- The body of an ENCODE of a 2 by 1 image of 4 channels, these pixel-buffer bytes. -/
def tEnc (pb : List Byte) (sinkEnd : SinkEnd := .never) : State :=
  { State.reset with
    mode := .encode, phase := .body, bpos := 14, w := 2, h := 1, c := 4, pb := some (PixelBuffer.ofBytes pb),
    sinkEnd := sinkEnd }

/-- The header step of a DECODE, these bytes in `IN`. -/
def tDecHeader (bytes : List Byte) (inEnd : SourceEnd := .eos) : State :=
  { State.reset with phase := .header, inp := Mem.ofBytesFrom 0 bytes, inEnd := inEnd }

/-- The header step of an ENCODE of one pixel of 4 channels. -/
def tEncHeader (w h : Word) (c : Byte) (pb : List Byte) (sinkEnd : SinkEnd := .never) : State :=
  { State.reset with
    mode := .encode, phase := .header, w := w, h := h, c := c, pb := some (PixelBuffer.ofBytes pb), sinkEnd := sinkEnd }

/-- The end-marker step of a DECODE of one pixel, these bytes after it. -/
def tDecTrailer (bytes : List Byte) (inEnd : SourceEnd := .eos) : State :=
  { State.reset with
    phase := .trailer, cursor := 1, bpos := 18, w := 1, h := 1, c := 3, pb := some ⟨3, Mem.ofBytesFrom 0 [10, 20, 30]⟩,
    inp := Mem.ofBytesFrom 18 bytes, inEnd := inEnd }

/-- The end-marker step of an ENCODE of one pixel. -/
def tEncTrailer (sinkEnd : SinkEnd := .never) : State :=
  { State.reset with
    mode := .encode, phase := .trailer, cursor := 1, bpos := 18, w := 1, h := 1, c := 3,
    pb := some (PixelBuffer.ofBytes [10, 20, 30]), sinkEnd := sinkEnd }

/-! ### Well-formedness (30_encoding R108, R112) -/

theorem test_wellFormed_refuses_run_62 : (Instr.run 62).wellFormed = false := by decide

theorem test_wellFormed_refuses_run_63 : (Instr.run 63).wellFormed = false := by decide

theorem test_wellFormed_accepts_run_61 : (Instr.run 61).wellFormed = true := by decide

/-! ### Decoding and encoding (30_encoding R102 to R108, 95 W1, T-D, T-C) -/

theorem test_decode_rgb : decode [0b11111110, 0x0A, 0x14, 0x1E, 0x55] = .ok (.rgb 10 20 30, [0x55]) := by decide

theorem test_decode_rgba : decode [0b11111111, 1, 2, 3, 4] = .ok (.rgba 1 2 3 4, []) := by decide

theorem test_decode_index : decode [0b00_110101] = .ok (.index 53, []) := by decide

theorem test_decode_diff : decode [0b01_01_10_11] = .ok (.diff 1 2 3, []) := by decide

theorem test_decode_luma : decode [0b10_011110, 0b1001_1010] = .ok (.luma 30 9 10, []) := by decide

theorem test_decode_run : decode [0b11_000100] = .ok (.run 4, []) := by decide

theorem test_decode_run_longest : decode [0xFD] = .ok (.run 61, []) := by decide

theorem test_decode_luma_cut_short : decode [0x80] = .error .payloadCutShort := by decide

theorem test_decode_nothing : decode [] = .error .noTag := by decide

theorem test_encode_luma : encode (.luma 30 9 10) = [0x9E, 0x9A] := by decide

theorem test_encode_run : encode (.run 61) = [0xFD] := by decide

/-- opcode_table.json numbers the first byte's bits 7..0: RGBA with red 0x55 in bits 15..8. -/
theorem test_decodeTableWord_rgba : decodeTableWord 40 0x44332255FF = some (.rgba 0x55 0x22 0x33 0x44) := by decide

theorem test_decodeTableWord_short : decodeTableWord 8 0xFE = some (.rgb 0 0 0) := by decide

/-! ### Arithmetic (95 T-H3, T-H6, T-H7; 00_scope R10) -/

theorem test_hash : pixelHash ⟨10, 20, 30, 255⟩ = 9 := by decide

theorem test_hash_white : pixelHash ⟨255, 255, 255, 255⟩ = 38 := by decide

theorem test_s8_wraps : s8 (-255) = 1 := by decide

/-! ### DECODE, one step each (95 §4) -/

/-- T-D1. -/
theorem test_dec_rgb :
    (nextOf (step (tDec [0xFE, 0x0A, 0x14, 0x1E]))).map (fun t => (t.prev, t.bpos, t.pbRead 3)) =
      some (⟨10, 20, 30, 255⟩, 18, some 255) := by decide

/-- T-D1's cache. -/
theorem test_dec_rgb_cache :
    (nextOf (exec (.rgb 10 20 30) (tDec []))).map (fun t => t.cacheAt 9) = some ⟨10, 20, 30, 255⟩ := by decide

/-- T-D2. -/
theorem test_dec_rgba :
    (nextOf (step (tDec [0xFF, 1, 2, 3, 4]))).map (fun t => (t.prev, t.cacheAt 14, t.bpos)) =
      some (⟨1, 2, 3, 4⟩, ⟨1, 2, 3, 4⟩, 19) := by decide

/-- Alpha is dropped at the store of 3 channels and kept in `PREV` (41_decoder R166). -/
theorem test_dec_rgba_three_channels :
    (nextOf (exec (.rgba 1 2 3 4) { tDec [] with c := 3, pb := some ⟨6, []⟩ })).map
      (fun t => (t.prev.a, t.pbRead 2, t.pbRead 3)) = some (4, some 3, none) := by decide

/-- T-D3: the slot of (0,0,0,255) holds (0,0,0,0) at command start. -/
theorem test_dec_index :
    (nextOf (step (tDec [0x35]))).map (fun t => (t.prev, t.cacheAt 53)) = some (⟨0, 0, 0, 0⟩, ⟨0, 0, 0, 0⟩) := by decide

/-- T-D5: -1, 0, +1. -/
theorem test_dec_diff :
    (nextOf (step (tDec [0x5B]))).map (fun t => (t.prev, t.cacheAt 57)) =
      some (⟨255, 0, 1, 255⟩, ⟨255, 0, 1, 255⟩) := by decide

/-- T-D9. -/
theorem test_dec_luma :
    (nextOf (step (tDec [0x9E, 0x9A]))).map (fun t => (t.prev, t.bpos)) = some (⟨255, 254, 0, 255⟩, 16) := by decide

/-- T-D11. -/
theorem test_dec_luma_top :
    (nextOf (step (tDec [0xBF, 0xFF]))).map (fun t => t.prev) = some ⟨38, 31, 38, 255⟩ := by decide

/-- A run past the last pixel is clamped, and the body ends (41_decoder R170, R171). -/
theorem test_dec_run_clamped :
    (nextOf (step (tDec [0xC4]))).map (fun t => (t.cursor, t.phase, t.bpos, t.pbRead 7)) =
      some (2, .trailer, 15, some 255) := by decide

/-- A run writes no cache slot (41_decoder R170). -/
theorem test_dec_run_no_cache :
    (nextOf (step (tDec [0xC0]))).map (fun t => (t.cacheAt 53, t.phase)) = some (⟨0, 0, 0, 0⟩, .body) := by decide

/-- 41_decoder R163: the payload cut short. -/
theorem test_dec_cut_short :
    (nextOf (step (tDec [0xFE, 1]))).map (fun t => (t.err, t.phase, t.bpos, t.cursor)) =
      some (.truncatedStream, .error, 16, 0) := by decide

theorem test_dec_source_silent : faultOf (step (tDec [0xFE, 1] .silent)) = some .sourceSilent := by decide

theorem test_dec_pb_out_of_range :
    faultOf (exec (.rgb 1 2 3) { tDec [] with pb := some ⟨3, []⟩ }) = some .pbOutOfRange := by decide

/-! ### ENCODE, one step each (95 §5) -/

/-- T-E29, a run to the end of the image. -/
theorem test_enc_run :
    (nextOf (step (tEnc [0, 0, 0, 255, 0, 0, 0, 255]))).map (fun t => (t.outBytes, t.cursor, t.phase)) =
      some ([0xC1], 2, .trailer) := by decide

/-- T-E2. -/
theorem test_enc_index :
    (nextOf (step (tEnc [0, 0, 0, 0, 9, 9, 9, 9]))).map (fun t => (t.outBytes, t.prev)) =
      some ([0x00], ⟨0, 0, 0, 0⟩) := by decide

/-- T-E6. -/
theorem test_enc_diff :
    (nextOf (step (tEnc [1, 1, 1, 255, 2, 2, 2, 255]))).map (fun t => (t.outBytes, t.cacheAt 4, t.cursor)) =
      some ([0x7F], ⟨1, 1, 1, 255⟩, 1) := by decide

/-- T-E19. -/
theorem test_enc_luma :
    (nextOf (step (tEnc [30, 31, 30, 255, 0, 0, 0, 255]))).map (fun t => (t.outBytes, t.prev)) =
      some ([0xBF, 0x77], ⟨30, 31, 30, 255⟩) := by decide

/-- T-E3, and T-H3's slot. -/
theorem test_enc_rgb :
    (nextOf (step (tEnc [10, 20, 30, 255, 0, 0, 0, 255]))).map (fun t => (t.outBytes, t.cacheAt 9)) =
      some ([0xFE, 0x0A, 0x14, 0x1E], ⟨10, 20, 30, 255⟩) := by decide

/-- T-E4. -/
theorem test_enc_rgba :
    (nextOf (step (tEnc [1, 2, 3, 4, 0, 0, 0, 255]))).map (fun t => (t.outBytes, t.cacheAt 14)) =
      some ([0xFF, 1, 2, 3, 4], ⟨1, 2, 3, 4⟩) := by decide

/-- 42_encoder R211: the bytes accepted before the failing one stand in `OUT`, and nothing is committed. -/
theorem test_enc_sink_fails :
    (nextOf (step (tEnc [1, 2, 3, 4, 0, 0, 0, 255] (.ioFailAt 16)))).map
      (fun t => (t.outBytes, t.err, t.phase, t.cursor, t.prev)) =
      some ([0xFF, 1], .io, .error, 0, ⟨0, 0, 0, 255⟩) := by decide

theorem test_enc_sink_silent :
    faultOf (step (tEnc [1, 2, 3, 4, 0, 0, 0, 255] (.silentAt 16))) = some .sinkSilent := by decide

theorem test_enc_pb_byte_absent : faultOf (step { tEnc [] with pb := some ⟨8, []⟩ }) = some .pbByteAbsent := by decide

/-! ### Header and end marker (95 W6; 41_decoder R172, 42_encoder R213) -/

/-- W6's second header. -/
theorem test_header_bytes :
    headerBytes 0x01020304 0x0A0B0C0D 3 1 = [0x71, 0x6F, 0x69, 0x66, 1, 2, 3, 4, 0x0A, 0x0B, 0x0C, 0x0D, 3, 1] := by
  decide

theorem test_header_parse :
    parseHeader [0x71, 0x6F, 0x69, 0x66, 1, 2, 3, 4, 0x0A, 0x0B, 0x0C, 0x0D, 3, 1] =
      some ⟨magic, 0x01020304, 0x0A0B0C0D, 3, 1⟩ := by decide

/-- W5. -/
theorem test_header_bad_magic :
    (nextOf (step (tDecHeader [0x71, 0x6F, 0x69, 0x46, 0, 0, 0, 1, 0, 0, 0, 1, 4, 0]))).map
      (fun t => (t.err.code, t.bpos, t.phase)) = some (1, 14, .error) := by decide

/-- 43_header_codec R244: `C` is 3 or 4. -/
theorem test_header_bad_channels :
    (nextOf (step (tDecHeader [0x71, 0x6F, 0x69, 0x66, 0, 0, 0, 1, 0, 0, 0, 1, 5, 0]))).map
      (fun t => (t.err.code, t.bpos)) = some (2, 14) := by decide

theorem test_end_marker_warns :
    (nextOf (step (tDecTrailer [0, 0, 0, 0, 0, 0, 0, 2]))).map (fun t => (t.endWarn, t.phase, t.bpos, t.err)) =
      some (true, .done, 26, .noError) := by decide

theorem test_end_marker_written :
    (nextOf (step tEncTrailer)).map (fun t => (t.outBytes, t.phase, t.bpos)) =
      some ([0, 0, 0, 0, 0, 0, 0, 1], .done, 26) := by decide

/-! ### Refusals, reset, and the host's placing of an opcode -/

theorem test_no_opcode_at_reset : refusalOf (exec (.index 0) State.reset) = some .noOpcodeStep := by decide

theorem test_not_selected :
    refusalOf (exec (.rgb 1 2 3) (tEnc [1, 2, 3, 4, 0, 0, 0, 255])) = some .notSelected := by decide

theorem test_reserved_run : refusalOf (exec (.run 62) (tDec [])) = some .reservedRunLength := by decide

theorem test_idle_engine_waits : nextOf (step State.reset) = some State.reset := by decide

/-- 60_exceptions R281, R279: a running command can be abandoned, a finished one cannot. -/
theorem test_abandon :
    (tDec []).abandon.map (fun t => (t.phase, t.result)) = some (.idle, none) ∧
      { tDec [] with phase := .error }.abandon = none ∧ { tDec [] with phase := .done }.abandon = none := by decide

/-- The LUMA of T-D9 placed at reset runs in the very next step. -/
theorem test_withFetchWord :
    (nextOf (step (State.reset.withFetchWord 16 0x9A9E))).map (fun t => (t.prev, t.bpos)) =
      some (⟨255, 254, 0, 255⟩, 16) := by decide

theorem test_writes_keep_the_form :
    Mem.write (Mem.write (Mem.write [] 5 1) 3 2) 5 4 = [(3, 2), (5, 4)] ∧
      Mem.wf (Mem.write (Mem.write (Mem.write [] 5 1) 3 2) 5 4) := by decide

/-! ### Witnesses: the hypotheses of the statements, met together

A witness is named after its statement, with a clause letter where a statement has several cases. -/

theorem nextOf_any {o : Host.Outcome State Fault Refusal} {p : State → Bool} (h : (nextOf o).any p = true) :
    ∃ t, o = .next t ∧ p t = true := by
  cases o with
  | next t => exact ⟨t, rfl, h⟩
  | fault f => cases h
  | refused r => cases h

theorem witness_decodeOfEncode : (Instr.run 61).wellFormed = true := by decide

theorem witness_encodeOfDecode : decode [0xFD, 0x00] = .ok (.run 61, [0x00]) := by decide

theorem witness_onlyTooFewBytesFailToDecode_a :
    (classify 0xFF).length ≤ ([1, 2, 3, 4] : List Byte).length + 1 := by decide

theorem witness_onlyTooFewBytesFailToDecode_b :
    ([1, 2, 3] : List Byte).length + 1 < (classify 0xFF).length := by decide

theorem witness_deltasDecodeBack_diff :
    sameAlphaInstr ⟨254, 1, 0, 7⟩ ⟨0, 0, 0, 7⟩ = .diff 0 3 2 ∧ (7 : Byte) = 7 := by decide

theorem witness_deltasDecodeBack_luma :
    sameAlphaInstr ⟨24, 31, 38, 7⟩ ⟨0, 0, 0, 7⟩ = .luma 63 1 15 ∧ (7 : Byte) = 7 := by decide

theorem witness_deltasDecodeBack_rgb :
    sameAlphaInstr ⟨32, 32, 32, 7⟩ ⟨0, 0, 0, 7⟩ = .rgb 32 32 32 ∧ (7 : Byte) = 7 := by decide

theorem witness_selectionTakesTheFirstBranch_run :
    (tEnc [0, 0, 0, 255, 0, 0, 0, 255]).loadPixel 0 = some ⟨0, 0, 0, 255⟩ ∧
      (tEnc [0, 0, 0, 255, 0, 0, 0, 255]).runLength = some 2 := by decide

theorem witness_selectionTakesTheFirstBranch_index :
    (tEnc [0, 0, 0, 0, 0, 0, 0, 255]).loadPixel 0 = some ⟨0, 0, 0, 0⟩ ∧
      (⟨0, 0, 0, 0⟩ : Pixel) ≠ (tEnc [0, 0, 0, 0, 0, 0, 0, 255]).prev ∧
      (tEnc [0, 0, 0, 0, 0, 0, 0, 255]).cacheAt (pixelHash ⟨0, 0, 0, 0⟩) = ⟨0, 0, 0, 0⟩ := by decide

/-- T-E8: the lowest deltas DIFF carries. -/
theorem witness_selectionTakesTheFirstBranch_diff :
    let s := tEnc [254, 254, 254, 255, 0, 0, 0, 255]
    s.loadPixel s.cursor = some ⟨254, 254, 254, 255⟩ ∧ (⟨254, 254, 254, 255⟩ : Pixel) ≠ s.prev ∧
      s.cacheAt (pixelHash ⟨254, 254, 254, 255⟩) ≠ ⟨254, 254, 254, 255⟩ ∧ (255 : Byte) = s.prev.a ∧
      s8 ((254 : Byte).toNat - s.prev.r.toNat) = -2 ∧ s8 ((254 : Byte).toNat - s.prev.g.toNat) = -2 ∧
      s8 ((254 : Byte).toNat - s.prev.b.toNat) = -2 := by decide

/-- T-E22: the lowest red cross-delta LUMA carries. -/
theorem witness_selectionTakesTheFirstBranch_luma :
    let s := tEnc [248, 0, 0, 255, 0, 0, 0, 255]
    s.loadPixel s.cursor = some ⟨248, 0, 0, 255⟩ ∧ (⟨248, 0, 0, 255⟩ : Pixel) ≠ s.prev ∧
      s.cacheAt (pixelHash ⟨248, 0, 0, 255⟩) ≠ ⟨248, 0, 0, 255⟩ ∧ (255 : Byte) = s.prev.a ∧
      s8 ((248 : Byte).toNat - s.prev.r.toNat) = -8 ∧ s8 ((0 : Byte).toNat - s.prev.g.toNat) = 0 ∧
      s8 (s8 ((248 : Byte).toNat - s.prev.r.toNat) - s8 ((0 : Byte).toNat - s.prev.g.toNat)) = -8 := by decide

/-- T-E23: the red cross-delta below it. -/
theorem witness_selectionTakesTheFirstBranch_rgb :
    let s := tEnc [247, 0, 0, 255, 0, 0, 0, 255]
    s.loadPixel s.cursor = some ⟨247, 0, 0, 255⟩ ∧ (⟨247, 0, 0, 255⟩ : Pixel) ≠ s.prev ∧
      s.cacheAt (pixelHash ⟨247, 0, 0, 255⟩) ≠ ⟨247, 0, 0, 255⟩ ∧ (255 : Byte) = s.prev.a ∧
      s8 (s8 ((247 : Byte).toNat - s.prev.r.toNat) - s8 ((0 : Byte).toNat - s.prev.g.toNat)) = -9 := by decide

/-- T-E5: only alpha changed. -/
theorem witness_selectionTakesTheFirstBranch_rgba :
    let s := tEnc [0, 0, 0, 254, 0, 0, 0, 255]
    s.loadPixel s.cursor = some ⟨0, 0, 0, 254⟩ ∧ (⟨0, 0, 0, 254⟩ : Pixel) ≠ s.prev ∧
      s.cacheAt (pixelHash ⟨0, 0, 0, 254⟩) ≠ ⟨0, 0, 0, 254⟩ ∧ (254 : Byte) ≠ s.prev.a := by decide

theorem witness_selectionStaysInBounds_run :
    (tEnc [0, 0, 0, 255, 0, 0, 0, 255]).encSelect = some (.run 1) := by decide

theorem witness_selectionStaysInBounds_diff :
    (tEnc [254, 254, 254, 255, 0, 0, 0, 255]).encSelect = some (.diff 0 0 0) := by decide

theorem witness_selectionStaysInBounds_luma :
    (tEnc [248, 0, 0, 255, 0, 0, 0, 255]).encSelect = some (.luma 32 0 8) := by decide

theorem witness_decodeStartResets :
    let s := { State.reset with commands := [.decode [0x71] .eos] }
    s.mayIssue = true ∧ s.commands = [.decode [0x71] .eos] := by decide

theorem witness_encodeStartResets :
    let s := { State.reset with phase := .done, commands := [.encode 1 1 3 [1, 2, 3] .never] }
    s.mayIssue = true ∧ s.commands = [.encode 1 1 3 [1, 2, 3] .never] := by decide

theorem witness_commandStartForgetsThePast :
    let s := { State.reset with commands := [.decode [] .eos] }
    let u := { s with phase := .error, prev := ⟨1, 2, 3, 4⟩, cursor := 9, err := .io, out := [(0, 1)] }
    s.mayIssue = true ∧ u.mayIssue = true ∧ s.commands = u.commands ∧ s.commands ≠ [] ∧ s.params = u.params ∧
      s.draws = u.draws := by decide

theorem witness_phaseFollowsTheTable_idle :
    (nextOf (step State.reset)).map (fun t => t.phase) = some .idle ∧
      (nextOf (step { State.reset with commands := [.decode [] .eos] })).map (fun t => t.phase) = some .header := by
  decide

theorem witness_phaseFollowsTheTable_header :
    (nextOf (step (tEncHeader 1 1 3 [1, 2, 3]))).map (fun t => t.phase) = some .body ∧
      (nextOf (step (tEncHeader 1 1 5 [1, 2, 3]))).map (fun t => t.phase) = some .error := by decide

theorem witness_phaseFollowsTheTable_body :
    (nextOf (step (tDec [0xC0]))).map (fun t => t.phase) = some .body ∧
      (nextOf (step (tDec [0xC1]))).map (fun t => t.phase) = some .trailer ∧
      (nextOf (step (tDec []))).map (fun t => t.phase) = some .error := by decide

theorem witness_phaseFollowsTheTable_trailer :
    (nextOf (step (tDecTrailer []))).map (fun t => t.phase) = some .done ∧
      (nextOf (step (tDecTrailer [] .ioFail))).map (fun t => t.phase) = some .error := by decide

theorem witness_phaseFollowsTheTable_done :
    (nextOf (step { State.reset with phase := .done })).map (fun t => t.phase) = some .done ∧
      (nextOf (step { State.reset with phase := .done, commands := [.decode [] .eos] })).map (fun t => t.phase) =
        some .header := by decide

theorem witness_phaseFollowsTheTable_error :
    (nextOf (step { State.reset with phase := .error })).map (fun t => t.phase) = some .error ∧
      (nextOf (step { State.reset with phase := .error, commands := [.decode [] .eos] })).map (fun t => t.phase) =
        some .header := by decide

theorem witness_noOpcodeStepOutsideTheLoop :
    (Instr.index 0).wellFormed = true ∧ ¬({ tDec [] with cursor := 2 }.phase = .body ∧
      { tDec [] with cursor := 2 }.cursor < { tDec [] with cursor := 2 }.n) := by decide

theorem witness_reservedRunIsRefused : 62 ≤ (62 : BitVec 6).toNat ∧ 62 ≤ (63 : BitVec 6).toNat := by decide

theorem witness_encoderRefusesWhatItDidNotSelect :
    let s := tEnc [0, 0, 0, 255, 0, 0, 0, 255]
    (Instr.run 0).wellFormed = true ∧ s.mode = .encode ∧ s.phase = .body ∧ s.cursor < s.n ∧
      s.encSelect = some (.run 1) ∧ Instr.run 1 ≠ Instr.run 0 := by decide

theorem witness_stepRunsTheDecodedOpcode :
    let s := tDec [0xFE, 0x0A, 0x14, 0x1E]
    (Instr.rgb 10 20 30).wellFormed = true ∧ s.mode = .decode ∧ s.phase = .body ∧ s.cursor < s.n ∧
      ∀ j, j < (encode (.rgb 10 20 30)).length → Mem.read s.inp (s.bpos + j) = (encode (.rgb 10 20 30))[j]? := by
  decide

theorem witness_stepRunsTheSelectedOpcode :
    let s := tEnc [0, 0, 0, 255, 0, 0, 0, 255]
    s.mode = .encode ∧ s.phase = .body ∧ s.cursor < s.n ∧ s.encSelect = some (.run 1) := by decide

/-- For the six statements about an opcode step of DECODE, with 4 and with 3 channels, RUN's field at its top. -/
theorem witness_decodeDue :
    (tDec []).DecodeDue ∧ { tDec [] with c := 3, pb := some ⟨6, []⟩, cursor := 1 }.DecodeDue ∧
      (61 : BitVec 6).toNat < 62 := by
  unfold State.DecodeDue State.DimsOk; decide

theorem witness_cutShortOpcodeChangesNothing_tag :
    let s := tDec [] .ioFail
    s.mode = .decode ∧ s.phase = .body ∧ s.cursor < s.n ∧ Mem.read s.inp (s.bpos + 0) = none ∧ s.inEnd = .ioFail := by
  decide

theorem witness_cutShortOpcodeChangesNothing_payload :
    let s := tDec [0xFF, 1, 2, 3]
    s.mode = .decode ∧ s.phase = .body ∧ s.cursor < s.n ∧
      (∀ j, j < 4 → (Mem.read s.inp (s.bpos + j)).isSome = true) ∧ Mem.read s.inp (s.bpos + 4) = none ∧
      Mem.read s.inp s.bpos = some 0xFF ∧ 4 < (classify 0xFF).length ∧ s.inEnd = .eos := by decide

theorem witness_cutShortOpcodeChangesNothing_silent :
    let s := tDec [0x80] .silent
    s.mode = .decode ∧ s.phase = .body ∧ s.cursor < s.n ∧
      (∀ j, j < 1 → (Mem.read s.inp (s.bpos + j)).isSome = true) ∧ Mem.read s.inp (s.bpos + 1) = none ∧
      Mem.read s.inp s.bpos = some 0x80 ∧ 1 < (classify 0x80).length ∧ s.inEnd = .silent := by decide

theorem tDec_inv (bytes : List Byte) (e : SourceEnd) : (tDec bytes e).Inv := by
  constructor
  · show State.DimsOk _ ∧ _
    unfold State.DimsOk
    exact ⟨⟨show (2 : Word) ≠ 0 by decide, show (1 : Word) ≠ 0 by decide, .inr rfl, rfl⟩, show 0 < 2 by decide,
      show 14 ≤ 14 by decide, rfl, rfl⟩
  · intro a
    have h : (tDec bytes e).pbRead a = none := by
      show (if a < 8 then none else none) = none
      split <;> rfl
    rw [h, show (tDec bytes e).cursor * (tDec bytes e).channels = 0 from rfl]
    rfl

theorem witness_truncationReturnsThePartialImage :
    (tDec [0xFE, 1]).Inv ∧ (tDec [0xFE, 1]).phase = .body ∧
      ∃ t, step (tDec [0xFE, 1]) = .next t ∧ decide (t.err = .truncatedStream) = true :=
  ⟨tDec_inv _ _, rfl, nextOf_any (by decide)⟩

theorem witness_encodeRunEmitsTheLongestRun_end :
    let s := tEnc [0, 0, 0, 255, 0, 0, 0, 255]
    s.EncodeDue s.prev 1 ∧ 2 ≤ 62 ∧ s.cursor + 2 ≤ s.n ∧
      (∀ j, j < 2 → s.loadPixel (s.cursor + j) = some s.prev) ∧ s.cursor + 2 = s.n := by
  unfold State.EncodeDue; decide

theorem witness_encodeRunEmitsTheLongestRun_differs :
    let s := tEnc [0, 0, 0, 255, 0, 0, 0, 0]
    s.EncodeDue s.prev 1 ∧ s.cursor + 1 ≤ s.n ∧ (∀ j, j < 1 → s.loadPixel (s.cursor + j) = some s.prev) ∧
      s.loadPixel (s.cursor + 1) = some ⟨0, 0, 0, 0⟩ ∧ (⟨0, 0, 0, 0⟩ : Pixel) ≠ s.prev := by
  unfold State.EncodeDue; decide

/-- T-E32: the cap. -/
theorem witness_encodeRunEmitsTheLongestRun_cap :
    let s := { tEnc (List.replicate 189 0) with w := 63, c := 3 }
    s.EncodeDue s.prev 1 ∧ s.cursor + 62 ≤ s.n ∧ (∀ j, j < 62 → s.loadPixel (s.cursor + j) = some s.prev) := by
  unfold State.EncodeDue; decide +kernel

theorem witness_encodeIndexEmitsTheSlot :
    let s := tEnc [0, 0, 0, 0, 0, 0, 0, 255]
    s.EncodeDue ⟨0, 0, 0, 0⟩ 1 ∧ (⟨0, 0, 0, 0⟩ : Pixel) ≠ s.prev ∧
      s.cacheAt (pixelHash ⟨0, 0, 0, 0⟩) = ⟨0, 0, 0, 0⟩ := by
  unfold State.EncodeDue; decide

/-- T-E9. -/
theorem witness_encodeDiffEmitsTheDeltas :
    let s := tEnc [1, 0, 255, 255, 0, 0, 0, 255]
    let px : Pixel := ⟨1, 0, 255, 255⟩
    s.EncodeDue px 1 ∧ px ≠ s.prev ∧ s.cacheAt (pixelHash px) ≠ px ∧ px.a = s.prev.a ∧
      s8 ((px.r.toNat : Int) - (s.prev.r.toNat : Int)) = 1 ∧ s8 ((px.g.toNat : Int) - (s.prev.g.toNat : Int)) = 0 ∧
      s8 ((px.b.toNat : Int) - (s.prev.b.toNat : Int)) = -1 := by
  unfold State.EncodeDue; decide

/-- T-E17. -/
theorem witness_encodeLumaEmitsTheDeltas :
    let s := tEnc [224, 224, 224, 255, 0, 0, 0, 255]
    let px : Pixel := ⟨224, 224, 224, 255⟩
    let dr := s8 ((px.r.toNat : Int) - (s.prev.r.toNat : Int))
    let dg := s8 ((px.g.toNat : Int) - (s.prev.g.toNat : Int))
    s.EncodeDue px 2 ∧ px ≠ s.prev ∧ s.cacheAt (pixelHash px) ≠ px ∧ px.a = s.prev.a ∧ ¬(-2 ≤ dr ∧ dr ≤ 1) ∧
      dg = -32 ∧ s8 (dr - dg) = 0 ∧ s8 (s8 ((px.b.toNat : Int) - (s.prev.b.toNat : Int)) - dg) = 0 := by
  unfold State.EncodeDue; decide

/-- T-E18. -/
theorem witness_encodeRgbEmitsTheChannels :
    let s := tEnc [223, 223, 223, 255, 0, 0, 0, 255]
    let px : Pixel := ⟨223, 223, 223, 255⟩
    s.EncodeDue px 4 ∧ px ≠ s.prev ∧ s.cacheAt (pixelHash px) ≠ px ∧ px.a = s.prev.a ∧
      s8 ((px.g.toNat : Int) - (s.prev.g.toNat : Int)) = -33 := by
  unfold State.EncodeDue; decide

theorem witness_encodeRgbaEmitsTheChannels :
    let s := tEnc [0, 0, 0, 254, 0, 0, 0, 255]
    let px : Pixel := ⟨0, 0, 0, 254⟩
    s.EncodeDue px 5 ∧ px ≠ s.prev ∧ s.cacheAt (pixelHash px) ≠ px ∧ px.a ≠ s.prev.a := by
  unfold State.EncodeDue; decide

theorem witness_failedEmissionCommitsNothing :
    let s := tEnc [1, 2, 3, 4, 0, 0, 0, 255] (.ioFailAt 18)
    s.mode = .encode ∧ s.phase = .body ∧ s.cursor < s.n ∧ s.encSelect = some (.rgba 1 2 3 4) ∧
      4 < (encode (.rgba 1 2 3 4)).length ∧ (∀ j, j < 4 → s.sinkEnd.answer (s.bpos + j) = .ok) ∧
      s.sinkEnd.answer (s.bpos + 4) = .ioFail := by decide

theorem witness_anyPixelOpcodeLeavesTheSameState :
    (tEnc [0, 0, 0, 0, 9, 9, 9, 9]).mode = .encode ∧ (Instr.index 0).opcode ≠ .run ∧
      ∃ t, exec (.index 0) (tEnc [0, 0, 0, 0, 9, 9, 9, 9]) = .next t ∧ decide (t.phase ≠ .error) = true :=
  ⟨rfl, by decide, nextOf_any (by decide)⟩

theorem witness_headerRoundTrip :
    let s := tDecHeader (headerBytes 0xFFFFFFFF 1 4 9)
    s.phase = .header ∧ s.mode = .decode ∧ (0xFFFFFFFF : Word) ≠ 0 ∧ (1 : Word) ≠ 0 ∧ (4 : Byte) = 4 ∧
      Params.admits s.params ((0xFFFFFFFF : Word).toNat * (1 : Word).toNat) = true ∧
      ∀ j, j < 14 → Mem.read s.inp (s.bpos + j) = (headerBytes 0xFFFFFFFF 1 4 9)[j]? := by decide

theorem witness_decodeHeaderChecksInOrder_magic :
    let s := tDecHeader [0x71, 0x6F, 0x69, 0x46, 0, 0, 0, 0, 0, 0, 0, 1, 4, 0]
    s.phase = .header ∧ s.mode = .decode ∧ (0x46 : Byte) ≠ 0x66 ∧
      ∀ j, j < 14 → Mem.read s.inp (s.bpos + j) =
        ([0x71, 0x6F, 0x69, 0x46, 0, 0, 0, 0, 0, 0, 0, 1, 4, 0] : List Byte)[j]? := by decide

theorem witness_decodeHeaderChecksInOrder_dimensions :
    let s := tDecHeader [0x71, 0x6F, 0x69, 0x66, 0, 0, 0, 0, 0, 0, 0, 1, 4, 0]
    s.phase = .header ∧ s.mode = .decode ∧
      ∀ j, j < 14 → Mem.read s.inp (s.bpos + j) =
        ([0x71, 0x6F, 0x69, 0x66, 0, 0, 0, 0, 0, 0, 0, 1, 4, 0] : List Byte)[j]? := by decide

/-- `W*H` equal to `MAX_PIXELS` is admitted. -/
theorem witness_decodeHeaderChecksInOrder_ok :
    let s := { tDecHeader [0x71, 0x6F, 0x69, 0x66, 0, 0, 0, 2, 0, 0, 0, 3, 3, 0] with params := ⟨0, some 6⟩ }
    s.phase = .header ∧ s.mode = .decode ∧ s.params.maxPixels = some 6 ∧ 2 * 3 ≤ 6 ∧
      ∀ j, j < 14 → Mem.read s.inp (s.bpos + j) =
        ([0x71, 0x6F, 0x69, 0x66, 0, 0, 0, 2, 0, 0, 0, 3, 3, 0] : List Byte)[j]? := by decide

theorem witness_shortHeaderIsAFormatError :
    ∀ e : SourceEnd, let s := tDecHeader [0x71, 0x6F, 0x69, 0x66, 0, 0, 0, 2, 0, 0, 0, 3, 3] e
      s.phase = .header ∧ s.mode = .decode ∧ (∀ j, j < 13 → (Mem.read s.inp (s.bpos + j)).isSome = true) ∧
        Mem.read s.inp (s.bpos + 13) = none ∧ s.inEnd = e := by
  intro e; cases e <;> decide

theorem witness_encodeValidatesBeforeWriting_channels :
    let s := tEncHeader 1 1 5 [1, 2, 3, 4, 5]
    s.phase = .header ∧ s.mode = .encode ∧ ¬(s.c = 3 ∨ s.c = 4) := by decide

theorem witness_encodeValidatesBeforeWriting_zero :
    (tEncHeader 0 1 3 []).w = 0 ∧ (tEncHeader 1 0 3 []).h = 0 ∧ (tEncHeader 0 1 3 []).phase = .header ∧
      (tEncHeader 1 0 3 []).mode = .encode := by decide

theorem witness_encodeValidatesBeforeWriting_size :
    let s := tEncHeader 1 1 4 [1, 2, 3]
    s.phase = .header ∧ s.mode = .encode ∧ s.pbSize ≠ some (s.w.toNat * s.h.toNat * s.c.toNat) := by decide

theorem witness_encodeValidatesBeforeWriting_limit :
    let s := { tEncHeader 1 1 3 [1, 2, 3] with params := ⟨0, some 0⟩ }
    s.phase = .header ∧ s.mode = .encode ∧ s.params.maxPixels = some 0 ∧ 0 < s.w.toNat * s.h.toNat := by decide

theorem witness_encodeWritesTheHeader :
    let s := { tEncHeader 1 1 3 [1, 2, 3] (.ioFailAt 14) with params := ⟨1, some 1⟩ }
    s.phase = .header ∧ s.mode = .encode ∧ s.c = 3 ∧ s.w ≠ 0 ∧ s.h ≠ 0 ∧
      s.pbSize = some (s.w.toNat * s.h.toNat * s.c.toNat) ∧ s.params.maxPixels = some 1 ∧
      s.w.toNat * s.h.toNat ≤ 1 ∧ ∀ j, j < 14 → s.sinkEnd.answer (s.bpos + j) = .ok := by decide

theorem witness_encodeWritesTheHeader_fails :
    let s := tEncHeader 1 1 3 [1, 2, 3] (.ioFailAt 13)
    s.phase = .header ∧ s.mode = .encode ∧ s.c = 3 ∧ s.w ≠ 0 ∧ s.h ≠ 0 ∧
      s.pbSize = some (s.w.toNat * s.h.toNat * s.c.toNat) ∧ s.params.maxPixels = none ∧
      (∀ j, j < 13 → s.sinkEnd.answer (s.bpos + j) = .ok) ∧ s.sinkEnd.answer (s.bpos + 13) = .ioFail := by decide

theorem witness_decodeChecksTheEndMarker_whole :
    let s := tDecTrailer [0, 0, 0, 0, 0, 0, 0, 1]
    s.phase = .trailer ∧ s.mode = .decode ∧
      ∀ j, j < 8 → Mem.read s.inp (s.bpos + j) = some (if j < 7 then 0x00 else 0x01) := by decide

theorem witness_decodeChecksTheEndMarker_mismatch :
    let s := tDecTrailer [0, 0, 0, 0, 0, 0, 0, 0]
    s.phase = .trailer ∧ s.mode = .decode ∧
      (∀ j, j < 7 → Mem.read s.inp (s.bpos + j) = some (if j < 7 then 0x00 else 0x01)) ∧
      Mem.read s.inp (s.bpos + 7) = some 0 ∧ (0 : Byte) ≠ (if 7 < 7 then 0x00 else 0x01) := by decide

theorem witness_decodeChecksTheEndMarker_noByte :
    ∀ e : SourceEnd, let s := tDecTrailer [0, 0, 0, 0, 0, 0, 0] e
      s.phase = .trailer ∧ s.mode = .decode ∧
        (∀ j, j < 7 → Mem.read s.inp (s.bpos + j) = some (if j < 7 then 0x00 else 0x01)) ∧
        Mem.read s.inp (s.bpos + 7) = none ∧ s.inEnd = e := by
  intro e; cases e <;> decide

theorem witness_encodeWritesTheEndMarker :
    let s := tEncTrailer (.ioFailAt 26)
    s.phase = .trailer ∧ s.mode = .encode ∧ ∀ j, j < 8 → s.sinkEnd.answer (s.bpos + j) = .ok := by decide

theorem witness_encodeWritesTheEndMarker_fails :
    let s := tEncTrailer (.ioFailAt 25)
    s.phase = .trailer ∧ s.mode = .encode ∧ (∀ j, j < 7 → s.sinkEnd.answer (s.bpos + j) = .ok) ∧
      s.sinkEnd.answer (s.bpos + 7) = .ioFail := by decide

theorem witness_stepKeepsTheInvariant :
    (tDec [0xC0]).Inv ∧ ∃ t, step (tDec [0xC0]) = .next t ∧ decide (t.cursor = 1) = true :=
  ⟨tDec_inv _ _, nextOf_any (by decide)⟩

theorem witness_stepKeepsTheMemoryForm :
    (tEnc [1, 2, 3, 4, 0, 0, 0, 255]).MemWf ∧
      ∃ t, step (tEnc [1, 2, 3, 4, 0, 0, 0, 255]) = .next t ∧ decide (t.bpos = 19) = true := by
  refine ⟨⟨List.Pairwise.nil, List.Pairwise.nil, fun pb h => ?_⟩, nextOf_any (by decide)⟩
  cases h
  exact Mem.ofBytesFrom_wf _ _

theorem witness_stepKeepsTheCacheInvariant :
    (tDec [0x5B]).CacheOk ∧ ∃ t, step (tDec [0x5B]) = .next t ∧ decide (t.cursor = 1) = true :=
  ⟨by unfold State.CacheOk; decide, nextOf_any (by decide)⟩

theorem witness_threeChannelsNeverNeedRgba_a :
    let s := tEncHeader 1 1 3 [1, 2, 3]
    s.LoopOk ∧ s.OpaqueWhenRgb ∧ ∃ t, step s = .next t ∧ decide (t.phase = .body) = true := by
  refine ⟨⟨rfl, rfl, rfl, rfl, rfl, by decide⟩, fun h => ?_, nextOf_any (by decide)⟩
  cases h

theorem witness_threeChannelsNeverNeedRgba_b :
    let s := { tEnc [10, 20, 30, 0, 0, 0] with c := 3 }
    s.c = 3 ∧ s.prev.a = 255 ∧ s.encSelect = some (.rgb 10 20 30) := by decide

theorem witness_stepKeepsTheLengthBounds :
    let s := tEnc [1, 2, 3, 4, 0, 0, 0, 255]
    s.LoopOk ∧ s.OpaqueWhenRgb ∧ s.LengthOk ∧ ∃ t, step s = .next t ∧ decide (t.bpos = 19) = true := by
  refine ⟨?_, fun _ _ h => absurd h (by decide), ?_, nextOf_any (by decide)⟩
  · show State.DimsOk _ ∧ _
    unfold State.DimsOk
    exact ⟨⟨by decide, by decide, .inr rfl, rfl⟩, by decide, by decide, rfl, rfl⟩
  · show _ ≤ _ ∧ _ ≤ _
    decide

theorem witness_commandLeavesItsInputsAlone :
    (tDec [0xC0]).mayIssue = false ∧ (∃ t, step (tDec [0xC0]) = .next t ∧ decide (t.cursor = 1) = true) ∧
      tEncTrailer.mayIssue = false ∧ ∃ t, step tEncTrailer = .next t ∧ decide (t.phase = .done) = true :=
  ⟨by decide, nextOf_any (by decide), by decide, nextOf_any (by decide)⟩

theorem witness_cursorsOnlyMoveForward :
    (tDec [0xC1]).mayIssue = false ∧ (∃ t, step (tDec [0xC1]) = .next t ∧ decide (t.cursor = 2) = true) ∧
      ∃ t, exec (.run 1) (tDec []) = .next t ∧ decide (t.phase ≠ .error) = true :=
  ⟨by decide, nextOf_any (by decide), nextOf_any (by decide)⟩

theorem witness_warningComesOnlyFromTheEndMarker :
    (tDecTrailer [7]).mayIssue = false ∧
      ∃ t, step (tDecTrailer [7]) = .next t ∧ decide (t.endWarn ≠ (tDecTrailer [7]).endWarn) = true :=
  ⟨by decide, nextOf_any (by decide)⟩

theorem witness_errorsEndTheCommand_io :
    (tDec [] .ioFail).mayIssue = false ∧
      ∃ t, step (tDec [] .ioFail) = .next t ∧ decide (t.phase = .error ∧ t.err = .io) = true :=
  ⟨by decide, nextOf_any (by decide)⟩

theorem witness_errorsEndTheCommand_format :
    (tDecHeader []).mayIssue = false ∧
      ∃ t, step (tDecHeader []) = .next t ∧ decide (t.phase = .error ∧ t.err = .format) = true :=
  ⟨by decide, nextOf_any (by decide)⟩

theorem witness_errorsEndTheCommand_invalidDimensions :
    (tEncHeader 0 0 3 []).mayIssue = false ∧
      ∃ t, step (tEncHeader 0 0 3 []) = .next t ∧ decide (t.phase = .error ∧ t.err = .invalidDimensions) = true :=
  ⟨by decide, nextOf_any (by decide)⟩

theorem witness_errorsEndTheCommand_truncatedStream :
    (tDec [0x80]).mayIssue = false ∧
      ∃ t, step (tDec [0x80]) = .next t ∧ decide (t.phase = .error ∧ t.err = .truncatedStream) = true :=
  ⟨by decide, nextOf_any (by decide)⟩

theorem witness_onlyARaiseWritesErr :
    (tDec [0xC0]).mayIssue = false ∧ ∃ t, step (tDec [0xC0]) = .next t ∧ decide (t.phase ≠ .error) = true :=
  ⟨by decide, nextOf_any (by decide)⟩

theorem witness_colorspaceHasNoEffect : (tDec [0xC0]).phase = .body ∧ (tDecTrailer []).phase = .trailer := by decide

theorem witness_noPixelPastTheEndIsRead :
    let s := tEnc [1, 1, 1, 255, 2, 2, 2, 255]
    let q := some (PixelBuffer.ofBytes [1, 1, 1, 255, 2, 2, 2, 255, 9, 9])
    s.cursor < s.n ∧ ∀ i, i < s.n → { s with pb := q }.loadPixel i = s.loadPixel i := by decide

theorem witness_everyInputHasANextState : (tDec [0xFE]).Inv ∧ (tDec [0xFE]).peerAnswers = true :=
  ⟨tDec_inv _ _, by decide⟩

theorem witness_encoderAndDecoderStayInLockstep :
    let e := tEnc [10, 20, 30, 255, 0, 0, 0, 255]
    let d := tDec [0xFE, 0x0A, 0x14, 0x1E]
    (∃ e', step e = .next e' ∧
      decide (e'.phase ≠ .error ∧ d.inp = e'.out) = true) ∧
      d.DecodeDue ∧ e.mode = .encode ∧ e.phase = .body ∧ e.cursor < e.n ∧ d.prev = e.prev ∧ d.cache = e.cache ∧
      d.cursor = e.cursor ∧ d.bpos = e.bpos ∧ d.w = e.w ∧ d.h = e.h ∧ d.c = e.c := by
  refine ⟨nextOf_any (by decide), ?_, by decide⟩
  unfold State.DecodeDue State.DimsOk; decide

theorem witness_commandEndsWithinItsBound :
    let s := tDecHeader []
    s.Inv ∧ s.phase = .header ∧ s.peerAnswers = true :=
  ⟨⟨⟨rfl, rfl, rfl, rfl, rfl, by decide⟩, rfl⟩, rfl, by decide⟩

theorem witness_everyImageRoundTrips_encode :
    let s := { State.reset with commands := [.encode 2 1 3 [1, 2, 3, 4, 5, 6] .never] }
    s.mayIssue = true ∧ s.commands = [.encode 2 1 3 [1, 2, 3, 4, 5, 6] .never] ∧ (2 : Word) ≠ 0 ∧ (1 : Word) ≠ 0 ∧
      ([1, 2, 3, 4, 5, 6] : List Byte).length = (2 : Word).toNat * (1 : Word).toNat * (3 : Byte).toNat ∧
      Params.admits s.params ((2 : Word).toNat * (1 : Word).toNat) = true := by decide

theorem witness_everyImageRoundTrips_decode (t : State) :
    let u := { State.reset with commands := [.decode t.outBytes .eos] }
    u.mayIssue = true ∧ u.commands = [.decode t.outBytes .eos] ∧ u.params = State.reset.params :=
  ⟨rfl, rfl, rfl⟩

theorem witness_hostSeesOnlyResults :
    { tEncTrailer with phase := .done }.mode = .encode ∧ { tDecTrailer [] with phase := .error }.mode = .decode ∧
      { tDecTrailer [] with phase := .done }.pb = some ⟨3, Mem.ofBytesFrom 0 [10, 20, 30]⟩ ∧
      (tDecHeader []).pb = none ∧ (tDecHeader []).phase = .header ∧ (tDec []).phase = .body ∧
      tEncTrailer.phase = .trailer ∧ State.reset.phase = .idle := by decide

end Sys2Proof.Machine
end

section
/-! SUPPORT. What a step of a running command leaves: the fields of an emission and of a latched header, what every
opcode step advances, and the ends of a step in HEADER, BODY or TRAILER (10_state R33). -/

namespace Sys2Proof.Machine

/-! ### The fields of an emission and of a latched header -/

section Fields

variable (s : State) (bs : List Byte) (hd : Header)

@[simp] theorem State.sentAs_cursor : (s.sentAs bs).cursor = s.cursor := rfl
@[simp] theorem State.sentAs_bpos : (s.sentAs bs).bpos = s.bpos + bs.length := rfl

@[simp] theorem State.latchHeader_mode : (s.latchHeader hd).mode = s.mode := rfl
@[simp] theorem State.latchHeader_cursor : (s.latchHeader hd).cursor = s.cursor := rfl
@[simp] theorem State.latchHeader_bpos : (s.latchHeader hd).bpos = s.bpos := rfl
@[simp] theorem State.latchHeader_n : (s.latchHeader hd).n = hd.w.toNat * hd.h.toNat := rfl

/-- A pixel buffer that has just been allocated holds no value (43_header_codec R245). -/
@[simp] theorem State.latchHeader_pbRead (a : Nat) : (s.latchHeader hd).pbRead a = none := by
  simp [State.pbRead, State.latchHeader]

end Fields

/-! ### The fields no opcode step writes -/

section Keeps

variable {s t : State} (h : s.KeepsCommand t)
include h

theorem State.KeepsCommand.mode : t.mode = s.mode := h.1

theorem State.KeepsCommand.n : t.n = s.n := by
  obtain ⟨-, hw, hh, -⟩ := h
  unfold State.n; rw [hw, hh]

theorem State.KeepsCommand.c : t.c = s.c := by
  obtain ⟨-, -, -, hc, -⟩ := h
  exact hc

theorem State.KeepsCommand.channels : t.channels = s.channels := congrArg BitVec.toNat h.c

theorem State.KeepsCommand.err : t.err = s.err := by
  obtain ⟨-, -, -, -, -, he, -⟩ := h
  exact he

theorem State.KeepsCommand.endWarn : t.endWarn = s.endWarn := by
  obtain ⟨-, -, -, -, -, -, hw, -⟩ := h
  exact hw

theorem State.KeepsCommand.dimsOk (hsize : t.pbSize = s.pbSize) (hd : s.DimsOk) : t.DimsOk := by
  obtain ⟨-, hw, hh, -⟩ := id h
  unfold State.DimsOk
  rw [hw, hh, h.c, hsize, h.n, h.channels]
  exact hd

end Keeps

/-! ### What an opcode step advances, in any state -/

/-- An opcode step that consumed `m` pixels: the cursors and the phase it leaves, and the fields it keeps. -/
structure OpcodeAdvance (s t : State) (m : Nat) : Prop where
  pos : 1 ≤ m
  fits : s.cursor + m ≤ s.n
  cursor : t.cursor = s.cursor + m
  bpos : s.bpos ≤ t.bpos
  phase : t.phase = s.phaseAt (s.cursor + m)
  keeps : s.KeepsCommand t

theorem OpcodeAdvance.of_endBody {s q : State} {len m : Nat} (hp : s.phase = .body) (hqp : q.phase = s.phase)
    (hqc : q.cursor = s.cursor) (hqb : q.bpos = s.bpos) (hk : s.KeepsCommand q) (h1 : 1 ≤ m)
    (h2 : s.cursor + m ≤ s.n) : OpcodeAdvance s (q.advance len m).endBody m where
  pos := h1
  fits := h2
  cursor := by simp [hqc]
  bpos := by simp [hqb]
  phase := by
    rw [State.endBody_phaseAt (k := s.cursor + m) (by simpa using hqp.trans hp) (by simp [hqc])]
    exact State.phaseAt_congr (by simpa using hk.n) _
  keeps := by simpa [State.KeepsCommand] using hk

theorem State.Emitted.opcodeAdvance {s t : State} {bs : List Byte} {m : Nat} (h : s.Emitted t bs m) (h1 : 1 ≤ m)
    (h2 : s.cursor + m ≤ s.n) : OpcodeAdvance s t m := by
  obtain ⟨hb, hc, hp, -, -, -, hk⟩ := h
  exact ⟨h1, h2, hc, by omega, hp, hk⟩

/-- The choice for a pixel that differs from `PREV` is no RUN (42_encoder R201). -/
theorem State.selectFor_ne_run (s : State) (px : Pixel) (l : BitVec 6) : s.selectFor px ≠ .run l := by
  rcases s.selectFor_cases px with ⟨-, h⟩ | ⟨-, -, h⟩ | ⟨-, -, h⟩ <;> rw [h]
  · exact Instr.noConfusion
  · unfold sameAlphaInstr diffInstr lumaInstr
    dsimp only
    split
    · exact Instr.noConfusion
    · split <;> exact Instr.noConfusion
  · exact Instr.noConfusion

/-- A RUN the encoder chooses stays inside the image (42_encoder R205). -/
theorem State.encSelect_run_fits {s : State} {l : BitVec 6} (h : s.encSelect = some (.run l)) (hc : s.cursor < s.n) :
    s.cursor + runCount l ≤ s.n := by
  obtain ⟨px, hl, ⟨rfl, r, hr, hi⟩ | ⟨-, hi⟩⟩ := State.encSelect_cases h
  · obtain ⟨h1, h62, hfit, -⟩ := State.runLength_spec hr hl
    cases hi
    rw [(runCount_storeRun h1 h62).1]
    exact hfit hc
  · exact absurd hi.symm (s.selectFor_ne_run px l)

theorem runCount_pos (l : BitVec 6) : 1 ≤ runCount l := by unfold runCount; omega

/-- An ENCODE opcode step that answers a next state: its bytes emitted and committed, or IOError after some of them
(42_encoder R211). -/
theorem exec_encode_next {i : Instr} {s t : State} (h : exec i s = .next t) (hm : s.mode = .encode) :
    (∃ m, 1 ≤ m ∧ s.cursor + m ≤ s.n ∧ s.Emitted t (encode i) m) ∨
      ∃ bs, t = (s.sentAs bs).raise .io := by
  obtain ⟨hp, hc, -, hx⟩ := exec_next h
  cases hx with
  | decodePixel hd => rw [hm] at hd; cases hd
  | decodeRun hd => rw [hm] at hd; cases hd
  | encodePixel _ wc px _ _ h =>
    rcases State.emitThen_next h with rfl | ⟨k, -, -, rfl⟩
    · exact .inl ⟨1, le_refl _, hc, (State.encCommit_sent hp _ px wc).2.2⟩
    · exact .inr ⟨_, rfl⟩
  | encodeRun _ l hi hsel h =>
    subst hi
    rcases State.emitThen_next h with rfl | ⟨k, -, -, rfl⟩
    · exact .inl ⟨runCount l, runCount_pos l, State.encSelect_run_fits hsel hc, (State.encRunCommit_sent hp _ _).2.2⟩
    · exact .inr ⟨_, rfl⟩

/-- A RUN of DECODE, clamped to the pixels left, is of at least one pixel and stays inside the image
(41_decoder R170). -/
theorem clampedRun_bounds {s : State} (l : BitVec 6) (hc : s.cursor < s.n) :
    1 ≤ min (runCount l) (s.n - s.cursor) ∧ s.cursor + min (runCount l) (s.n - s.cursor) ≤ s.n := by
  have := runCount_pos l
  omega

/-- A DECODE opcode step that answers a next state, in any state. -/
theorem exec_decode_next {i : Instr} {s t : State} (h : exec i s = .next t) (hm : s.mode = .decode) :
    ∃ m, OpcodeAdvance s t m := by
  obtain ⟨hp, hc, -, hx⟩ := exec_next h
  cases hx with
  | decodePixel _ wc px h =>
    obtain ⟨u, hu, rfl⟩ := State.decPixel_next h
    obtain ⟨k, bytes, -, -, rfl⟩ := State.storePixel_eq_some hu
    exact ⟨1, .of_endBody hp (by simp) (by simp) (by simp) (by simp [State.KeepsCommand]) (le_refl _) hc⟩
  | decodeRun _ l hi h =>
    obtain ⟨u, hu, rfl⟩ := State.decRun_next h
    obtain ⟨h1, h2⟩ := clampedRun_bounds l hc
    obtain ⟨rfl | ⟨q, rfl⟩, -⟩ := State.storePixels_eq_some hu
    · exact ⟨_, .of_endBody hp rfl rfl rfl (by simp [State.KeepsCommand]) h1 h2⟩
    · exact ⟨_, .of_endBody hp rfl rfl rfl (by simp [State.KeepsCommand]) h1 h2⟩
  | encodePixel he => rw [hm] at he; cases he
  | encodeRun he => rw [hm] at he; cases he

/-- A DECODE opcode step, where it is due: the pixels it stored (41_decoder R164, R170). -/
theorem exec_decode_produced {i : Instr} {s t : State} (h : exec i s = .next t) (hdue : s.DecodeDue) :
    ∃ m p, s.Produced t i.length m p := by
  obtain ⟨-, hc, -, hx⟩ := exec_next h
  obtain ⟨hm, -⟩ := id hdue
  cases hx with
  | decodePixel _ wc px h =>
    obtain ⟨t', ht', -, -, hP⟩ := State.decPixel_of_due hdue i.length wc px
    cases h.symm.trans ht'
    exact ⟨1, px, hP⟩
  | decodeRun _ l hi h =>
    obtain ⟨t', ht', -, -, hP⟩ := State.decRun_of_due hdue i.length (min_le_right (runCount l) _)
    cases h.symm.trans ht'
    exact ⟨_, _, hP⟩
  | encodePixel he => rw [hm] at he; cases he
  | encodeRun he => rw [hm] at he; cases he

/-- An opcode step moves forward, or its emission fails. -/
theorem exec_advances {i : Instr} {s t : State} (h : exec i s = .next t) :
    (∃ m, OpcodeAdvance s t m) ∨ (s.mode = .encode ∧ ∃ bs, t = (s.sentAs bs).raise .io) := by
  cases hm : s.mode with
  | decode => exact .inl (exec_decode_next h hm)
  | encode =>
    rcases exec_encode_next h hm with ⟨m, h1, h2, hE⟩ | hfail
    · exact .inl ⟨m, hE.opcodeAdvance h1 h2⟩
    · exact .inr ⟨rfl, hfail⟩

/-! ### The ends of a step while a command runs -/

theorem State.mayIssue_eq_true {s : State} :
    s.mayIssue = true ↔ s.phase = .idle ∨ s.phase = .done ∨ s.phase = .error := by simp [State.mayIssue]

theorem State.mayIssue_eq_false {s : State} :
    s.mayIssue = false ↔ s.phase = .header ∨ s.phase = .body ∨ s.phase = .trailer := by
  unfold State.mayIssue
  cases s.phase <;> decide

/-- How a step of a running command ends: with an error, or with the header, an opcode, the loop or the end marker
done. -/
inductive RunNext (s t : State) : Prop where
  /-- DECODE: `k` bytes read, then an error. -/
  | readFailed (hm : s.mode = .decode) (k : Nat) (e : ErrorCode) (he : e ≠ .noError) (h : t = (s.consume k).raise e)
  /-- ENCODE: some bytes accepted, then an error. -/
  | writeFailed (hm : s.mode = .encode) (bs : List Byte) (e : ErrorCode) (he : e ≠ .noError)
      (h : t = (s.sentAs bs).raise e)
  | headerRead (hp : s.phase = .header) (hm : s.mode = .decode) (hd : Header) (hc : hd.check s.params = none)
      (h : t = (s.consume headerLength).latchHeader hd)
  | headerWritten (hp : s.phase = .header) (hm : s.mode = .encode) (hd : s.DimsOk)
      (h : t = { s.sentAs (headerBytes s.w s.h s.c s.cs) with phase := .body })
  | opcode (hp : s.phase = .body) (i : Instr) (m : Nat) (hx : exec i s = .next t) (ha : OpcodeAdvance s t m)
  /-- BODY with the loop over already (log 14). -/
  | bodyOver (hp : s.phase = .body) (hc : ¬s.cursor < s.n) (h : t = { s with phase := .trailer })
  /-- DECODE: the end marker read, or a warning in its place (41_decoder R172). -/
  | markerRead (hp : s.phase = .trailer) (hm : s.mode = .decode) (k : Nat)
      (h : t = (s.consume k).finish ∨ t = (s.consume k).warnEnd.finish)
  | markerWritten (hp : s.phase = .trailer) (hm : s.mode = .encode) (h : t = (s.sentAs endMarker).finish)

theorem RunNext.of_readStopped {s t : State} {k : Nat} {e : ErrorCode} (hm : s.mode = .decode) (he : e ≠ .noError)
    (h : s.readStopped k e = .next t) : RunNext s t := by
  rcases State.readStopped_next h with rfl | rfl
  · exact .readFailed hm k e he rfl
  · exact .readFailed hm k .io (by decide) rfl

theorem RunNext.of_decodeHeader {s t : State} (hp : s.phase = .header) (hm : s.mode = .decode)
    (h : decodeHeader s = .next t) : RunNext s t := by
  rcases decodeHeader_next h with ⟨k, e, hr, rfl⟩ | ⟨hd, e, hc, rfl⟩ | ⟨hd, -, hc, rfl⟩
  · exact .of_readStopped hm (by decide) hr
  · exact .readFailed hm _ e (Header.check_ne_noError hc) rfl
  · exact .headerRead hp hm hd hc rfl

theorem RunNext.of_encodeHeader {s t : State} (hp : s.phase = .header) (hm : s.mode = .encode)
    (h : encodeHeader s = .next t) : RunNext s t := by
  rcases encodeHeader_next h with ⟨hok, h⟩ | ⟨-, rfl⟩
  · rcases State.emitThen_next h with rfl | ⟨k, -, -, rfl⟩
    · exact .headerWritten hp hm (State.encodeOperandsOk_iff.1 hok).1 rfl
    · exact .writeFailed hm _ .io (by decide) rfl
  · exact .writeFailed hm [] .invalidDimensions (by decide) rfl

theorem RunNext.of_exec {i : Instr} {s t : State} (h : exec i s = .next t) : RunNext s t := by
  rcases exec_advances h with ⟨m, ha⟩ | ⟨hm, bs, rfl⟩
  · exact .opcode (exec_next h).1 i m h ha
  · exact .writeFailed hm bs .io (by decide) rfl

theorem RunNext.of_decodeTrailer {s t : State} (hp : s.phase = .trailer) (hm : s.mode = .decode)
    (h : decodeTrailer s = .next t) : RunNext s t := by
  obtain ⟨k, -, rfl | rfl | rfl⟩ := checkMarker_next h
  · exact .markerRead hp hm k (.inl rfl)
  · exact .markerRead hp hm k (.inr rfl)
  · exact .readFailed hm k .io (by decide) rfl

theorem RunNext.of_encodeTrailer {s t : State} (hp : s.phase = .trailer) (hm : s.mode = .encode)
    (h : encodeTrailer s = .next t) : RunNext s t := by
  rcases State.emitThen_next h with rfl | ⟨k, -, -, rfl⟩
  · exact .markerWritten hp hm rfl
  · exact .writeFailed hm _ .io (by decide) rfl

/-- Everything a step of a running command can do. -/
theorem step_running {s t : State} (hrun : s.mayIssue = false) (h : step s = .next t) : RunNext s t := by
  cases step_next h with
  | await hp => rw [State.mayIssue_eq_true.2 hp] at hrun; cases hrun
  | decodeHeader hp hm h => exact .of_decodeHeader hp hm h
  | encodeHeader hp hm h => exact .of_encodeHeader hp hm h
  | opcode i h => exact .of_exec h
  | cutShort _ hm _ k h => exact .of_readStopped hm (by decide) h
  | bodyOver hp hc h => exact .bodyOver hp hc h
  | decodeTrailer hp hm h => exact .of_decodeTrailer hp hm h
  | encodeTrailer hp hm h => exact .of_encodeTrailer hp hm h

/-! ### What a step between commands does -/

theorem step_of_mayIssue {s : State} (h : s.mayIssue = true) : step s = awaitCommand s := by
  rcases State.mayIssue_eq_true.1 h with hp | hp | hp
  · exact step_idle hp
  · exact step_done hp
  · exact step_error hp

theorem awaitCommand_cons {s : State} {cmd : Command} {rest : List Command} (h : s.commands = cmd :: rest) :
    awaitCommand s = .next (({ s with commands := rest } : State).start cmd) := by
  unfold awaitCommand; rw [h]

@[simp] theorem State.clear_cacheAt (s : State) (i : BitVec 6) : s.clear.cacheAt i = Pixel.zero := by
  simp [State.cacheAt, State.clear]

@[simp] theorem State.startDecode_cacheAt (s : State) (input : List Byte) (e : SourceEnd) (i : BitVec 6) :
    (s.startDecode input e).cacheAt i = Pixel.zero := s.clear_cacheAt i

@[simp] theorem State.startEncode_cacheAt (s : State) (w h : Word) (c : Byte) (pb : List Byte) (e : SinkEnd)
    (i : BitVec 6) : (s.startEncode w h c pb e).cacheAt i = Pixel.zero := s.clear_cacheAt i

/-- The pixel buffer of an ENCODE command start holds the operand's bytes (20_memory R73). -/
theorem State.startEncode_pbRead (s : State) (w h : Word) (c : Byte) (pb : List Byte) (e : SinkEnd) (a : Nat) :
    (s.startEncode w h c pb e).pbRead a = pb[a]? := by
  rw [State.pbRead_of_pb (k := pb.length) (m := Mem.ofBytesFrom 0 pb) rfl, Mem.read_ofBytesFrom]
  split
  · simp
  · exact (List.getElem?_eq_none (by omega)).symm

/-- A command start leaves HEADER. -/
theorem State.start_phase (s : State) (cmd : Command) : (s.start cmd).phase = .header := by
  cases cmd <;> rfl

/-- A step between commands waits, or starts the first command issued. -/
theorem step_waiting {s t : State} (hw : s.mayIssue = true) (h : step s = .next t) :
    t = s ∨ ∃ cmd rest, t = ({ s with commands := rest } : State).start cmd := by
  rw [step_of_mayIssue hw] at h
  rcases awaitCommand_next h with ⟨-, ht⟩ | ⟨cmd, rest, -, ht⟩
  · exact .inl ht
  · exact .inr ⟨cmd, rest, ht⟩

end Sys2Proof.Machine
end

section
/-! SUPPORT. The invariant of a command, `State.Inv`: what it says phase by phase, and that each end of a step keeps
it. -/

namespace Sys2Proof.Machine

/-! ### What the invariant says in one phase or mode -/

section Phases

variable {s : State}

theorem State.loopOk_header (hp : s.phase = .header) : s.LoopOk ↔
    s.cursor = 0 ∧ s.bpos = 0 ∧ s.err = .noError ∧ s.endWarn = false ∧ s.prev = Pixel.initial ∧
      ∀ i, s.cacheAt i = Pixel.zero := by
  unfold State.LoopOk; rw [hp]

theorem State.loopOk_body (hp : s.phase = .body) : s.LoopOk ↔
    s.DimsOk ∧ s.cursor < s.n ∧ headerLength ≤ s.bpos ∧ s.err = .noError ∧ s.endWarn = false := by
  unfold State.LoopOk; rw [hp]

theorem State.loopOk_trailer (hp : s.phase = .trailer) : s.LoopOk ↔
    s.DimsOk ∧ s.cursor = s.n ∧ headerLength ≤ s.bpos ∧ s.err = .noError ∧ s.endWarn = false := by
  unfold State.LoopOk; rw [hp]

theorem State.loopOk_done (hp : s.phase = .done) : s.LoopOk ↔
    s.DimsOk ∧ s.cursor = s.n ∧ headerLength ≤ s.bpos ∧ s.err = .noError := by
  unfold State.LoopOk; rw [hp]

theorem State.loopOk_error (hp : s.phase = .error) : s.LoopOk ↔ s.err ≠ .noError := by
  unfold State.LoopOk; rw [hp]

/-- The buffers of a DECODE after its header step. -/
theorem State.buffersOk_decode (hm : s.mode = .decode) (hp : s.phase = .body ∨ s.phase = .trailer ∨ s.phase = .done) :
    s.BuffersOk ↔ s.DecodedPrefix := by
  unfold State.BuffersOk
  rcases hp with hp | hp | hp <;> rw [hp, hm]

theorem State.buffersOk_decode_error (hm : s.mode = .decode) (hp : s.phase = .error) :
    s.BuffersOk ↔ (s.pb ≠ none → s.DecodedPrefix) := by
  unfold State.BuffersOk; rw [hp, hm]

/-- While a DECODE runs its buffer, once allocated, holds the pixels decoded. -/
theorem State.BuffersOk.decodedPrefix (h : s.BuffersOk) (hm : s.mode = .decode) (hrun : s.mayIssue = false)
    (hpb : s.pb ≠ none) : s.DecodedPrefix := by
  rcases State.mayIssue_eq_false.1 hrun with hp | hp | hp
  · unfold State.BuffersOk at h
    rw [hp, hm] at h
    exact absurd h hpb
  · exact (State.buffersOk_decode hm (.inl hp)).1 h
  · exact (State.buffersOk_decode hm (.inr (.inl hp))).1 h

theorem State.BuffersOk.of_encode (hm : s.mode = .encode) (hpb : s.SuppliedWhole) (hout : s.OutExact) :
    s.BuffersOk := by
  unfold State.BuffersOk
  rw [hm]
  cases s.phase with
  | idle => exact trivial
  | _ => exact ⟨hpb, hout⟩

/-- The buffers of an ENCODE, from its command start on. -/
theorem State.BuffersOk.encode (h : s.BuffersOk) (hm : s.mode = .encode) (hp : s.phase ≠ .idle) :
    s.SuppliedWhole ∧ s.OutExact := by
  unfold State.BuffersOk at h
  rw [hm] at h
  cases hi : s.phase with
  | idle => exact absurd hi hp
  | _ => rw [hi] at h; exact h

theorem State.phase_ne_idle (hrun : s.mayIssue = false) : s.phase ≠ .idle := fun h => by
  rw [State.mayIssue_eq_true.2 (.inl h)] at hrun; cases hrun

end Phases

/-! ### The bytes of `OUT` -/

/-- Accepting bytes keeps `OUT` exact: they stand right after those accepted before (20_memory R75). -/
theorem State.OutExact.extend {s t : State} {bs : List Byte} (h : s.OutExact) (hb : t.bpos = s.bpos + bs.length)
    (hin : ∀ j, j < bs.length → Mem.read t.out (s.bpos + j) = bs[j]?)
    (hout : ∀ a, ¬(s.bpos ≤ a ∧ a < s.bpos + bs.length) → Mem.read t.out a = Mem.read s.out a) : t.OutExact := by
  intro o
  rw [hb]
  by_cases ho : s.bpos ≤ o ∧ o < s.bpos + bs.length
  · obtain ⟨j, rfl⟩ := Nat.exists_eq_add_of_le ho.1
    have hj : j < bs.length := by omega
    simp [hin j hj, hj]
  · rw [hout o ho, h o, decide_eq_decide]
    omega

theorem State.OutExact.sentAs {s : State} (h : s.OutExact) (bs : List Byte) : (s.sentAs bs).OutExact := by
  refine h.extend (bs := bs) rfl (fun j hj => ?_) fun a ha => ?_
  · rw [State.read_out_sentAs, if_pos (by omega), Nat.add_sub_cancel_left]
  · rw [State.read_out_sentAs, if_neg ha]

theorem State.Emitted.outExact {s t : State} {bs : List Byte} {m : Nat} (h : s.Emitted t bs m) (ho : s.OutExact) :
    t.OutExact := by
  obtain ⟨hb, -, -, hin, hout, -⟩ := h
  exact ho.extend hb hin hout

/-- `PB` supplied whole is a fact about `PB` alone. -/
theorem State.SuppliedWhole.congr {s t : State} (h : s.SuppliedWhole) (hpb : t.pb = s.pb) : t.SuppliedWhole := by
  unfold State.SuppliedWhole State.pbSize State.pbRead
  rw [hpb]
  exact h

/-! ### The bytes of a decoded image -/

/-- Every byte of a pixel that `PB` holds has a value (20_memory R73). -/
theorem State.PixelAt.pbRead_isSome {t : State} {i a : Nat} {p : Pixel} (h : t.PixelAt i p) (hc : t.c = 3 ∨ t.c = 4)
    (hlo : i * t.channels ≤ a) (hhi : a < (i + 1) * t.channels) : (t.pbRead a).isSome = true := by
  obtain ⟨h0, h1, h2, h3⟩ := h
  rw [Nat.add_mul, Nat.one_mul] at hhi
  obtain ⟨j, rfl⟩ := Nat.exists_eq_add_of_le hlo
  have hj : j < t.channels := by omega
  have hcases : j = 0 ∨ j = 1 ∨ j = 2 ∨ (t.c = 4 ∧ j = 3) := by
    rcases hc with hc | hc
    · have : t.channels = 3 := by unfold State.channels; rw [hc]; rfl
      omega
    · have : t.channels = 4 := by unfold State.channels; rw [hc]; rfl
      have : j = 0 ∨ j = 1 ∨ j = 2 ∨ j = 3 := by omega
      tauto
  rcases hcases with rfl | rfl | rfl | ⟨h4, rfl⟩
  · simp [h0]
  · simp [h1]
  · simp [h2]
  · simp [h3 h4]

/-- The pixel of a row that a byte address of the row lies in. -/
theorem exists_pixel_of_byte {ch lo m a : Nat} (h1 : lo * ch ≤ a) (h2 : a < (lo + m) * ch) :
    ∃ k, k < m ∧ (lo + k) * ch ≤ a ∧ a < (lo + k + 1) * ch := by
  have hch : 0 < ch := by
    rcases Nat.eq_zero_or_pos ch with rfl | h
    · simp at h2
    · exact h
  have hlo : lo ≤ a / ch := (Nat.le_div_iff_mul_le hch).2 h1
  have hhi : a / ch < lo + m := (Nat.div_lt_iff_lt_mul hch).2 h2
  refine ⟨a / ch - lo, by omega, ?_⟩
  rw [Nat.add_sub_cancel' hlo]
  exact ⟨Nat.div_mul_le_self a ch, (Nat.div_lt_iff_lt_mul hch).1 (Nat.lt_succ_self _)⟩

/-- A DECODE opcode step extends the bytes with a value by exactly the pixels it produced (41_decoder R173). -/
theorem State.Produced.decodedPrefix {s t : State} {len m : Nat} {p : Pixel} (h : s.Produced t len m p)
    (hc : s.c = 3 ∨ s.c = 4) (hd : s.DecodedPrefix) : t.DecodedPrefix := by
  obtain ⟨-, hcur, -, hpix, hrest, -, -, hk⟩ := h
  intro a
  rw [hcur, hk.channels]
  have hle : s.cursor * s.channels ≤ (s.cursor + m) * s.channels := Nat.mul_le_mul_right _ (Nat.le_add_right _ _)
  by_cases ha : s.cursor * s.channels ≤ a ∧ a < (s.cursor + m) * s.channels
  · obtain ⟨k, hk', hlo, hhi⟩ := exists_pixel_of_byte ha.1 ha.2
    rw [← hk.channels] at hlo hhi
    rw [(hpix k hk').pbRead_isSome (hk.c ▸ hc) hlo hhi, decide_eq_true ha.2]
  · rw [hrest a ha, hd a, decide_eq_decide]
    omega

/-! ### Each end of a step keeps the invariant -/

/-- A command start meets the invariant, whatever stood before it (10_state R45). -/
theorem State.start_inv (s : State) (cmd : Command) : (s.start cmd).Inv := by
  cases cmd with
  | decode input e => exact ⟨⟨rfl, rfl, rfl, rfl, rfl, s.startDecode_cacheAt input e⟩, rfl⟩
  | encode w h c pb e =>
    refine ⟨⟨rfl, rfl, rfl, rfl, rfl, s.startEncode_cacheAt w h c pb e⟩, fun a size hs => ?_, fun o => rfl⟩
    cases hs
    show ((s.startEncode w h c pb e).pbRead a).isSome = decide (a < pb.length)
    rw [State.startEncode_pbRead, Bool.eq_iff_iff]
    simp

/-- An error in DECODE keeps the partial image (41_decoder R173, 60_exceptions R272). -/
theorem State.Inv.readFailed {s : State} (h : s.Inv) (hrun : s.mayIssue = false) (hm : s.mode = .decode) (k : Nat)
    {e : ErrorCode} (he : e ≠ .noError) : ((s.consume k).raise e).Inv := by
  obtain ⟨-, hbuf⟩ := h
  exact ⟨(State.loopOk_error rfl).2 he,
    (State.buffersOk_decode_error (by simpa using hm) rfl).2 (hbuf.decodedPrefix hm hrun)⟩

/-- An error in ENCODE keeps the bytes the sink accepted (42_encoder R211, 60_exceptions R272). -/
theorem State.Inv.writeFailed {s : State} (h : s.Inv) (hrun : s.mayIssue = false) (hm : s.mode = .encode)
    (bs : List Byte) {e : ErrorCode} (he : e ≠ .noError) : ((s.sentAs bs).raise e).Inv := by
  obtain ⟨hpb, hout⟩ := h.2.encode hm (State.phase_ne_idle hrun)
  exact ⟨(State.loopOk_error rfl).2 he, .of_encode hm (hpb.congr rfl) (hout.sentAs bs)⟩

/-- Legal dimensions hold at least one pixel (10_state R40). -/
theorem pixels_pos {w h : Word} (hw : w ≠ 0) (hh : h ≠ 0) : 0 < w.toNat * h.toNat :=
  Nat.mul_pos (Nat.pos_of_ne_zero fun e => hw (BitVec.eq_of_toNat_eq e))
    (Nat.pos_of_ne_zero fun e => hh (BitVec.eq_of_toNat_eq e))

theorem State.Inv.headerRead {s : State} (h : s.Inv) (hp : s.phase = .header) (hm : s.mode = .decode) {hd : Header}
    (hc : hd.check s.params = none) : ((s.consume headerLength).latchHeader hd).Inv := by
  obtain ⟨hcur, -, herr, hwarn, -⟩ := (State.loopOk_header hp).1 h.1
  obtain ⟨-, hw, hh, hch, -⟩ := Header.check_eq_none.1 hc
  refine ⟨(State.loopOk_body rfl).2 ⟨⟨hw, hh, hch, rfl⟩, ?_, by simp, herr, hwarn⟩,
    (State.buffersOk_decode (by simpa using hm) (.inl rfl)).2 fun a => ?_⟩
  · simpa [hcur] using pixels_pos hw hh
  · simp [hcur]

theorem State.Inv.headerWritten {s : State} (h : s.Inv) (hp : s.phase = .header) (hm : s.mode = .encode)
    (hd : s.DimsOk) : ({ s.sentAs (headerBytes s.w s.h s.c s.cs) with phase := .body } : State).Inv := by
  obtain ⟨hcur, -, herr, hwarn, -⟩ := (State.loopOk_header hp).1 h.1
  obtain ⟨hpb, hout⟩ := h.2.encode hm (by simp [hp])
  refine ⟨(State.loopOk_body rfl).2 ⟨hd, ?_, ?_, herr, hwarn⟩,
    .of_encode hm (hpb.congr rfl) (hout.sentAs _)⟩
  · show s.cursor < s.n
    rw [hcur]
    exact pixels_pos hd.1 hd.2.1
  · show 14 ≤ s.bpos + 14
    omega

/-- An opcode step that moved forward leaves BODY with pixels left or TRAILER with none (10_state R32, R47). -/
theorem OpcodeAdvance.loopOk {s t : State} {m : Nat} (ha : OpcodeAdvance s t m) (hsize : t.pbSize = s.pbSize)
    (hp : s.phase = .body) (h : s.LoopOk) : t.LoopOk := by
  obtain ⟨hd, -, hb, herr, hwarn⟩ := (State.loopOk_body hp).1 h
  have hdims : t.DimsOk := ha.keeps.dimsOk hsize hd
  have hb' : headerLength ≤ t.bpos := le_trans hb ha.bpos
  have herr' : t.err = .noError := ha.keeps.err.trans herr
  have hwarn' : t.endWarn = false := ha.keeps.endWarn.trans hwarn
  have hfits := ha.fits
  have hphase := ha.phase
  unfold State.phaseAt at hphase
  split at hphase
  · refine (State.loopOk_trailer hphase).2 ⟨hdims, ?_, hb', herr', hwarn'⟩
    rw [ha.cursor, ha.keeps.n]
    assumption
  · refine (State.loopOk_body hphase).2 ⟨hdims, ?_, hb', herr', hwarn'⟩
    rw [ha.cursor, ha.keeps.n]
    omega

/-- An opcode step that moved forward leaves BODY or TRAILER (41_decoder R171, 42_encoder R212). -/
theorem OpcodeAdvance.phase_cases {s t : State} {m : Nat} (ha : OpcodeAdvance s t m) :
    t.phase = .body ∨ t.phase = .trailer := by
  rw [ha.phase]
  unfold State.phaseAt
  split
  · exact .inr rfl
  · exact .inl rfl

theorem State.Inv.opcode {s t : State} {i : Instr} {m : Nat} (h : s.Inv) (hx : exec i s = .next t)
    (ha : OpcodeAdvance s t m) : t.Inv := by
  obtain ⟨hp, hcur, -⟩ := exec_next hx
  obtain ⟨hloop, hbuf⟩ := h
  have hdims : s.DimsOk := ((State.loopOk_body hp).1 hloop).1
  cases hm : s.mode with
  | decode =>
    obtain ⟨m', p, hP⟩ := exec_decode_produced hx ⟨hm, hp, hcur, hdims⟩
    have hsize : t.pbSize = s.pbSize := by
      obtain ⟨-, -, -, -, -, hsize, -⟩ := hP
      exact hsize
    refine ⟨ha.loopOk hsize hp hloop, (State.buffersOk_decode (ha.keeps.mode.trans hm) ?_).2 ?_⟩
    · exact ha.phase_cases.imp_right .inl
    · exact hP.decodedPrefix hdims.2.2.1 ((State.buffersOk_decode hm (.inl hp)).1 hbuf)
  | encode =>
    obtain ⟨hpb, hout⟩ := hbuf.encode hm (by simp [hp])
    rcases exec_encode_next hx hm with ⟨m', -, -, hE⟩ | ⟨bs, rfl⟩
    · have hpb' : t.pb = s.pb := by
        obtain ⟨-, -, -, -, -, hpb', -⟩ := hE
        exact hpb'
      have hsize : t.pbSize = s.pbSize := by unfold State.pbSize; rw [hpb']
      exact ⟨ha.loopOk hsize hp hloop, .of_encode (ha.keeps.mode.trans hm) (hpb.congr hpb') (hE.outExact hout)⟩
    · rcases ha.phase_cases with h | h <;> cases h

theorem State.Inv.markerRead {s t : State} (h : s.Inv) (hp : s.phase = .trailer) (hm : s.mode = .decode) {k : Nat}
    (ht : t = (s.consume k).finish ∨ t = (s.consume k).warnEnd.finish) : t.Inv := by
  obtain ⟨hloop, hbuf⟩ := h
  obtain ⟨hd, hcur, hb, herr, -⟩ := (State.loopOk_trailer hp).1 hloop
  have hpre := (State.buffersOk_decode hm (.inr (.inl hp))).1 hbuf
  rcases ht with rfl | rfl <;>
    exact ⟨(State.loopOk_done rfl).2 ⟨hd, hcur, Nat.le_add_right_of_le hb, herr⟩,
      (State.buffersOk_decode (by simpa using hm) (.inr (.inr rfl))).2 hpre⟩

theorem State.Inv.markerWritten {s : State} (h : s.Inv) (hp : s.phase = .trailer) (hm : s.mode = .encode) :
    (s.sentAs endMarker).finish.Inv := by
  obtain ⟨hloop, hbuf⟩ := h
  obtain ⟨hd, hcur, hb, herr, -⟩ := (State.loopOk_trailer hp).1 hloop
  obtain ⟨hpb, hout⟩ := hbuf.encode hm (by simp [hp])
  exact ⟨(State.loopOk_done rfl).2 ⟨hd, hcur, Nat.le_add_right_of_le hb, herr⟩,
    .of_encode hm (hpb.congr rfl) (hout.sentAs endMarker)⟩

/-- Every end of a step of a running command keeps the invariant. -/
theorem RunNext.inv {s t : State} (hr : RunNext s t) (hrun : s.mayIssue = false) (h : s.Inv) : t.Inv := by
  cases hr with
  | readFailed hm k e he ht => exact ht ▸ h.readFailed hrun hm k he
  | writeFailed hm bs e he ht => exact ht ▸ h.writeFailed hrun hm bs he
  | headerRead hp hm hd hc ht => exact ht ▸ h.headerRead hp hm hc
  | headerWritten hp hm hd ht => exact ht ▸ h.headerWritten hp hm hd
  | opcode _ i m hx ha => exact h.opcode hx ha
  | bodyOver hp hc =>
    obtain ⟨-, hlt, -⟩ := (State.loopOk_body hp).1 h.1
    exact absurd hlt hc
  | markerRead hp hm k ht => exact h.markerRead hp hm ht
  | markerWritten hp hm ht => exact ht ▸ h.markerWritten hp hm

end Sys2Proof.Machine
end

section
/-! PROOFS. The statements of 10_state: commands, phases, cursors, the status registers and the host's side. -/

namespace Sys2Proof.Machine

/-- Settles O43: a step between commands waits or starts a command, and every end of a running step keeps the
invariant. -/
theorem stepKeepsTheInvariant : Obligations.StepKeepsTheInvariant := by
  intro s t hinv h
  cases hi : s.mayIssue with
  | true =>
    rcases step_waiting hi h with rfl | ⟨cmd, rest, rfl⟩
    · exact hinv
    · exact State.start_inv _ cmd
  | false => exact (step_running hi h).inv hi hinv

/-- A command start reads nothing of the state but the parameters and the counter of free values (10_state R44). -/
theorem State.start_congr {s u : State} (cmd : Command) (hcmd : s.commands = u.commands) (hpar : s.params = u.params)
    (hdraws : s.draws = u.draws) : s.start cmd = u.start cmd := by
  cases cmd with
  | decode input e => simp [State.start, State.startDecode, State.clear, hcmd, hpar, hdraws]
  | encode w h c pb e => simp [State.start, State.startEncode, State.clear, hcmd, hpar, hdraws]

/-- Settles O13, by the fields a command start reads. -/
theorem commandStartForgetsThePast : Obligations.CommandStartForgetsThePast := by
  intro s u hs hu hcmd hne hpar hdraws
  obtain ⟨cmd, rest, hcons⟩ := List.exists_cons_of_ne_nil hne
  rw [step_of_mayIssue hs, step_of_mayIssue hu, awaitCommand_cons hcons, awaitCommand_cons (hcmd ▸ hcons)]
  exact congrArg _ (State.start_congr cmd rfl hpar hdraws)

/-- Where a running step moves PHASE (10_state R32). -/
theorem RunNext.phase_cases {s t : State} (hr : RunNext s t) :
    t.phase = .error ∨ (s.phase = .header ∧ t.phase = .body) ∨
      (s.phase = .body ∧ (t.phase = .body ∨ t.phase = .trailer)) ∨ (s.phase = .trailer ∧ t.phase = .done) := by
  cases hr with
  | readFailed _ _ _ _ ht => subst ht; exact .inl rfl
  | writeFailed _ _ _ _ ht => subst ht; exact .inl rfl
  | headerRead hp _ _ _ ht => subst ht; exact .inr (.inl ⟨hp, rfl⟩)
  | headerWritten hp _ _ ht => subst ht; exact .inr (.inl ⟨hp, rfl⟩)
  | opcode hp _ _ _ ha => exact .inr (.inr (.inl ⟨hp, ha.phase_cases⟩))
  | bodyOver hp _ ht => subst ht; exact .inr (.inr (.inl ⟨hp, .inr rfl⟩))
  | markerRead hp _ _ ht => exact .inr (.inr (.inr ⟨hp, by rcases ht with rfl | rfl <;> rfl⟩))
  | markerWritten hp _ ht => subst ht; exact .inr (.inr (.inr ⟨hp, rfl⟩))

/-- A step between commands keeps PHASE or enters HEADER (10_state R32, 60_exceptions R286). -/
theorem step_waiting_phase {s t : State} (hw : s.mayIssue = true) (h : step s = .next t) :
    t.phase = s.phase ∨ t.phase = .header := by
  rcases step_waiting hw h with rfl | ⟨cmd, rest, rfl⟩
  · exact .inl rfl
  · exact .inr (State.start_phase _ cmd)

/-- Settles O14, phase by phase. -/
theorem phaseFollowsTheTable : Obligations.PhaseFollowsTheTable := by
  intro s t h
  have hwait := fun hw => step_waiting_phase hw h
  have hrun := fun hi => (step_running hi h).phase_cases
  rw [State.mayIssue_eq_true] at hwait
  rw [State.mayIssue_eq_false] at hrun
  cases hp : s.phase with
  | idle => simpa [hp] using hwait
  | done => simpa [hp] using hwait
  | error => simpa [hp] using hwait
  | header => simpa [hp, or_comm] using hrun
  | body => exact or_rotate.1 (by simpa [hp] using hrun)
  | trailer => simpa [hp, or_comm] using hrun

/-- A running step moves neither cursor back (10_state R37, R38). -/
theorem RunNext.cursors_le {s t : State} (hr : RunNext s t) : s.bpos ≤ t.bpos ∧ s.cursor ≤ t.cursor := by
  cases hr with
  | readFailed _ _ _ _ ht => simp [ht]
  | writeFailed _ _ _ _ ht => simp [ht]
  | headerRead _ _ _ _ ht => simp [ht]
  | headerWritten _ _ _ ht => simp [ht]
  | opcode _ _ _ _ ha => exact ⟨ha.bpos, ha.cursor ▸ Nat.le_add_right _ _⟩
  | bodyOver _ _ ht => simp [ht]
  | markerRead _ _ _ ht => rcases ht with rfl | rfl <;> simp
  | markerWritten _ _ ht => simp [ht]

/-- Settles O49: an opcode step without an error consumes at least one pixel and none past `N`. -/
theorem cursorsOnlyMoveForward : Obligations.CursorsOnlyMoveForward := by
  refine ⟨fun s t hi h => (step_running hi h).cursors_le, fun i s t h hne => ?_⟩
  rcases exec_advances h with ⟨m, ha⟩ | ⟨-, bs, rfl⟩
  · rw [ha.cursor]
    exact ⟨Nat.lt_add_of_pos_right ha.pos, ha.fits⟩
  · exact absurd rfl hne

/-- Settles O50: of the ends of a running step only the marker mismatch writes END_WARN. -/
theorem warningComesOnlyFromTheEndMarker : Obligations.WarningComesOnlyFromTheEndMarker := by
  intro s t hi h hne
  cases step_running hi h with
  | readFailed _ _ _ _ ht => subst ht; exact absurd rfl hne
  | writeFailed _ _ _ _ ht => subst ht; exact absurd rfl hne
  | headerRead _ _ _ _ ht => subst ht; exact absurd rfl hne
  | headerWritten _ _ _ ht => subst ht; exact absurd rfl hne
  | opcode _ _ _ _ ha => exact absurd ha.keeps.endWarn hne
  | bodyOver _ _ ht => subst ht; exact absurd rfl hne
  | markerRead hp hm k ht =>
    rcases ht with rfl | rfl
    · exact absurd rfl hne
    · exact ⟨hp, hm, rfl, rfl, rfl⟩
  | markerWritten _ _ ht => subst ht; exact absurd rfl hne

/-- Settles O52: every end of a running step that is no raise keeps ERR. -/
theorem onlyARaiseWritesErr : Obligations.OnlyARaiseWritesErr := by
  intro s t hi h hne
  cases step_running hi h with
  | readFailed _ _ _ _ ht => subst ht; exact absurd rfl hne
  | writeFailed _ _ _ _ ht => subst ht; exact absurd rfl hne
  | headerRead _ _ _ _ ht => subst ht; rfl
  | headerWritten _ _ _ ht => subst ht; rfl
  | opcode _ _ _ _ ha => exact ha.keeps.err
  | bodyOver _ _ ht => subst ht; rfl
  | markerRead _ _ _ ht => rcases ht with rfl | rfl <;> rfl
  | markerWritten _ _ ht => subst ht; rfl

/-- Settles O11, by the fields of the command-start state. -/
theorem decodeStartResets : Obligations.DecodeStartResets := by
  intro s input inEnd rest hi hcmd
  refine ⟨_, (step_of_mayIssue hi).trans (awaitCommand_cons hcmd), rfl, rfl, rfl,
    State.startDecode_cacheAt _ input inEnd, rfl, rfl, rfl, rfl, rfl, fun o => ?_, rfl, rfl, rfl⟩
  exact (Mem.read_ofBytesFrom 0 o input).trans (by simp)

/-- Settles O12, by the fields of the command-start state. -/
theorem encodeStartResets : Obligations.EncodeStartResets := by
  intro s w h c pb sinkEnd rest hi hcmd
  exact ⟨_, (step_of_mayIssue hi).trans (awaitCommand_cons hcmd), rfl, rfl, rfl,
    State.startEncode_cacheAt _ w h c pb sinkEnd, rfl, rfl, rfl, rfl, rfl, rfl, rfl, rfl, rfl,
    State.startEncode_pbRead _ w h c pb sinkEnd, fun _ => rfl, rfl, rfl, rfl⟩

/-- There is a result only once a command has ended (10_state R46). -/
theorem State.result_eq_none {s : State} (hd : s.phase ≠ .done) (he : s.phase ≠ .error) : s.result = none := by
  unfold State.result
  split <;> simp_all

theorem State.image_of_pb {s : State} {pb : PixelBuffer} (h : s.pb = some pb) :
    s.image = some ⟨s.w, s.h, s.c, s.cs, pb⟩ := by
  unfold State.image; rw [h]

/-- Settles O59: the result of each mode and ending, and the host's moves by whether a command runs. -/
theorem hostSeesOnlyResults : Obligations.HostSeesOnlyResults := by
  intro s
  refine ⟨fun hp hm => ?_, fun hp hm => ?_, fun pb hp hm hpb => ?_, fun hp hm hpb => ?_, fun pb hp hm hpb => ?_,
    fun hp => ?_, fun hp => ?_⟩
  · unfold State.result; rw [hp, hm]
  · unfold State.result; rw [hp, hm]
  · unfold State.result; rw [hp, hm, State.image_of_pb hpb]
  · have him : s.image = none := by unfold State.image; rw [hpb]
    unfold State.result; rw [hp, hm, him]
  · unfold State.result; rw [hp, hm, State.image_of_pb hpb]
  · have hi : s.mayIssue = false := State.mayIssue_eq_false.2 hp
    refine ⟨?_, fun cmd => by simp [State.issue, hi], { s with phase := .idle }, by simp [State.abandon, hi], rfl, ?_⟩
    · rcases hp with hp | hp | hp <;> exact State.result_eq_none (by simp [hp]) (by simp [hp])
    · exact State.result_eq_none (by simp) (by simp)
  · simp [State.abandon, State.mayIssue_eq_true.2 hp]

end Sys2Proof.Machine
end

section
/-! SUPPORT. The memories a step of a running command writes (20_memory R70): DECODE writes `PB` alone, ENCODE writes
`OUT` alone, by accepted bytes. -/

namespace Sys2Proof.Machine

/-! ### The memory form -/

/-- The bytes of `PB`, where it is allocated, are in canonical form: the `PB` part of `State.MemWf`. -/
def State.PbWf (s : State) : Prop := ∀ pb, s.pb = some pb → Mem.wf pb.bytes

theorem State.memWf_iff {s : State} : s.MemWf ↔ Mem.wf s.inp ∧ Mem.wf s.out ∧ s.PbWf := Iff.rfl

theorem State.PbWf.congr {s t : State} (h : s.PbWf) (hpb : t.pb = s.pb) : t.PbWf := by
  unfold State.PbWf
  rw [hpb]
  exact h

/-- A pixel buffer that has just been allocated lists no byte (43_header_codec R245). -/
theorem State.latchHeader_pbWf (s : State) (hd : Header) : (s.latchHeader hd).PbWf := by
  rintro pb ⟨⟩
  exact List.Pairwise.nil

/-- A command start leaves the three memories empty or as the host supplies them (10_state R31, R45). -/
theorem State.start_memWf (s : State) (cmd : Command) : (s.start cmd).MemWf := by
  cases cmd with
  | decode input e => exact ⟨Mem.ofBytesFrom_wf 0 input, List.Pairwise.nil, fun pb h => by cases h⟩
  | encode w h c bytes e =>
    refine ⟨List.Pairwise.nil, List.Pairwise.nil, ?_⟩
    rintro pb ⟨⟩
    exact Mem.ofBytesFrom_wf 0 bytes

/-! ### The commits of ENCODE write no memory -/

section Commits

variable (s : State)

@[simp] theorem State.encCommit_pb (px : Pixel) (wc : Bool) : (State.encCommit px wc s).pb = s.pb := by
  simp [State.encCommit]

@[simp] theorem State.encCommit_out (px : Pixel) (wc : Bool) : (State.encCommit px wc s).out = s.out := by
  simp [State.encCommit]

@[simp] theorem State.encRunCommit_pb (k : Nat) : (State.encRunCommit k s).pb = s.pb := by
  simp [State.encRunCommit]

@[simp] theorem State.encRunCommit_out (k : Nat) : (State.encRunCommit k s).out = s.out := by
  simp [State.encRunCommit]

end Commits

/-! ### The memory each mode writes -/

/-- What a step of a running command writes of `OUT` and `PB`, mode by mode. -/
inductive MemoryWrites (s t : State) : Prop where
  /-- DECODE leaves `OUT` alone and keeps `PB` in canonical form. -/
  | decode (hm : s.mode = .decode) (hout : t.out = s.out) (hpb : s.PbWf → t.PbWf)
  /-- ENCODE leaves `PB` alone and adds the accepted bytes to `OUT`. -/
  | encode (hm : s.mode = .encode) (hpb : t.pb = s.pb) (bs : List Byte) (hout : t.out = (s.sentAs bs).out)

/-- A step that writes neither memory, in either mode. -/
theorem MemoryWrites.of_same {s t : State} (hout : t.out = s.out) (hpb : t.pb = s.pb) : MemoryWrites s t := by
  cases hm : s.mode with
  | decode => exact .decode hm hout fun h => h.congr hpb
  | encode => exact .encode hm hpb [] hout

/-- A DECODE step that stores pixels and then writes no memory. -/
theorem MemoryWrites.of_stores {s u t : State} {m i : Nat} {p : Pixel} (hm : s.mode = .decode)
    (hu : State.storePixels m i p s = some u) (hout : t.out = u.out) (hpb : t.pb = u.pb) : MemoryWrites s t := by
  obtain ⟨hsame, -, hwf⟩ := State.storePixels_eq_some hu
  refine .decode hm ?_ fun h => State.PbWf.congr (hwf h) hpb
  rcases hsame with rfl | ⟨q, rfl⟩ <;> exact hout

/-- An ENCODE step that emits bytes and then commits without writing a memory (42_encoder R211). -/
theorem MemoryWrites.of_emitThen {s t : State} {bs : List Byte} {commit : State → State} (hm : s.mode = .encode)
    (h : s.emitThen bs commit = .next t) (hpb : ∀ u, (commit u).pb = u.pb) (hout : ∀ u, (commit u).out = u.out) :
    MemoryWrites s t := by
  rcases State.emitThen_next h with rfl | ⟨k, -, -, rfl⟩
  · exact .encode hm (hpb _) bs (hout _)
  · exact .encode hm rfl (bs.take k) rfl

/-- The memories an opcode step writes. -/
theorem exec_memoryWrites {i : Instr} {s t : State} (h : exec i s = .next t) : MemoryWrites s t := by
  obtain ⟨-, -, -, hx⟩ := exec_next h
  cases hx with
  | decodePixel hm wc px h =>
    obtain ⟨u, hu, rfl⟩ := State.decPixel_next h
    rw [← State.storePixels_one] at hu
    exact .of_stores hm hu (by simp) (by simp)
  | decodeRun hm l _ h =>
    obtain ⟨u, hu, rfl⟩ := State.decRun_next h
    exact .of_stores hm hu (by simp) (by simp)
  | encodePixel hm wc px _ _ h =>
    exact .of_emitThen hm h (State.encCommit_pb · px wc) (State.encCommit_out · px wc)
  | encodeRun hm l _ _ h =>
    exact .of_emitThen hm h (State.encRunCommit_pb · _) (State.encRunCommit_out · _)

/-- The memories each end of a running step writes. -/
theorem RunNext.memoryWrites {s t : State} (hr : RunNext s t) : MemoryWrites s t := by
  cases hr with
  | readFailed _ _ _ _ ht => subst ht; exact .of_same rfl rfl
  | writeFailed hm bs _ _ ht => subst ht; exact .encode hm rfl bs rfl
  | headerRead _ hm hd _ ht => subst ht; exact .decode hm rfl fun _ => State.latchHeader_pbWf _ hd
  | headerWritten _ hm _ ht => subst ht; exact .encode hm rfl _ rfl
  | opcode _ _ _ hx _ => exact exec_memoryWrites hx
  | bodyOver _ _ ht => subst ht; exact .of_same rfl rfl
  | markerRead _ _ _ ht => rcases ht with rfl | rfl <;> exact .of_same rfl rfl
  | markerWritten _ hm ht => subst ht; exact .encode hm rfl endMarker rfl

/-! ### What no step of a running command writes -/

/-- The stream read and everything of the host's that a running command has (20_memory R70, R86; 10_state R34). -/
structure State.KeepsInputs (s t : State) : Prop where
  mode : t.mode = s.mode
  inp : t.inp = s.inp
  inEnd : t.inEnd = s.inEnd
  sinkEnd : t.sinkEnd = s.sinkEnd
  commands : t.commands = s.commands
  params : t.params = s.params
  draws : t.draws = s.draws

theorem State.KeepsCommand.keepsInputs {s t : State} (h : s.KeepsCommand t) : s.KeepsInputs t := by
  obtain ⟨hmode, -, -, -, -, -, -, hinp, hinEnd, hsinkEnd, hcommands, hparams, hdraws⟩ := h
  exact ⟨hmode, hinp, hinEnd, hsinkEnd, hcommands, hparams, hdraws⟩

/-- No end of a running step writes the stream read or anything of the host's. -/
theorem RunNext.keepsInputs {s t : State} (hr : RunNext s t) : s.KeepsInputs t := by
  cases hr with
  | readFailed _ _ _ _ ht => subst ht; constructor <;> rfl
  | writeFailed _ _ _ _ ht => subst ht; constructor <;> rfl
  | headerRead _ _ _ _ ht => subst ht; constructor <;> rfl
  | headerWritten _ _ _ ht => subst ht; constructor <;> rfl
  | opcode _ _ _ _ ha => exact ha.keeps.keepsInputs
  | bodyOver _ _ ht => subst ht; constructor <;> rfl
  | markerRead _ _ _ ht => rcases ht with rfl | rfl <;> constructor <;> rfl
  | markerWritten _ _ ht => subst ht; constructor <;> rfl

/-- Every end of a running step keeps the memory form: an accepted byte and a stored pixel are memory writes, which
keep it. -/
theorem RunNext.memWf {s t : State} (hr : RunNext s t) (h : s.MemWf) : t.MemWf := by
  obtain ⟨hinp, hout, hpb⟩ := State.memWf_iff.1 h
  refine State.memWf_iff.2 ⟨hr.keepsInputs.inp ▸ hinp, ?_⟩
  cases hr.memoryWrites with
  | decode _ ho hp => exact ⟨ho ▸ hout, hp hpb⟩
  | encode _ hp bs ho => exact ⟨ho ▸ Mem.writeList_wf hout s.bpos bs, hpb.congr hp⟩

end Sys2Proof.Machine
end

section
/-! PROOFS. The statements of 20_memory: the canonical form of the memories, and what a running command leaves alone. -/

namespace Sys2Proof.Machine

/-- Settles O44: a step between commands waits or starts a command on fresh memories, and a running step changes them by
memory writes alone. -/
theorem stepKeepsTheMemoryForm : Obligations.StepKeepsTheMemoryForm := by
  intro s t hwf h
  cases hi : s.mayIssue with
  | true =>
    rcases step_waiting hi h with rfl | ⟨cmd, rest, rfl⟩
    · exact hwf
    · exact State.start_memWf _ cmd
  | false => exact (step_running hi h).memWf hwf

/-- Settles O48: every end of a running step keeps the inputs, and each mode writes its own memory alone. -/
theorem commandLeavesItsInputsAlone : Obligations.CommandLeavesItsInputsAlone := by
  intro s t hi h
  have hr := step_running hi h
  have hk := hr.keepsInputs
  refine ⟨hk.mode, hk.inp, hk.inEnd, hk.sinkEnd, hk.commands, hk.params, hk.draws, ?_⟩
  cases hr.memoryWrites with
  | decode hm hout _ => exact ⟨fun _ => hout, fun he => absurd (hm.symm.trans he) Mode.noConfusion⟩
  | encode hm hpb _ _ => exact ⟨fun hd => absurd (hm.symm.trans hd) Mode.noConfusion, fun _ => hpb⟩

end Sys2Proof.Machine
end

section
/-! SUPPORT. What the tag byte fixes (30_encoding R102), and everything `decode` can do with a tag byte and the bytes
after it (R111). -/

namespace Sys2Proof

/-! ### The tag byte -/

theorem topBits_toNat (b0 : Byte) : (b0.extractLsb' 6 2).toNat = b0.toNat / 64 := by
  have := b0.isLt
  rw [BitVec.extractLsb'_toNat, Nat.shiftRight_eq_div_pow]
  omega

theorem lowBits_toNat (b0 : Byte) : (b0.extractLsb' 0 6).toNat = b0.toNat % 64 := by
  rw [BitVec.extractLsb'_toNat, Nat.shiftRight_zero]

/-- A byte from its tag bits and its six field bits (INDEX, LUMA's first byte, RUN). -/
theorem topBits_append_lowBits (b0 : Byte) : b0.extractLsb' 6 2 ++ b0.extractLsb' 0 6 = b0 :=
  (BitVec.extractLsb'_append_extractLsb'_eq_extractLsb' rfl).trans BitVec.extractLsb'_eq_self

/-- A byte from its two halves (LUMA's second byte). -/
theorem highNibble_append_lowNibble (b1 : Byte) : b1.extractLsb' 4 4 ++ b1.extractLsb' 0 4 = b1 :=
  (BitVec.extractLsb'_append_extractLsb'_eq_extractLsb' rfl).trans BitVec.extractLsb'_eq_self

/-- A byte from its tag bits and its three two-bit fields (DIFF). -/
theorem topBits_append_pairs (b0 : Byte) :
    b0.extractLsb' 6 2 ++ b0.extractLsb' 4 2 ++ b0.extractLsb' 2 2 ++ b0.extractLsb' 0 2 = b0 := by
  have h1 : b0.extractLsb' 6 2 ++ b0.extractLsb' 4 2 = b0.extractLsb' 4 4 :=
    BitVec.extractLsb'_append_extractLsb'_eq_extractLsb' rfl
  have h2 : b0.extractLsb' 4 4 ++ b0.extractLsb' 2 2 = b0.extractLsb' 2 6 :=
    BitVec.extractLsb'_append_extractLsb'_eq_extractLsb' rfl
  have h3 : b0.extractLsb' 2 6 ++ b0.extractLsb' 0 2 = b0 :=
    (BitVec.extractLsb'_append_extractLsb'_eq_extractLsb' rfl).trans BitVec.extractLsb'_eq_self
  rw [h1, h2, h3]

/-- What each answer of `classify` says of the tag byte (30_encoding R102). -/
inductive TagOf (b0 : Byte) : Opcode → Prop where
  | rgb (h : b0 = 0xFE) : TagOf b0 .rgb
  | rgba (h : b0 = 0xFF) : TagOf b0 .rgba
  | index (htop : b0.extractLsb' 6 2 = 0b00#2) : TagOf b0 .index
  | diff (htop : b0.extractLsb' 6 2 = 0b01#2) : TagOf b0 .diff
  | luma (htop : b0.extractLsb' 6 2 = 0b10#2) : TagOf b0 .luma
  /-- The two 8-bit tags come first, so the run lengths 62 and 63 never stand here (30_encoding R108). -/
  | run (htop : b0.extractLsb' 6 2 = 0b11#2) (hlow : (b0.extractLsb' 0 6).toNat < 62) : TagOf b0 .run

theorem tagOf_classify (b0 : Byte) : TagOf b0 (classify b0) := by
  unfold classify
  split_ifs with hFE hFF h00 h01 h10
  · exact .rgb hFE
  · exact .rgba hFF
  · exact .index h00
  · exact .diff h01
  · exact .luma h10
  · have hlt := b0.isLt
    simp only [← BitVec.toNat_inj, topBits_toNat, BitVec.reduceToNat] at hFE hFF h00 h01 h10
    refine .run (BitVec.eq_of_toNat_eq ?_) ?_
    · rw [topBits_toNat, BitVec.toNat_ofNat]
      omega
    · rw [lowBits_toNat]
      omega

/-- The second pair of bits from the right (DIFF's green field, 30_encoding R106). -/
theorem extractLsb'_secondPair {n : Nat} (hi : BitVec n) (f g : BitVec 2) : (hi ++ f ++ g).extractLsb' 2 2 = f :=
  (BitVec.extractLsb'_append_eq_of_le (Nat.le_refl 2)).trans BitVec.extractLsb'_append_eq_right

/-- The third pair of bits from the right (DIFF's red field, 30_encoding R106). -/
theorem extractLsb'_thirdPair {n : Nat} (hi : BitVec n) (f g k : BitVec 2) :
    (hi ++ f ++ g ++ k).extractLsb' 4 2 = f :=
  (BitVec.extractLsb'_append_eq_of_le (by decide)).trans (extractLsb'_secondPair hi f g)

/-! ### `decode`, tag by tag -/

section Equations

variable {b0 : Byte} (payload : List Byte)

theorem decode_of_rgb (h : classify b0 = .rgb) : decode (b0 :: payload) = decodeRgb payload := by
  simp only [decode, h]

theorem decode_of_rgba (h : classify b0 = .rgba) : decode (b0 :: payload) = decodeRgba payload := by
  simp only [decode, h]

theorem decode_of_index (h : classify b0 = .index) :
    decode (b0 :: payload) = .ok (.index (b0.extractLsb' 0 6), payload) := by
  simp only [decode, h]

theorem decode_of_diff (h : classify b0 = .diff) : decode (b0 :: payload) =
    .ok (.diff (b0.extractLsb' 4 2) (b0.extractLsb' 2 2) (b0.extractLsb' 0 2), payload) := by
  simp only [decode, h]

theorem decode_of_luma (h : classify b0 = .luma) : decode (b0 :: payload) = decodeLuma b0 payload := by
  simp only [decode, h]

theorem decode_of_run (h : classify b0 = .run) :
    decode (b0 :: payload) = .ok (.run (b0.extractLsb' 0 6), payload) := by
  simp only [decode, h]

end Equations

/-! ### Everything `decode` can do -/

theorem length_encode (i : Instr) : (encode i).length = i.opcode.length := by
  cases i <;> rfl

/-- The two answers of `decode` to a tag byte and the bytes after it (30_encoding R111). -/
inductive DecodeAnswer (b0 : Byte) (payload : List Byte) : Prop where
  /-- A well-formed instruction of the tag's opcode, whose encoding the bytes begin with. -/
  | read (i : Instr) (rest : List Byte) (hd : decode (b0 :: payload) = .ok (i, rest)) (hop : i.opcode = classify b0)
      (hwf : i.wellFormed = true) (hbytes : b0 :: payload = encode i ++ rest)
  /-- Fewer bytes than the tag's opcode has. -/
  | cutShort (hd : decode (b0 :: payload) = .error .payloadCutShort)
      (hlt : payload.length + 1 < (classify b0).length)

theorem decode_answer (b0 : Byte) (payload : List Byte) : DecodeAnswer b0 payload := by
  have htag := tagOf_classify b0
  generalize hc : classify b0 = op at htag
  cases htag with
  | rgb hb =>
    have hd := decode_of_rgb payload hc
    match payload with
    | r :: g :: b :: rest => exact .read (.rgb r g b) rest hd hc.symm rfl (congrArg (· :: _) hb)
    | [] | [_] | [_, _] => exact .cutShort hd (by simp [hc, Opcode.length])
  | rgba hb =>
    have hd := decode_of_rgba payload hc
    match payload with
    | r :: g :: b :: a :: rest => exact .read (.rgba r g b a) rest hd hc.symm rfl (congrArg (· :: _) hb)
    | [] | [_] | [_, _] | [_, _, _] => exact .cutShort hd (by simp [hc, Opcode.length])
  | index htop =>
    refine .read _ payload (decode_of_index payload hc) hc.symm rfl ?_
    rw [encode, ← htop, topBits_append_lowBits, List.singleton_append]
  | diff htop =>
    refine .read _ payload (decode_of_diff payload hc) hc.symm rfl ?_
    rw [encode, ← htop, topBits_append_pairs, List.singleton_append]
  | luma htop =>
    have hd := decode_of_luma payload hc
    match payload with
    | [] => exact .cutShort hd (by simp [hc, Opcode.length])
    | b1 :: rest =>
      refine .read _ rest hd hc.symm rfl ?_
      rw [encode, ← htop, topBits_append_lowBits, highNibble_append_lowNibble, List.cons_append,
        List.singleton_append]
  | run htop hlow =>
    refine .read _ payload (decode_of_run payload hc) hc.symm (decide_eq_true hlow) ?_
    rw [encode, ← htop, topBits_append_lowBits, List.singleton_append]

end Sys2Proof
end

section
/-! PROOFS. The statements of 30_encoding: the opcode stream, read and written. -/

namespace Sys2Proof

/-- Settles O1: the tag byte of each encoding gives its opcode back (`Laws.TagFixesOpcode`), and each field is read from
the bits it was written to. -/
theorem decodeOfEncode : Obligations.DecodeOfEncode := by
  intro i rest hwf
  cases i with
  | rgb r g b => rfl
  | rgba r g b a => rfl
  | index idx =>
    obtain ⟨_, _, ⟨⟩, hc, -⟩ := Laws.TagFixesOpcode.index idx hwf
    refine (decode_of_index rest hc).trans ?_
    rw [BitVec.extractLsb'_append_eq_right]
  | diff dr2 dg2 db2 =>
    obtain ⟨_, _, ⟨⟩, hc, -⟩ := Laws.TagFixesOpcode.diff dr2 dg2 db2 hwf
    refine (decode_of_diff rest hc).trans ?_
    rw [extractLsb'_thirdPair, extractLsb'_secondPair, BitVec.extractLsb'_append_eq_right]
  | luma dg32 drg8 dbg8 =>
    obtain ⟨_, _, ⟨⟩, hc, -⟩ := Laws.TagFixesOpcode.luma dg32 drg8 dbg8 hwf
    refine (decode_of_luma (_ :: rest) hc).trans ?_
    rw [decodeLuma, BitVec.extractLsb'_append_eq_right, BitVec.extractLsb'_append_eq_left,
      BitVec.extractLsb'_append_eq_right]
  | run len1 =>
    obtain ⟨_, _, ⟨⟩, hc, -⟩ := Laws.TagFixesOpcode.run len1 hwf
    refine (decode_of_run rest hc).trans ?_
    rw [BitVec.extractLsb'_append_eq_right]

/-- Settles O2, by the two answers of `decode`. -/
theorem encodeOfDecode : Obligations.EncodeOfDecode := by
  intro bs i rest h
  cases bs with
  | nil => cases h
  | cons b0 payload =>
    cases decode_answer b0 payload with
    | read j rest' hd _ hwf hbytes =>
      cases hd.symm.trans h
      exact ⟨hwf, hbytes⟩
    | cutShort hd _ => cases hd.symm.trans h

/-- Settles O3, by the two answers of `decode`: the bytes of what is read are as many as the tag's length. -/
theorem onlyTooFewBytesFailToDecode : Obligations.OnlyTooFewBytesFailToDecode := by
  intro b0 payload
  cases decode_answer b0 payload with
  | read i rest hd hop _ hbytes =>
    have hlen : (encode i).length = (classify b0).length := hop ▸ length_encode i
    refine ⟨fun _ => ⟨i, rest, hd, hop, ?_⟩, fun hlt => ?_⟩
    · calc rest = (b0 :: payload).drop (classify b0).length := by rw [hbytes, ← hlen, List.drop_left]
        _ = payload.drop ((classify b0).length - 1) := by cases classify b0 <;> rfl
    · have := congrArg List.length hbytes
      rw [List.length_cons, List.length_append] at this
      omega
  | cutShort hd hlt => exact ⟨fun hle => absurd hlt (by omega), fun _ => hd⟩

/-- Settles O4: the tests of the top two bits are tests of `b0 / 64`, and the length asks them in the same order. -/
theorem tagRangesFixOpcodeAndLength : Obligations.TagRangesFixOpcodeAndLength := by
  intro b0
  have hlt := b0.isLt
  unfold classify
  constructor
  · simp only [← BitVec.toNat_inj, topBits_toNat, BitVec.reduceToNat]
    grind
  · split_ifs <;> simp_all [Opcode.length]

/-- Settles O5: each word is run through `decode`. -/
theorem wordsOfTheSpecDecode : Obligations.WordsOfTheSpecDecode :=
  ⟨rfl, rfl, rfl, rfl, rfl, rfl, rfl⟩

/-- A reserved RUN length is not well formed (30_encoding R112). -/
theorem run_wellFormed_eq_false {len1 : BitVec 6} (h : 62 ≤ len1.toNat) : (Instr.run len1).wellFormed = false :=
  decide_eq_false (by omega)

/-- Settles O16: `execRun` refuses what is not well formed, whatever the state. -/
theorem reservedRunIsRefused : Obligations.ReservedRunIsRefused := by
  intro len1 s h
  show Machine.execRun len1 s = _
  unfold Machine.execRun
  rw [run_wellFormed_eq_false h, if_neg Bool.false_ne_true]

end Sys2Proof
end

section
/-! SUPPORT. One effect for all six opcodes (30_encoding R101): the pixel an opcode denotes, how many pixels it stands
for and whether it writes the cache, with what each engine does in these terms; and the cache a step leaves. -/

namespace Sys2Proof.Machine

/-! ### The hash (40_color_cache R140) -/

theorem pixelHash_toNat (p : Pixel) :
    (pixelHash p).toNat = (p.r.toNat * 3 + p.g.toNat * 5 + p.b.toNat * 7 + p.a.toNat * 11) % 64 :=
  BitVec.toNat_ofNat ..

/-! ### What an opcode stands for -/

/-- The opcodes that write the cache (40_color_cache R143): RGB, RGBA, DIFF and LUMA. -/
def writesCache (i : Instr) : Bool :=
  match i.opcode with
  | .rgb | .rgba | .diff | .luma => true
  | .index | .run => false

/-- The pixel an opcode denotes after `PREV` and the cache of a state (41_decoder R165 to R170). -/
def State.denoted (s : State) : Instr → Pixel
  | .rgb r g b => rgbPixel s.prev r g b
  | .rgba r g b a => ⟨r, g, b, a⟩
  | .index idx => s.cacheAt idx
  | .diff dr2 dg2 db2 => diffPixel s.prev dr2 dg2 db2
  | .luma dg32 drg8 dbg8 => lumaPixel s.prev dg32 drg8 dbg8
  | .run _ => s.prev

/-- How many pixels an opcode stands for (41_decoder R170: a RUN is clamped to the pixels left). -/
def State.pixelCount (s : State) : Instr → Nat
  | .run len1 => min (runCount len1) (s.n - s.cursor)
  | .rgb _ _ _ | .rgba _ _ _ _ | .index _ | .diff _ _ _ | .luma _ _ _ => 1

theorem State.cacheAt_congr {s t : State} (h : t.cache = s.cache) (i : BitVec 6) : t.cacheAt i = s.cacheAt i := by
  unfold State.cacheAt
  simp only [h]

theorem State.cachePutIf_cache_congr {s t : State} (h : t.cache = s.cache) (wc : Bool) (p : Pixel) :
    (t.cachePutIf wc p).cache = (s.cachePutIf wc p).cache := by
  cases wc <;> simp [h]

/-- What an opcode denotes depends on `PREV` and the cache alone. -/
theorem State.denoted_congr {s t : State} (hprev : t.prev = s.prev) (hcache : t.cache = s.cache) (i : Instr) :
    t.denoted i = s.denoted i := by
  cases i with
  | index idx => exact State.cacheAt_congr hcache idx
  | rgb | rgba | diff | luma | run => simp only [State.denoted, hprev]

theorem State.pixelCount_congr {s t : State} (hn : t.n = s.n) (hcur : t.cursor = s.cursor) (i : Instr) :
    t.pixelCount i = s.pixelCount i := by
  cases i <;> simp only [State.pixelCount, hn, hcur]

theorem State.pixelCount_of_ne_run {s : State} {i : Instr} (h : ∀ l, i ≠ .run l) : s.pixelCount i = 1 := by
  cases i with
  | run l => exact absurd rfl (h l)
  | rgb | rgba | index | diff | luma => rfl

/-! ### The opcode the encoder chooses denotes the pixel at the cursor -/

theorem fieldValue_storeField_diff {d : Int} (h : -2 ≤ d ∧ d ≤ 1) :
    fieldValue diffBias (storeField 2 diffBias d) = d :=
  fieldValue_storeField (by simp only [diffBias]; omega) (by simp only [diffBias]; omega)

theorem fieldValue_storeField_lumaGreen {d : Int} (h : -32 ≤ d ∧ d ≤ 31) :
    fieldValue lumaGreenBias (storeField 6 lumaGreenBias d) = d :=
  fieldValue_storeField (by simp only [lumaGreenBias]; omega) (by simp only [lumaGreenBias]; omega)

theorem fieldValue_storeField_lumaCross {d : Int} (h : -8 ≤ d ∧ d ≤ 7) :
    fieldValue lumaCrossBias (storeField 4 lumaCrossBias d) = d :=
  fieldValue_storeField (by simp only [lumaCrossBias]; omega) (by simp only [lumaCrossBias]; omega)

/-- DIFF's stored deltas move `prev` to `px` where they are in range (42_encoder R203, R207). -/
theorem diffPixel_of_fits {px prev : Pixel} (ha : px.a = prev.a)
    (hfits : diffFits (channelDelta px.r prev.r) (channelDelta px.g prev.g) (channelDelta px.b prev.b) = true) :
    diffPixel prev (storeField 2 diffBias (channelDelta px.r prev.r)) (storeField 2 diffBias (channelDelta px.g prev.g))
      (storeField 2 diffBias (channelDelta px.b prev.b)) = px := by
  obtain ⟨hr, hg, hb⟩ := diffFits_iff.1 hfits
  simp only [diffPixel, movePixel, fieldValue_storeField_diff hr, fieldValue_storeField_diff hg,
    fieldValue_storeField_diff hb, wrap8_add_channelDelta, ← ha]

/-- LUMA's stored deltas move `prev` to `px` where they are in range (42_encoder R203, R208). -/
theorem lumaPixel_of_fits {px prev : Pixel} (ha : px.a = prev.a)
    (hfits : lumaFits (channelDelta px.g prev.g) (s8 (channelDelta px.r prev.r - channelDelta px.g prev.g))
      (s8 (channelDelta px.b prev.b - channelDelta px.g prev.g)) = true) :
    lumaPixel prev (storeField 6 lumaGreenBias (channelDelta px.g prev.g))
      (storeField 4 lumaCrossBias (s8 (channelDelta px.r prev.r - channelDelta px.g prev.g)))
      (storeField 4 lumaCrossBias (s8 (channelDelta px.b prev.b - channelDelta px.g prev.g))) = px := by
  obtain ⟨hg, hr, hb⟩ := lumaFits_iff.1 hfits
  simp only [lumaPixel, movePixel, fieldValue_storeField_lumaGreen hg, fieldValue_storeField_lumaCross hr,
    fieldValue_storeField_lumaCross hb, wrap8_add_channelDelta, wrap8_add_crossDelta, ← ha]

/-- The opcode chosen for a pixel of unchanged alpha denotes it (42_encoder R203). -/
theorem State.denoted_sameAlphaInstr {s : State} {px : Pixel} (ha : px.a = s.prev.a) :
    s.denoted (sameAlphaInstr px s.prev) = px := by
  unfold sameAlphaInstr
  dsimp only
  split
  · exact diffPixel_of_fits ha ‹_›
  · split
    · exact lumaPixel_of_fits ha ‹_›
    · simp only [State.denoted, rgbPixel, ← ha]

/-- The opcode chosen for a pixel that differs from `PREV` denotes it (42_encoder R201). -/
theorem State.denoted_selectFor (s : State) (px : Pixel) : s.denoted (s.selectFor px) = px := by
  rcases s.selectFor_cases px with ⟨hslot, h⟩ | ⟨-, ha, h⟩ | ⟨-, -, h⟩ <;> rw [h]
  · exact hslot
  · exact State.denoted_sameAlphaInstr ha
  · rfl

/-- The encoder's choice denotes the pixel at the cursor, and every pixel it stands for (42_encoder R201, R205). -/
theorem State.loadPixel_of_encSelect {s : State} {i : Instr} (h : s.encSelect = some i) :
    ∀ k, k < s.pixelCount i → s.loadPixel (s.cursor + k) = some (s.denoted i) := by
  obtain ⟨px, hl, ⟨rfl, r, hr, rfl⟩ | ⟨-, rfl⟩⟩ := State.encSelect_cases h
  · obtain ⟨h1, h62, -, hpix⟩ := State.runLength_spec hr hl
    intro k hk
    refine hpix k (Nat.lt_of_lt_of_le hk ?_)
    exact (Nat.min_le_left _ _).trans_eq (runCount_storeRun h1 h62).1
  · intro k hk
    rw [State.pixelCount_of_ne_run (s.selectFor_ne_run px)] at hk
    obtain rfl : k = 0 := by omega
    rw [s.denoted_selectFor px]
    exact hl

/-! ### What each engine does with an opcode -/

/-- An opcode that is no RUN: one pixel in either engine. -/
theorem exec_of_ne_run {i : Instr} (h : ∀ l, i ≠ .run l) (s : State) :
    exec i s = opcodeStep s (s.decPixel i.length (writesCache i) (s.denoted i))
      (s.encOpcode i fun px => State.encCommit px (writesCache i)) := by
  cases i with
  | run l => exact absurd rfl (h l)
  | rgb | rgba | index | diff | luma => rfl

theorem exec_run {l : BitVec 6} (hwf : (Instr.run l).wellFormed = true) (s : State) :
    exec (.run l) s = opcodeStep s (decRunOp l s) (encRunOp l s) :=
  if_pos hwf

/-- What an opcode step leaves in `PREV` and the cache, the same in both engines (40_color_cache R143, R148). -/
structure PixelEffect (s t : State) (i : Instr) : Prop where
  prev : t.prev = s.denoted i
  cache : t.cache = (s.cachePutIf (writesCache i) (s.denoted i)).cache

/-- A DECODE opcode step, where it is due (41_decoder R164 to R170). -/
theorem exec_decode_of_due {s : State} (h : s.DecodeDue) {i : Instr} (hwf : i.wellFormed = true) :
    ∃ t, exec i s = .next t ∧ PixelEffect s t i ∧ s.Produced t i.length (s.pixelCount i) (s.denoted i) := by
  obtain ⟨hm, hp, hc, -⟩ := id h
  rcases Classical.em (∃ l, i = .run l) with ⟨l, rfl⟩ | hrun
  · obtain ⟨t, ht, hprev, hcache, hP⟩ :=
      State.decRun_of_due h (Instr.run l).length (Nat.min_le_right (runCount l) _)
    refine ⟨t, ?_, ⟨hprev, hcache⟩, hP⟩
    rw [exec_run hwf, opcodeStep_decode hp hc hm]
    exact ht
  · have hrun := not_exists.1 hrun
    obtain ⟨t, ht, hprev, hcache, hP⟩ := State.decPixel_of_due h i.length (writesCache i) (s.denoted i)
    refine ⟨t, ?_, ⟨hprev, hcache⟩, State.pixelCount_of_ne_run hrun ▸ hP⟩
    rw [exec_of_ne_run hrun, opcodeStep_decode hp hc hm]
    exact ht

/-- The pixels a DECODE opcode step stored load as the pixel it produced, which with three channels has alpha 255
(20_memory R77, R78). -/
theorem State.Produced.loadPixel {s t : State} {len m : Nat} {p : Pixel} (h : s.Produced t len m p)
    (hdue : s.DecodeDue) (ha : s.c = 3 → p.a = 255) : ∀ k, k < m → t.loadPixel (s.cursor + k) = some p := by
  obtain ⟨-, -, -, hpix, -, -, -, hk⟩ := h
  obtain ⟨-, -, -, -, -, hc, -⟩ := hdue
  exact fun k hlt => State.loadPixel_of_pixelAt (hk.c ▸ hc) (hpix k hlt) (hk.c ▸ ha)

/-- An ENCODE opcode step without an error: the opcode's bytes are sent whole and committed
(42_encoder R205 to R211). -/
theorem exec_encode_sent {s t : State} {i : Instr} (h : exec i s = .next t) (hm : s.mode = .encode)
    (hne : t.phase ≠ .error) :
    PixelEffect s t i ∧ s.Emitted t (encode i) (s.pixelCount i) := by
  obtain ⟨hp, hc, hwf, -⟩ := exec_next h
  rcases Classical.em (∃ l, i = .run l) with ⟨l, rfl⟩ | hrun
  · rw [exec_run hwf, opcodeStep_encode hp hc hm] at h
    obtain ⟨px, hl, hsel, h⟩ := State.encOpcode_next h
    have hfits := State.encSelect_run_fits hsel hc
    have hcount : s.pixelCount (.run l) = runCount l := Nat.min_eq_left (by omega)
    rcases State.emitThen_next h with rfl | ⟨k, -, -, rfl⟩
    · obtain ⟨hprev, hcache, hE⟩ := State.encRunCommit_sent hp (encode (.run l)) (runCount l)
      exact ⟨⟨hprev, hcache⟩, hcount ▸ hE⟩
    · exact absurd rfl hne
  · have hrun := not_exists.1 hrun
    rw [exec_of_ne_run hrun, opcodeStep_encode hp hc hm] at h
    obtain ⟨px, hl, hsel, h⟩ := State.encOpcode_next h
    have hcount := State.pixelCount_of_ne_run (s := s) hrun
    have hpx : s.denoted i = px :=
      Option.some.inj ((State.loadPixel_of_encSelect hsel 0 (by omega)).symm.trans hl)
    subst hpx
    rcases State.emitThen_next h with rfl | ⟨k, -, -, rfl⟩
    · obtain ⟨hprev, hcache, hE⟩ := State.encCommit_sent hp (encode i) (s.denoted i) (writesCache i)
      exact ⟨⟨hprev, hcache⟩, hcount ▸ hE⟩
    · exact absurd rfl hne

/-- An ENCODE body step without an error is the step of a selected opcode. -/
theorem step_encode_sent {s t : State} (hm : s.mode = .encode) (hp : s.phase = .body) (hc : s.cursor < s.n)
    (h : step s = .next t) (hne : t.phase ≠ .error) :
    ∃ i, i.wellFormed = true ∧ s.encSelect = some i ∧ PixelEffect s t i ∧
      s.Emitted t (encode i) (s.pixelCount i) := by
  rw [step_body_encode hp hc hm] at h
  cases hs : s.encSelect with
  | none => rw [hs] at h; cases h
  | some i =>
    rw [hs] at h
    obtain ⟨-, -, hwf, -⟩ := exec_next h
    exact ⟨i, hwf, rfl, exec_encode_sent h hm hne⟩

/-! ### The fetch of an encoded opcode (41_decoder R162, R163) -/

theorem length_encode_le (i : Instr) : (encode i).length ≤ maxOpcodeLength := by
  rw [length_encode]
  cases i.opcode <;> decide

/-- The bytes of a well-formed instruction at `BPOS` are fetched as that instruction, whatever follows them. -/
theorem fetch_of_encode {s : State} {i : Instr} (hwf : i.wellFormed = true)
    (h : ∀ j, j < (encode i).length → Mem.read s.inp (s.bpos + j) = (encode i)[j]?) : fetch s = .opcode i := by
  have hbytes := State.delivered_of_reads h (maxOpcodeLength - (encode i).length)
  rw [Nat.add_sub_cancel' (length_encode_le i)] at hbytes
  unfold fetch
  rw [hbytes, decodeOfEncode i _ hwf]

/-- A DECODE body step with an encoded opcode at `BPOS` is that opcode's step. -/
theorem step_decode_of_encode {s : State} {i : Instr} (hdue : s.DecodeDue) (hwf : i.wellFormed = true)
    (h : ∀ j, j < (encode i).length → Mem.read s.inp (s.bpos + j) = (encode i)[j]?) : step s = exec i s := by
  obtain ⟨hm, hp, hc, -⟩ := hdue
  rw [step_body_decode hp hc hm, fetch_of_encode hwf h]

/-! ### The cache a running step leaves (40_color_cache R147) -/

/-- The cache of `t` is that of `s`, or that of `s` with one pixel put at its hash. -/
def CacheStep (s t : State) : Prop := ∃ wc p, t.cache = (s.cachePutIf wc p).cache

theorem CacheStep.of_same {s t : State} (h : t.cache = s.cache) : CacheStep s t := ⟨false, Pixel.zero, h⟩

theorem State.CacheOk.congr {s t : State} (h : s.CacheOk) (hcache : t.cache = s.cache) : t.CacheOk := fun i => by
  rw [State.cacheAt_congr hcache]
  exact h i

/-- A pixel put at its hash hashes to its slot (40_color_cache R143). -/
theorem State.CacheOk.cachePut {s : State} (h : s.CacheOk) (p : Pixel) : (s.cachePut p).CacheOk := fun i => by
  rw [State.cacheAt_cachePut]
  split
  · exact .inr (Eq.symm ‹_›)
  · exact h i

theorem CacheStep.cacheOk {s t : State} (hst : CacheStep s t) (h : s.CacheOk) : t.CacheOk := by
  obtain ⟨wc, p, hcache⟩ := hst
  refine State.CacheOk.congr ?_ hcache
  cases wc with
  | false => exact h
  | true => exact h.cachePut p

/-- Every slot holds (0,0,0,0) at a command start (10_state R45). -/
theorem State.start_cacheOk (s : State) (cmd : Command) : (s.start cmd).CacheOk := fun i => .inl <| by
  cases cmd with
  | decode input e => exact s.startDecode_cacheAt input e i
  | encode w h c pb e => exact s.startEncode_cacheAt w h c pb e i

theorem exec_cacheStep {i : Instr} {s t : State} (h : exec i s = .next t) : CacheStep s t := by
  obtain ⟨hp, -, -, hx⟩ := exec_next h
  cases hx with
  | decodePixel _ wc px h =>
    obtain ⟨u, hu, rfl⟩ := State.decPixel_next h
    obtain ⟨k, bytes, -, -, rfl⟩ := State.storePixel_eq_some hu
    exact ⟨wc, px, by simpa using State.cachePutIf_cache_congr (State.setPb_cache s _) wc px⟩
  | decodeRun _ l _ h =>
    obtain ⟨u, hu, rfl⟩ := State.decRun_next h
    obtain ⟨rfl | ⟨q, rfl⟩, -⟩ := State.storePixels_eq_some hu
    · exact .of_same (by simp)
    · exact .of_same (by simp)
  | encodePixel _ wc px _ _ h =>
    rcases State.emitThen_next h with rfl | ⟨k, -, -, rfl⟩
    · obtain ⟨-, hcache, -⟩ := State.encCommit_sent hp (encode i) px wc
      exact ⟨wc, px, hcache⟩
    · exact .of_same rfl
  | encodeRun _ l _ _ h =>
    rcases State.emitThen_next h with rfl | ⟨k, -, -, rfl⟩
    · obtain ⟨-, hcache, -⟩ := State.encRunCommit_sent hp (encode i) (runCount l)
      exact .of_same hcache
    · exact .of_same rfl

/-- Of the ends of a running step only an opcode writes the cache. -/
theorem RunNext.cacheStep {s t : State} (hr : RunNext s t) : CacheStep s t := by
  cases hr with
  | readFailed _ _ _ _ ht => subst ht; exact .of_same rfl
  | writeFailed _ _ _ _ ht => subst ht; exact .of_same rfl
  | headerRead _ _ _ _ ht => subst ht; exact .of_same rfl
  | headerWritten _ _ _ ht => subst ht; exact .of_same rfl
  | opcode _ _ _ hx _ => exact exec_cacheStep hx
  | bodyOver _ _ ht => subst ht; exact .of_same rfl
  | markerRead _ _ _ ht => rcases ht with rfl | rfl <;> exact .of_same rfl
  | markerWritten _ _ ht => subst ht; exact .of_same rfl

end Sys2Proof.Machine
end

section
/-! PROOFS. The statements of 40_color_cache: the hash, the cache invariant, and the two engines in lockstep. -/

namespace Sys2Proof.Machine

/-- Settles O6: 64 divides 256. -/
theorem hashWhateverTheWidth : Obligations.HashWhateverTheWidth := by
  intro p
  rw [pixelHash_toNat]
  omega

/-- Settles O45: a command start clears the cache, and a running step puts at most one pixel, at its hash. -/
theorem stepKeepsTheCacheInvariant : Obligations.StepKeepsTheCacheInvariant := by
  intro s t hok h
  cases hi : s.mayIssue with
  | true =>
    rcases step_waiting hi h with rfl | ⟨cmd, rest, rfl⟩
    · exact hok
    · exact State.start_cacheOk _ cmd
  | false => exact (step_running hi h).cacheStep.cacheOk hok

/-- Settles O56: the decoder fetches the opcode the encoder chose, which denotes the same pixel in the same `PREV` and
cache, and both engines leave the same effect of it. -/
theorem encoderAndDecoderStayInLockstep : Obligations.EncoderAndDecoderStayInLockstep := by
  intro e e' d hm hp hc h hne hdue hprev hcache hcur hbpos hw hh hch hbytes
  obtain ⟨i, hwf, hsel, heff, hbpos', hcur', hphase', hout, -⟩ := step_encode_sent hm hp hc h hne
  have hn : d.n = e.n := by unfold State.n; rw [hw, hh]
  have hden := State.denoted_congr hprev hcache i
  have hcount := State.pixelCount_congr hn hcur i
  have hin : ∀ j, j < (encode i).length → Mem.read d.inp (d.bpos + j) = (encode i)[j]? := fun j hj => by
    rw [hbpos, hbytes _ (by omega) (by omega), hout j hj]
  obtain ⟨d', hd', deff, hP⟩ := exec_decode_of_due hdue hwf
  obtain ⟨hbpos'', hcur'', hphase'', -⟩ := id hP
  have hload := State.loadPixel_of_encSelect hsel
  rw [hcount] at hcur'' hphase''
  refine ⟨d', (step_decode_of_encode hdue hwf hin).trans hd', ?_, ?_, by omega, ?_, ?_, fun k hk1 hk2 => ?_⟩
  · rw [deff.prev, heff.prev, hden]
  · rw [deff.cache, heff.cache, hden, State.cachePutIf_cache_congr hcache]
  · rw [hbpos', hbpos'', hbpos, length_encode]; rfl
  · rw [hphase', hphase'', hcur, State.phaseAt_congr hn]
  · obtain ⟨j, rfl⟩ := Nat.exists_eq_add_of_le hk1
    have hj : j < e.pixelCount i := by omega
    refine ⟨e.denoted i, hload j hj, ?_⟩
    have hstored := hP.loadPixel hdue (fun h3 => ?_) j (hcount ▸ hj)
    · rwa [hcur, hden] at hstored
    · rw [hden]
      exact State.loadPixel_alpha (hload j hj) (hch ▸ h3)

end Sys2Proof.Machine
end

section
/-! SUPPORT. What the decoder's statements add to the shared effect of `exec` (41_decoder R161 to R172): where no opcode
step is due, the cache read slot by slot, the channels a delta moves, the fetch of a cut-short opcode, and the end of the
end-marker loop. -/

namespace Sys2Proof.Machine

/-! ### Where no opcode step is due (41_decoder R161) -/

theorem opcodeStep_not_due {s : State} (h : ¬(s.phase = .body ∧ s.cursor < s.n))
    (dec enc : Host.Outcome State Fault Refusal) : opcodeStep s dec enc = .refused .noOpcodeStep :=
  if_neg h

/-- Every well-formed instruction is taken as one opcode step, by the engine the mode names. -/
theorem exec_eq_opcodeStep {i : Instr} (hwf : i.wellFormed = true) (s : State) :
    ∃ dec enc, exec i s = opcodeStep s dec enc := by
  cases i with
  | run l => exact ⟨_, _, exec_run hwf s⟩
  | rgb | rgba | index | diff | luma => exact ⟨_, _, rfl⟩

/-! ### The cache an opcode step leaves, slot by slot (40_color_cache R143) -/

theorem PixelEffect.cacheWritten {s t : State} {i : Instr} (h : PixelEffect s t i) (hw : writesCache i = true) :
    s.CacheWritten t (s.denoted i) := fun j => by
  have hcache := h.cache
  rw [hw] at hcache
  exact (State.cacheAt_congr hcache j).trans (s.cacheAt_cachePut _ j)

theorem PixelEffect.cacheAt_kept {s t : State} {i : Instr} (h : PixelEffect s t i) (hw : writesCache i = false)
    (j : BitVec 6) : t.cacheAt j = s.cacheAt j := by
  have hcache := h.cache
  rw [hw] at hcache
  exact State.cacheAt_congr hcache j

/-! ### DECODE steps by what they write -/

/-- An opcode that writes the cache is no RUN: it is well formed and stands for one pixel. -/
theorem one_pixel_of_writesCache {i : Instr} (hw : writesCache i = true) (s : State) :
    i.wellFormed = true ∧ s.pixelCount i = 1 := by
  cases i with
  | run l => cases hw
  | rgb | rgba | index | diff | luma => exact ⟨rfl, rfl⟩

/-- A DECODE step of RGB, RGBA, DIFF or LUMA, where it is due: one pixel, written to the cache (41_decoder R164). -/
theorem exec_decode_of_writesCache {s : State} {i : Instr} (hdue : s.DecodeDue) (hw : writesCache i = true) :
    ∃ t, exec i s = .next t ∧ t.prev = s.denoted i ∧ s.CacheWritten t (s.denoted i) ∧
      s.Produced t i.length 1 (s.denoted i) := by
  obtain ⟨hwf, hone⟩ := one_pixel_of_writesCache hw s
  obtain ⟨t, ht, heff, hP⟩ := exec_decode_of_due hdue hwf
  exact ⟨t, ht, heff.prev, heff.cacheWritten hw, hone ▸ hP⟩

/-- A DECODE step of INDEX or RUN, where it is due: the cache is left alone (41_decoder R164). -/
theorem exec_decode_of_not_writesCache {s : State} {i : Instr} (hdue : s.DecodeDue) (hwf : i.wellFormed = true)
    (hw : writesCache i = false) :
    ∃ t, exec i s = .next t ∧ t.prev = s.denoted i ∧ (∀ j, t.cacheAt j = s.cacheAt j) ∧
      s.Produced t i.length (s.pixelCount i) (s.denoted i) := by
  obtain ⟨t, ht, heff, hP⟩ := exec_decode_of_due hdue hwf
  exact ⟨t, ht, heff.prev, heff.cacheAt_kept hw, hP⟩

/-! ### The deltas (41_decoder R168, R169) -/

/-- `q` is `p` with each color channel moved by its delta modulo 256 and its alpha kept. -/
structure MovedBy (p q : Pixel) (dr dg db : Int) : Prop where
  red : (q.r.toNat : Int) = ((p.r.toNat : Int) + dr) % 256
  green : (q.g.toNat : Int) = ((p.g.toNat : Int) + dg) % 256
  blue : (q.b.toNat : Int) = ((p.b.toNat : Int) + db) % 256
  alpha : q.a = p.a

theorem movePixel_movedBy (p : Pixel) (dr dg db : Int) : MovedBy p (movePixel p dr dg db) dr dg db :=
  ⟨wrap8_toNat _, wrap8_toNat _, wrap8_toNat _, rfl⟩

/-- A DECODE step of a delta opcode, where it is due (41_decoder R168, R169). -/
theorem exec_decode_of_moves {s : State} {i : Instr} {dr dg db : Int} (hdue : s.DecodeDue)
    (hw : writesCache i = true) (hmove : s.denoted i = movePixel s.prev dr dg db) :
    ∃ t, exec i s = .next t ∧ MovedBy s.prev t.prev dr dg db ∧ s.CacheWritten t t.prev ∧
      s.Produced t i.length 1 t.prev := by
  obtain ⟨t, ht, hprev, hcache, hP⟩ := exec_decode_of_writesCache hdue hw
  refine ⟨t, ht, ?_, hprev ▸ hcache, hprev ▸ hP⟩
  rw [hprev, hmove]
  exact movePixel_movedBy s.prev dr dg db

/-! ### The fetch of a cut-short opcode (41_decoder R162, R163) -/

theorem fetch_of_error {s : State} {e : DecodeError} (h : decode (s.delivered maxOpcodeLength) = .error e) :
    fetch s = .cutShort (s.delivered maxOpcodeLength).length := by
  unfold fetch
  rw [h]

theorem opcode_length_le (op : Opcode) : op.length ≤ maxOpcodeLength := by
  cases op <;> decide

/-- Where `IN` has `k` bytes and then none, and `k` is 0 or less than the tag's length, the fetch is cut short after
them. -/
theorem fetch_cutShort {s : State} {k : Nat}
    (hreads : ∀ j, j < k → (Mem.read s.inp (s.bpos + j)).isSome = true) (hend : Mem.read s.inp (s.bpos + k) = none)
    (hshort : k = 0 ∨ ∃ b0, Mem.read s.inp s.bpos = some b0 ∧ k < (classify b0).length) :
    fetch s = .cutShort k := by
  rcases hshort with rfl | ⟨b0, hb0, hlt⟩
  · have hnil : s.delivered maxOpcodeLength = [] := State.delivered_succ_none _ hend
    rw [fetch_of_error (e := .noTag) (by rw [hnil]; rfl), hnil]
    rfl
  · have hlen : (s.delivered maxOpcodeLength).length = k :=
      State.delivered_length_eq (Nat.lt_of_lt_of_le hlt (opcode_length_le _)) hreads hend
    have hcons : s.delivered maxOpcodeLength = b0 :: State.delivered 4 (s.consume 1) :=
      State.delivered_succ_some 4 hb0
    have herr : decode (s.delivered maxOpcodeLength) = .error .payloadCutShort := by
      rw [hcons, List.length_cons] at hlen
      rw [hcons]
      exact (onlyTooFewBytesFailToDecode b0 _).2 (hlen ▸ hlt)
    rw [fetch_of_error herr, hlen]

/-! ### The end-marker loop (41_decoder R172) -/

/-- The byte of the end marker at an offset. -/
theorem endMarker_getElem? {j : Nat} (h : j < 8) : endMarker[j]? = some (if j < 7 then 0x00 else 0x01) := by
  interval_cases j <;> rfl

/-- The marker still expected after `k` bytes of it. -/
theorem endMarker_drop {k : Nat} (h : k < 8) :
    endMarker.drop k = (if k < 7 then 0x00 else 0x01) :: endMarker.drop (k + 1) := by
  interval_cases k <;> rfl

/-- A DECODE end-marker step that finds the first `k` bytes of the marker goes on after them. -/
theorem step_trailer_of_reads {s : State} {k : Nat} (hp : s.phase = .trailer) (hm : s.mode = .decode) (hk : k ≤ 8)
    (h : ∀ j, j < k → Mem.read s.inp (s.bpos + j) = some (if j < 7 then 0x00 else 0x01)) :
    step s = checkMarker (endMarker.drop k) (s.consume k) := by
  have hlen : (endMarker.take k).length = k := List.length_take_of_le hk
  have hreads : ∀ j, j < (endMarker.take k).length → Mem.read s.inp (s.bpos + j) = (endMarker.take k)[j]? :=
    fun j hj => by
      rw [hlen] at hj
      rw [h j hj, List.getElem?_take_of_lt hj, endMarker_getElem? (by omega)]
  have hcheck := checkMarker_prefix (fs := endMarker.drop k) hreads
  rw [List.take_append_drop, hlen] at hcheck
  exact (step_trailer_decode hp hm).trans hcheck

section NextByte

variable {s : State} {e : Byte} {es : List Byte}

theorem checkMarker_mismatch {v : Byte} (h : Mem.read s.inp s.bpos = some v) (hne : v ≠ e) :
    checkMarker (e :: es) s = .next (s.consume 1).warnEnd.finish := by
  rw [checkMarker, State.readByte_of_some h]
  exact if_neg hne

theorem checkMarker_eos (h : Mem.read s.inp s.bpos = none) (he : s.inEnd = .eos) :
    checkMarker (e :: es) s = .next s.warnEnd.finish := by
  rw [checkMarker, State.readByte_of_none h, he]

theorem checkMarker_ioFail (h : Mem.read s.inp s.bpos = none) (he : s.inEnd = .ioFail) :
    checkMarker (e :: es) s = .next (s.raise .io) := by
  rw [checkMarker, State.readByte_of_none h, he]

theorem checkMarker_silent (h : Mem.read s.inp s.bpos = none) (he : s.inEnd = .silent) :
    checkMarker (e :: es) s = .fault .sourceSilent := by
  rw [checkMarker, State.readByte_of_none h, he]

end NextByte

end Sys2Proof.Machine
end

section
/-! PROOFS. The statements of 41_decoder: the pixel loop, the six opcodes, a cut-short opcode, and the end marker. -/

namespace Sys2Proof.Machine

/-- Settles O15: every well-formed instruction is one opcode step, and outside the loop there is none. -/
theorem noOpcodeStepOutsideTheLoop : Obligations.NoOpcodeStepOutsideTheLoop := by
  intro i s hwf hout
  obtain ⟨dec, enc, h⟩ := exec_eq_opcodeStep hwf s
  exact h.trans (opcodeStep_not_due hout dec enc)

/-- Settles O18: the fetch reads the instruction back from its own bytes (`decodeOfEncode`). -/
theorem stepRunsTheDecodedOpcode : Obligations.StepRunsTheDecodedOpcode := by
  intro i s hwf hm hp hc hbytes
  rw [step_body_decode hp hc hm, fetch_of_encode hwf hbytes]

/-- Settles O20: RGB denotes its channels with the previous alpha. -/
theorem decodeRgbKeepsAlpha : Obligations.DecodeRgbKeepsAlpha :=
  fun _ r g b hdue => exec_decode_of_writesCache (i := .rgb r g b) hdue rfl

/-- Settles O21: RGBA denotes its four channels. -/
theorem decodeRgbaSetsThePixel : Obligations.DecodeRgbaSetsThePixel :=
  fun _ r g b a hdue => exec_decode_of_writesCache (i := .rgba r g b a) hdue rfl

/-- Settles O22: INDEX denotes the pixel of its slot and writes no cache. -/
theorem decodeIndexFetchesTheSlot : Obligations.DecodeIndexFetchesTheSlot :=
  fun _ idx hdue => exec_decode_of_not_writesCache (i := .index idx) hdue rfl rfl

/-- Settles O23: DIFF moves each channel by its own field. -/
theorem decodeDiffMovesEachChannel : Obligations.DecodeDiffMovesEachChannel := by
  intro s dr2 dg2 db2 hdue
  obtain ⟨t, ht, ⟨hr, hg, hb, ha⟩, hcache, hP⟩ := exec_decode_of_moves (i := .diff dr2 dg2 db2) hdue rfl rfl
  exact ⟨t, ht, hr, hg, hb, ha, hcache, hP⟩

/-- Settles O24: LUMA moves green by its field, red and blue by that plus their own. -/
theorem decodeLumaMovesEachChannel : Obligations.DecodeLumaMovesEachChannel := by
  intro s dg32 drg8 dbg8 hdue
  obtain ⟨t, ht, ⟨hr, hg, hb, ha⟩, hcache, hP⟩ := exec_decode_of_moves (i := .luma dg32 drg8 dbg8) hdue rfl rfl
  rw [← Int.add_assoc] at hr hb
  exact ⟨t, ht, hr, hg, hb, ha, hcache, hP⟩

/-- Settles O25: RUN denotes `PREV`, for as many pixels as its field says and the image has left. -/
theorem decodeRunRepeatsThePixel : Obligations.DecodeRunRepeatsThePixel :=
  fun _ len1 hlen hdue => exec_decode_of_not_writesCache (i := .run len1) hdue (decide_eq_true hlen) rfl

/-- Settles O26: the fetch is cut short after the `k` bytes, and the source's answer says how the step ends. -/
theorem cutShortOpcodeChangesNothing : Obligations.CutShortOpcodeChangesNothing := by
  intro s k hm hp hc hreads hend hshort
  have hstep : step s = s.readStopped k .truncatedStream := by
    rw [step_body_decode hp hc hm, fetch_cutShort hreads hend hshort]
  rw [hstep]
  exact ⟨State.readStopped_eos, State.readStopped_ioFail, State.readStopped_silent⟩

/-- Settles O41: after the marker bytes found, the rest of the marker is empty, or its first byte is the one expected
next. -/
theorem decodeChecksTheEndMarker : Obligations.DecodeChecksTheEndMarker := by
  intro s k hp hm hk hmarker
  rw [step_trailer_of_reads hp hm hk hmarker]
  refine ⟨?_, fun v hlt hv hne => ?_, fun hlt hend he => ?_, fun hlt hend he => ?_, fun hlt hend he => ?_⟩
  · rintro rfl
    rfl
  · rw [endMarker_drop hlt]
    exact checkMarker_mismatch hv hne
  · rw [endMarker_drop hlt]
    exact checkMarker_eos hend he
  · rw [endMarker_drop hlt]
    exact checkMarker_ioFail hend he
  · rw [endMarker_drop hlt]
    exact checkMarker_silent hend he

end Sys2Proof.Machine
end

section
/-! SUPPORT. What the encoder chooses (42_encoder R201, R203, R205) and what its opcode step then does (R211): one lemma
per branch of the choice, the bounds of what is chosen (R215), and the end of an emission the sink accepts or fails. -/

namespace Sys2Proof.Machine

/-! ### The choice for a pixel of unchanged alpha (42_encoder R203, R207, R208) -/

/-- All three deltas of `px` after `prev` lie in DIFF's range (42_encoder R207). -/
def FitsDiff (px prev : Pixel) : Prop :=
  (-2 ≤ channelDelta px.r prev.r ∧ channelDelta px.r prev.r ≤ 1) ∧
    (-2 ≤ channelDelta px.g prev.g ∧ channelDelta px.g prev.g ≤ 1) ∧
    (-2 ≤ channelDelta px.b prev.b ∧ channelDelta px.b prev.b ≤ 1)

/-- The green delta of `px` after `prev` and both cross-deltas lie in LUMA's ranges (42_encoder R208). -/
def FitsLuma (px prev : Pixel) : Prop :=
  let dg := channelDelta px.g prev.g
  let drg := s8 (channelDelta px.r prev.r - dg)
  let dbg := s8 (channelDelta px.b prev.b - dg)
  (-32 ≤ dg ∧ dg ≤ 31) ∧ (-8 ≤ drg ∧ drg ≤ 7) ∧ (-8 ≤ dbg ∧ dbg ≤ 7)

section SameAlpha

variable {px prev : Pixel}

theorem sameAlphaInstr_of_fitsDiff (h : FitsDiff px prev) : sameAlphaInstr px prev =
    diffInstr (channelDelta px.r prev.r) (channelDelta px.g prev.g) (channelDelta px.b prev.b) :=
  if_pos (diffFits_iff.2 h)

theorem sameAlphaInstr_of_fitsLuma (hd : ¬FitsDiff px prev) (h : FitsLuma px prev) : sameAlphaInstr px prev =
    lumaInstr (channelDelta px.g prev.g) (s8 (channelDelta px.r prev.r - channelDelta px.g prev.g))
      (s8 (channelDelta px.b prev.b - channelDelta px.g prev.g)) :=
  (if_neg (mt diffFits_iff.1 hd)).trans (if_pos (lumaFits_iff.2 h))

theorem sameAlphaInstr_of_no_fit (hd : ¬FitsDiff px prev) (hl : ¬FitsLuma px prev) :
    sameAlphaInstr px prev = .rgb px.r px.g px.b :=
  (if_neg (mt diffFits_iff.1 hd)).trans (if_neg (mt lumaFits_iff.1 hl))

end SameAlpha

/-- The three choices for a pixel of unchanged alpha, each with its condition. -/
theorem sameAlphaInstr_cases (px prev : Pixel) :
    (FitsDiff px prev ∧ sameAlphaInstr px prev =
      diffInstr (channelDelta px.r prev.r) (channelDelta px.g prev.g) (channelDelta px.b prev.b)) ∨
    (FitsLuma px prev ∧ sameAlphaInstr px prev =
      lumaInstr (channelDelta px.g prev.g) (s8 (channelDelta px.r prev.r - channelDelta px.g prev.g))
        (s8 (channelDelta px.b prev.b - channelDelta px.g prev.g))) ∨
    sameAlphaInstr px prev = .rgb px.r px.g px.b := by
  by_cases hd : FitsDiff px prev
  · exact .inl ⟨hd, sameAlphaInstr_of_fitsDiff hd⟩
  · by_cases hl : FitsLuma px prev
    · exact .inr (.inl ⟨hl, sameAlphaInstr_of_fitsLuma hd hl⟩)
    · exact .inr (.inr (sameAlphaInstr_of_no_fit hd hl))

/-! ### The choice, branch by branch (42_encoder R201) -/

section Choice

variable {s : State} {px : Pixel} (hl : s.loadPixel s.cursor = some px) (hne : px ≠ s.prev)
include hl hne

theorem State.encSelect_of_slot (h : s.cacheAt (pixelHash px) = px) :
    s.encSelect = some (.index (pixelHash px)) :=
  (State.encSelect_of_ne hl hne).trans (congrArg some (if_pos h))

theorem State.encSelect_of_alpha (h : s.cacheAt (pixelHash px) ≠ px) (ha : px.a = s.prev.a) :
    s.encSelect = some (sameAlphaInstr px s.prev) :=
  (State.encSelect_of_ne hl hne).trans (congrArg some ((if_neg h).trans (if_pos ha)))

theorem State.encSelect_of_alpha_ne (h : s.cacheAt (pixelHash px) ≠ px) (ha : px.a ≠ s.prev.a) :
    s.encSelect = some (.rgba px.r px.g px.b px.a) :=
  (State.encSelect_of_ne hl hne).trans (congrArg some ((if_neg h).trans (if_neg ha)))

end Choice

/-! ### The run count (42_encoder R205) -/

/-- Pixels equal to `PREV` from `k` up to `r` are counted, where the count stops at `r` for one of its three reasons:
the cap, the image's end, or a different pixel. -/
theorem State.countRun_eq {s : State} {room k r : Nat} (hk : k ≤ r) (hroom : r ≤ k + room) (hn : s.cursor + r ≤ s.n)
    (heq : ∀ j, k ≤ j → j < r → s.loadPixel (s.cursor + j) = some s.prev)
    (hend : r = k + room ∨ s.cursor + r = s.n ∨ ∃ q, s.loadPixel (s.cursor + r) = some q ∧ q ≠ s.prev) :
    s.countRun room k = some r := by
  induction room generalizing k with
  | zero => exact congrArg some (by omega)
  | succ room ih =>
    unfold State.countRun
    rcases Nat.eq_or_lt_of_le hk with rfl | hlt
    · rcases hend with h | h | ⟨q, hq, hne⟩
      · omega
      · exact if_neg (by omega)
      · simp [hq, hne]
    · rw [if_pos (by omega), heq k (le_refl _) hlt]
      dsimp only
      rw [if_pos rfl]
      exact ih hlt (by omega) (fun j hj => heq j (by omega)) (hend.imp_left fun h => by omega)

/-- Where every pixel of the image loads, so does every pixel of a run. -/
theorem State.countRun_isSome {s : State} (hload : ∀ i, i < s.n → ∃ p, s.loadPixel i = some p) (room k : Nat) :
    ∃ r, s.countRun room k = some r := by
  induction room generalizing k with
  | zero => exact ⟨k, rfl⟩
  | succ room ih =>
    unfold State.countRun
    split
    · obtain ⟨q, hq⟩ := hload _ ‹_›
      rw [hq]
      dsimp only
      split
      · exact ih (k + 1)
      · exact ⟨k, rfl⟩
    · exact ⟨k, rfl⟩

/-- Where every pixel of the image loads, the encoder has a choice. -/
theorem State.encSelect_isSome {s : State} (hc : s.cursor < s.n)
    (hload : ∀ i, i < s.n → ∃ p, s.loadPixel i = some p) : ∃ i, s.encSelect = some i := by
  obtain ⟨px, hl⟩ := hload _ hc
  by_cases hpx : px = s.prev
  · obtain ⟨r, hr⟩ := State.countRun_isSome hload (maxRun - 1) 1
    subst hpx
    exact ⟨_, State.encSelect_of_eq hl hr⟩
  · exact ⟨_, State.encSelect_of_ne hl hpx⟩

/-! ### The bounds of what is chosen (42_encoder R215) -/

theorem wellFormed_of_ne_run {i : Instr} (h : ∀ l, i ≠ .run l) : i.wellFormed = true := by
  cases i with
  | run l => exact absurd rfl (h l)
  | rgb | rgba | index | diff | luma => rfl

theorem State.wellFormed_of_encSelect {s : State} {i : Instr} (h : s.encSelect = some i) : i.wellFormed = true := by
  obtain ⟨px, hl, ⟨rfl, r, hr, rfl⟩ | ⟨-, rfl⟩⟩ := State.encSelect_cases h
  · obtain ⟨h1, h62, -⟩ := State.runLength_spec hr hl
    exact (runCount_storeRun h1 h62).2
  · exact wellFormed_of_ne_run (s.selectFor_ne_run px)

/-- The byte of a well-formed RUN is no literal's tag (30_encoding R108). -/
theorem encode_run_ne_literal_tag {l : BitVec 6} (hwf : (Instr.run l).wellFormed = true) {b0 : Byte}
    (hb : classify b0 ≠ .run) : encode (.run l) ≠ [b0] := by
  obtain ⟨b, payload, henc, hclass, -⟩ := Laws.TagFixesOpcode.run l hwf
  intro h
  rw [h] at henc
  cases henc
  exact hb hclass

/-- A choice that is neither INDEX nor RGBA is the one for a pixel of unchanged alpha. -/
theorem State.selectFor_eq_sameAlpha {s : State} {px : Pixel} (hi : ∀ j, s.selectFor px ≠ .index j)
    (ha : ∀ r g b a, s.selectFor px ≠ .rgba r g b a) : s.selectFor px = sameAlphaInstr px s.prev := by
  rcases s.selectFor_cases px with ⟨-, h⟩ | ⟨-, -, h⟩ | ⟨-, -, h⟩
  · exact absurd h (hi _)
  · exact h
  · exact absurd h (ha _ _ _ _)

/-- A DIFF or a LUMA the encoder chooses is the one `sameAlphaInstr` gives for the pixel at the cursor. -/
theorem State.encSelect_delta {s : State} {i : Instr} (h : s.encSelect = some i)
    (hi : i.opcode = .diff ∨ i.opcode = .luma) :
    ∃ px, s.loadPixel s.cursor = some px ∧ sameAlphaInstr px s.prev = i := by
  obtain ⟨px, hl, ⟨-, r, -, rfl⟩ | ⟨-, rfl⟩⟩ := State.encSelect_cases h
  · rcases hi with hi | hi <;> cases hi
  · refine ⟨px, hl, (State.selectFor_eq_sameAlpha (fun j hj => ?_) fun r g b a hj => ?_).symm⟩ <;>
      rw [hj] at hi <;> rcases hi with hi | hi <;> cases hi

/-- The slot of an INDEX the encoder chooses is where its pixel hashes to (42_encoder R206). -/
theorem State.pixelHash_of_encSelect_index {s : State} {idx : BitVec 6} (h : s.encSelect = some (.index idx)) :
    pixelHash (s.cacheAt idx) = idx := by
  obtain ⟨px, -, ⟨-, r, -, hi⟩ | ⟨-, hi⟩⟩ := State.encSelect_cases h
  · cases hi
  · rcases s.selectFor_cases px with ⟨hslot, hsel⟩ | ⟨-, -, hsel⟩ | ⟨-, -, hsel⟩
    · cases hi.trans hsel
      rw [hslot]
    · rcases sameAlphaInstr_cases px s.prev with ⟨-, hd⟩ | ⟨-, hd⟩ | hd <;> cases (hi.trans hsel).trans hd
    · cases hi.trans hsel

/-! ### The opcode step of the choice (42_encoder R211) -/

/-- Only the chosen opcode has a step in ENCODE. -/
theorem State.encSelect_of_exec {i : Instr} {s t : State} (h : exec i s = .next t) (hm : s.mode = .encode) :
    s.encSelect = some i := by
  obtain ⟨-, -, -, hx⟩ := exec_next h
  cases hx with
  | decodePixel hd => rw [hm] at hd; cases hd
  | decodeRun hd => rw [hm] at hd; cases hd
  | encodePixel _ _ _ _ hsel _ => exact hsel
  | encodeRun _ _ _ hsel _ => exact hsel

/-- An emission rule whose opcode is not the chosen one. -/
theorem State.encOpcode_of_not_selected {s : State} {i j : Instr} (commit : Pixel → State → State)
    (hsel : s.encSelect = some j) (hne : j ≠ i) : s.encOpcode i commit = .refused .notSelected := by
  obtain ⟨px, hl, -⟩ := State.encSelect_cases hsel
  unfold State.encOpcode
  rw [hl, hsel]
  exact if_neg hne

/-- A well-formed opcode in the body of an ENCODE is its emission rule. -/
theorem exec_eq_encOpcode {s : State} {i : Instr} (hwf : i.wellFormed = true) (hm : s.mode = .encode)
    (hp : s.phase = .body) (hc : s.cursor < s.n) : ∃ commit, exec i s = s.encOpcode i commit := by
  cases i with
  | run l => exact ⟨_, (exec_run hwf s).trans (opcodeStep_encode hp hc hm)⟩
  | rgb | rgba | index | diff | luma => exact ⟨_, opcodeStep_encode hp hc hm⟩

/-- The chosen opcode denotes the pixel at the cursor. -/
theorem State.denoted_of_encSelect {s : State} {i : Instr} (h : s.encSelect = some i) (hc : s.cursor < s.n) :
    s.loadPixel s.cursor = some (s.denoted i) := by
  refine State.loadPixel_of_encSelect h 0 ?_
  cases i with
  | run l => exact (clampedRun_bounds l hc).1
  | rgb | rgba | index | diff | luma => exact Nat.one_pos

/-- The phase an opcode step leaves is no error. -/
theorem State.phaseAt_ne_error (s : State) (k : Nat) : s.phaseAt k ≠ .error := by
  unfold State.phaseAt
  split <;> exact Phase.noConfusion

/-- A body step of ENCODE is the step of the chosen opcode. -/
theorem step_of_encSelect {s : State} {i : Instr} (hm : s.mode = .encode) (hp : s.phase = .body) (hc : s.cursor < s.n)
    (hsel : s.encSelect = some i) : step s = exec i s := by
  rw [step_body_encode hp hc hm, hsel]

/-- The step of the chosen opcode, where the sink accepts its bytes: they are emitted, and the pixel the opcode denotes
is committed. -/
theorem exec_encode_of_accepted {s : State} {i : Instr} (hm : s.mode = .encode) (hp : s.phase = .body)
    (hc : s.cursor < s.n) (hsel : s.encSelect = some i)
    (hok : ∀ j, j < (encode i).length → s.sinkEnd.answer (s.bpos + j) = .ok) :
    ∃ t, exec i s = .next t ∧ PixelEffect s t i ∧ s.Emitted t (encode i) (s.pixelCount i) := by
  obtain ⟨commit, hexec, hcommit⟩ := exec_of_selected hm hp hc hsel (State.wellFormed_of_encSelect hsel)
  have hnext : exec i s = .next (commit (s.sentAs (encode i))) := hexec.trans (State.emitThen_of_ok commit hok)
  have hne : (commit (s.sentAs (encode i))).phase ≠ .error := by
    rcases hcommit with ⟨px, wc, -, rfl⟩ | ⟨l, -, rfl⟩
    · obtain ⟨-, -, -, -, hphase, -⟩ := State.encCommit_sent hp (encode i) px wc
      exact hphase ▸ s.phaseAt_ne_error _
    · obtain ⟨-, -, -, -, hphase, -⟩ := State.encRunCommit_sent hp (encode i) (runCount l)
      exact hphase ▸ s.phaseAt_ne_error _
  exact ⟨_, hnext, exec_encode_sent hnext hm hne⟩

/-- Where an ENCODE opcode step of one pixel is due and writes the cache: RGB, RGBA, DIFF and LUMA. -/
theorem State.EncodeDue.exec_of_writesCache {s : State} {px : Pixel} {i : Instr}
    (hdue : s.EncodeDue px (encode i).length) (hsel : s.encSelect = some i) (hw : writesCache i = true) :
    ∃ t, exec i s = .next t ∧ t.prev = px ∧ s.CacheWritten t px ∧ s.Emitted t (encode i) 1 := by
  obtain ⟨hm, hp, hc, hl, hok⟩ := hdue
  obtain ⟨t, ht, heff, hE⟩ := exec_encode_of_accepted hm hp hc hsel hok
  obtain rfl : s.denoted i = px := Option.some.inj ((State.denoted_of_encSelect hsel hc).symm.trans hl)
  exact ⟨t, ht, heff.prev, heff.cacheWritten hw, (one_pixel_of_writesCache hw s).2 ▸ hE⟩

/-- Where an ENCODE opcode step is due that leaves the cache alone: INDEX and RUN. -/
theorem State.EncodeDue.exec_of_not_writesCache {s : State} {px : Pixel} {i : Instr}
    (hdue : s.EncodeDue px (encode i).length) (hsel : s.encSelect = some i) (hw : writesCache i = false) :
    ∃ t, exec i s = .next t ∧ t.prev = px ∧ (∀ j, t.cacheAt j = s.cacheAt j) ∧
      s.Emitted t (encode i) (s.pixelCount i) := by
  obtain ⟨hm, hp, hc, hl, hok⟩ := hdue
  obtain ⟨t, ht, heff, hE⟩ := exec_encode_of_accepted hm hp hc hsel hok
  obtain rfl : s.denoted i = px := Option.some.inj ((State.denoted_of_encSelect hsel hc).symm.trans hl)
  exact ⟨t, ht, heff.prev, heff.cacheAt_kept hw, hE⟩

/-! ### An emission the sink fails (42_encoder R211, 60_exceptions R276) -/

theorem State.emitThen_of_ioFail {s : State} {bs : List Byte} (commit : State → State) {k : Nat} (hk : k < bs.length)
    (hok : ∀ j, j < k → s.sinkEnd.answer (s.bpos + j) = .ok) (hf : s.sinkEnd.answer (s.bpos + k) = .ioFail) :
    s.emitThen bs commit = .next ((s.sentAs (bs.take k)).raise .io) := by
  unfold State.emitThen
  rw [State.emit_of_ioFail hk hok hf]

/-- `OUT` after an emission: its bytes stand from `BPOS` on, and every other byte is as it was. -/
theorem State.read_out_sentAs_cases (s : State) (bs : List Byte) :
    (∀ j, j < bs.length → Mem.read (s.sentAs bs).out (s.bpos + j) = bs[j]?) ∧
      ∀ a, ¬(s.bpos ≤ a ∧ a < s.bpos + bs.length) → Mem.read (s.sentAs bs).out a = Mem.read s.out a := by
  refine ⟨fun j hj => ?_, fun a ha => ?_⟩
  · rw [State.read_out_sentAs, if_pos (by omega), Nat.add_sub_cancel_left]
  · rw [State.read_out_sentAs, if_neg ha]

/-- `OUT` after the bytes before a failing one. -/
theorem State.read_out_sentAs_take (s : State) {bs : List Byte} {k : Nat} (hk : k ≤ bs.length) :
    (∀ j, j < k → Mem.read (s.sentAs (bs.take k)).out (s.bpos + j) = bs[j]?) ∧
      ∀ a, ¬(s.bpos ≤ a ∧ a < s.bpos + k) → Mem.read (s.sentAs (bs.take k)).out a = Mem.read s.out a := by
  obtain ⟨hin, hout⟩ := s.read_out_sentAs_cases (bs.take k)
  rw [List.length_take_of_le hk] at hin hout
  exact ⟨fun j hj => (hin j hj).trans (List.getElem?_take_of_lt hj), hout⟩

/-! ### The bytes of an opcode, written out (30_encoding R103 to R108) -/

/-- Two bit fields side by side, as a shift and an or. -/
theorem append_eq_or {m n : Nat} (x : BitVec m) (y : BitVec n) :
    x ++ y = (x.setWidth (m + n) <<< n) ||| y.setWidth (m + n) := by
  rw [BitVec.append_def, BitVec.shiftLeftZeroExtend_eq, BitVec.setWidth'_eq]

theorem encode_index (idx : BitVec 6) : encode (.index idx) = [BitVec.ofNat 8 idx.toNat] := by
  show [0b00#2 ++ idx] = _
  rw [append_eq_or]
  simp

theorem encode_run (l : BitVec 6) : encode (.run l) = [0xC0#8 ||| l.setWidth 8] :=
  congrArg ([·]) (append_eq_or 0b11#2 l)

theorem encode_luma (dg32 : BitVec 6) (drg8 dbg8 : BitVec 4) : encode (.luma dg32 drg8 dbg8) =
    [0x80#8 ||| dg32.setWidth 8, (drg8.setWidth 8 <<< 4) ||| dbg8.setWidth 8] :=
  congrArg₂ ([·, ·]) (append_eq_or 0b10#2 dg32) (append_eq_or drg8 dbg8)

theorem encode_diff (dr2 dg2 db2 : BitVec 2) : encode (.diff dr2 dg2 db2) =
    [0x40#8 ||| (dr2.setWidth 8 <<< 4) ||| (dg2.setWidth 8 <<< 2) ||| db2.setWidth 8] := by
  revert dr2 dg2 db2
  decide

/-- A field's value as a byte. -/
theorem setWidth_ofInt_of_fits {n : Nat} (w : Nat) {d : Int} (h0 : 0 ≤ d) (h1 : d < 2 ^ n) :
    (BitVec.ofInt n d).setWidth w = BitVec.ofInt w d := by
  obtain ⟨k, rfl⟩ := Int.eq_ofNat_of_zero_le h0
  have hk : k < 2 ^ n := by exact_mod_cast h1
  rw [BitVec.ofInt_natCast, BitVec.ofInt_natCast]
  apply BitVec.eq_of_toNat_eq
  rw [BitVec.toNat_setWidth, BitVec.toNat_ofNat, BitVec.toNat_ofNat, Nat.mod_eq_of_lt hk]

end Sys2Proof.Machine
end

section
/-! SUPPORT. The round trip (42_encoder R216): an ENCODE whose sink accepts runs to DONE, and a DECODE of its `OUT`
mirrors it step by step. -/

namespace Sys2Proof.Machine

/-! ### The run of a command -/

/-- Steps of a running command, none of which ends in an error. -/
inductive CommandRun : State → State → Prop where
  | refl (s : State) : CommandRun s s
  | head {s u t : State} (hrun : s.mayIssue = false) (h : step s = .next u) (hne : u.phase ≠ .error)
      (rest : CommandRun u t) : CommandRun s t

theorem CommandRun.exists_steps {s t : State} (hr : CommandRun s t) : ∃ k, steps k s = .next t := by
  induction hr with
  | refl s => exact ⟨0, rfl⟩
  | head _ h _ _ ih =>
    obtain ⟨k, hk⟩ := ih
    exact ⟨k + 1, (steps_succ k h).trans hk⟩

/-- A property that every step of a running command keeps holds at the end of a run. -/
theorem CommandRun.keeps {P : State → Prop} (hstep : ∀ s u, step s = .next u → RunNext s u → P s → P u) {s t : State}
    (hr : CommandRun s t) (h : P s) : P t := by
  induction hr with
  | refl s => exact h
  | head hrun hs _ _ ih => exact ih (hstep _ _ hs (step_running hrun hs) h)

theorem CommandRun.inv {s t : State} (hr : CommandRun s t) (h : s.Inv) : t.Inv :=
  hr.keeps (fun s u hs _ hi => stepKeepsTheInvariant s u hi hs) h

theorem CommandRun.memWf {s t : State} (hr : CommandRun s t) (h : s.MemWf) : t.MemWf :=
  hr.keeps (fun _ _ _ hr => hr.memWf) h

theorem State.KeepsInputs.trans {s u t : State} (h : s.KeepsInputs u) (h' : u.KeepsInputs t) : s.KeepsInputs t where
  mode := h'.mode.trans h.mode
  inp := h'.inp.trans h.inp
  inEnd := h'.inEnd.trans h.inEnd
  sinkEnd := h'.sinkEnd.trans h.sinkEnd
  commands := h'.commands.trans h.commands
  params := h'.params.trans h.params
  draws := h'.draws.trans h.draws

theorem CommandRun.keepsInputs {s t : State} (hr : CommandRun s t) : s.KeepsInputs t :=
  hr.keeps (P := s.KeepsInputs) (fun _ _ _ hr h => h.trans hr.keepsInputs) (by constructor <;> rfl)

/-! ### What a running ENCODE keeps -/

/-- The image an ENCODE reads, and the bytes of `OUT` accepted so far (20_memory R72, R73). -/
structure EncodeKeeps (s t : State) : Prop where
  mode : t.mode = s.mode
  w : t.w = s.w
  h : t.h = s.h
  c : t.c = s.c
  pb : t.pb = s.pb
  bpos : s.bpos ≤ t.bpos
  out : ∀ a, a < s.bpos → Mem.read t.out a = Mem.read s.out a

theorem EncodeKeeps.trans {s u t : State} (h : EncodeKeeps s u) (h' : EncodeKeeps u t) : EncodeKeeps s t where
  mode := h'.mode.trans h.mode
  w := h'.w.trans h.w
  h := h'.h.trans h.h
  c := h'.c.trans h.c
  pb := h'.pb.trans h.pb
  bpos := h.bpos.trans h'.bpos
  out a ha := (h'.out a (Nat.lt_of_lt_of_le ha h.bpos)).trans (h.out a ha)

theorem EncodeKeeps.n {s t : State} (h : EncodeKeeps s t) : t.n = s.n := by
  unfold State.n; rw [h.w, h.h]

theorem EncodeKeeps.channels {s t : State} (h : EncodeKeeps s t) : t.channels = s.channels :=
  congrArg BitVec.toNat h.c

/-- The dimensions are latched in DECODE alone (10_state R39). -/
theorem RunNext.dims_of_encode {s t : State} (hr : RunNext s t) (hm : s.mode = .encode) :
    t.w = s.w ∧ t.h = s.h ∧ t.c = s.c := by
  cases hr with
  | readFailed hd => rw [hm] at hd; cases hd
  | writeFailed _ _ _ _ ht => subst ht; exact ⟨rfl, rfl, rfl⟩
  | headerRead _ hd => rw [hm] at hd; cases hd
  | headerWritten _ _ _ ht => subst ht; exact ⟨rfl, rfl, rfl⟩
  | opcode _ _ _ _ ha =>
    obtain ⟨-, hw, hh, hc, -⟩ := ha.keeps
    exact ⟨hw, hh, hc⟩
  | bodyOver _ _ ht => subst ht; exact ⟨rfl, rfl, rfl⟩
  | markerRead _ hd => rw [hm] at hd; cases hd
  | markerWritten _ _ ht => subst ht; exact ⟨rfl, rfl, rfl⟩

theorem RunNext.encodeKeeps {s t : State} (hr : RunNext s t) (hm : s.mode = .encode) : EncodeKeeps s t := by
  obtain ⟨hw, hh, hc⟩ := hr.dims_of_encode hm
  cases hr.memoryWrites with
  | decode hd => rw [hm] at hd; cases hd
  | encode _ hpb bs hout =>
    refine ⟨hr.keepsInputs.mode, hw, hh, hc, hpb, hr.cursors_le.1, fun a ha => ?_⟩
    rw [hout, State.read_out_sentAs, if_neg (by omega)]

theorem CommandRun.encodeKeeps {s t : State} (hr : CommandRun s t) (hm : s.mode = .encode) : EncodeKeeps s t :=
  hr.keeps (P := EncodeKeeps s) (fun _ _ _ hr h => h.trans (hr.encodeKeeps (h.mode.trans hm)))
    ⟨rfl, rfl, rfl, rfl, rfl, le_refl _, fun _ _ => rfl⟩

/-! ### An ENCODE whose sink accepts runs to DONE -/

theorem State.answer_of_never {s : State} (h : s.sinkEnd = .never) (o : Nat) : s.sinkEnd.answer o = .ok := by
  rw [h]; rfl

/-- Every pixel of a buffer supplied whole loads (20_memory R73, R77). -/
theorem State.exists_loadPixel {s : State} (hd : s.DimsOk) (hs : s.SuppliedWhole) {i : Nat} (hi : i < s.n) :
    ∃ p, s.loadPixel i = some p := by
  obtain ⟨-, -, hc, hsize⟩ := hd
  have hfit : (i + 1) * s.channels ≤ s.n * s.channels := Nat.mul_le_mul_right _ hi
  rw [Nat.add_mul, Nat.one_mul] at hfit
  have hbyte : ∀ j, j < s.channels → ∃ b, s.pbRead (i * s.channels + j) = some b := fun j hj =>
    Option.isSome_iff_exists.1 ((hs _ _ hsize).trans (decide_eq_true (by omega)))
  have hch : s.c = 3 ∧ s.channels = 3 ∨ s.c = 4 ∧ s.channels = 4 :=
    hc.imp (fun h => ⟨h, congrArg BitVec.toNat h⟩) fun h => ⟨h, congrArg BitVec.toNat h⟩
  obtain ⟨r, hr⟩ := hbyte 0 (by omega)
  obtain ⟨g, hg⟩ := hbyte 1 (by omega)
  obtain ⟨b, hb⟩ := hbyte 2 (by omega)
  rcases hch with ⟨hc, -⟩ | ⟨hc, hch⟩
  · exact ⟨⟨r, g, b, 255⟩, State.loadPixel_of_pixelAt (.inl hc)
      ⟨hr, hg, hb, fun h4 => by rw [hc] at h4; cases h4⟩ fun _ => rfl⟩
  · obtain ⟨a, ha⟩ := hbyte 3 (by omega)
    exact ⟨⟨r, g, b, a⟩, State.loadPixel_of_pixelAt (.inr hc)
      ⟨hr, hg, hb, fun _ => ha⟩ fun h3 => by rw [hc] at h3; cases h3⟩

/-- A body step of ENCODE, where the sink accepts, moves on. -/
theorem step_encode_body_of_never {s : State} (hm : s.mode = .encode) (hp : s.phase = .body)
    (hsink : s.sinkEnd = .never) (hinv : s.Inv) :
    ∃ t, step s = .next t ∧ t.phase ≠ .error ∧ s.cursor < t.cursor := by
  obtain ⟨hloop, hbuf⟩ := hinv
  obtain ⟨hd, hc, -⟩ := (State.loopOk_body hp).1 hloop
  obtain ⟨hpb, -⟩ := hbuf.encode hm (by simp [hp])
  obtain ⟨i, hsel⟩ := State.encSelect_isSome hc fun _ => State.exists_loadPixel hd hpb
  obtain ⟨t, ht, -, -, -, hphase, -⟩ := exec_encode_of_accepted hm hp hc hsel fun _ _ => State.answer_of_never hsink _
  have hne : t.phase ≠ .error := hphase ▸ s.phaseAt_ne_error _
  exact ⟨t, (step_of_encSelect hm hp hc hsel).trans ht, hne, (cursorsOnlyMoveForward.2 i s t ht hne).1⟩

/-- Each body step moves the cursor, so the pixels left get fewer until the end marker is due (42_encoder R212). -/
theorem commandRun_of_encode_body {s : State} (hm : s.mode = .encode) (hp : s.phase = .body)
    (hsink : s.sinkEnd = .never) (hinv : s.Inv) : ∃ t, CommandRun s t ∧ t.phase = .done := by
  induction hk : s.n - s.cursor using Nat.strong_induction_on generalizing s with
  | _ k ih =>
    have hi : s.mayIssue = false := State.mayIssue_eq_false.2 (.inr (.inl hp))
    obtain ⟨u, hu, hne, hcur⟩ := step_encode_body_of_never hm hp hsink hinv
    have hr := step_running hi hu
    have hkeep := hr.keepsInputs
    have hmu : u.mode = .encode := hkeep.mode.trans hm
    have hsinku : u.sinkEnd = .never := hkeep.sinkEnd.trans hsink
    have hphase : u.phase = .body ∨ u.phase = .trailer := by simpa [hp, hne] using hr.phase_cases
    rcases hphase with hpu | hpu
    · obtain ⟨-, hc, -⟩ := (State.loopOk_body hp).1 hinv.1
      have hn : u.n = s.n := (hr.encodeKeeps hm).n
      obtain ⟨t, ht, hdone⟩ := ih (u.n - u.cursor) (by omega) hmu hpu hsinku
        (stepKeepsTheInvariant s u hinv hu) rfl
      exact ⟨t, .head hi hu hne ht, hdone⟩
    · have hmark : step u = .next (u.sentAs endMarker).finish := (step_trailer_encode hpu hmu).trans
        (State.emitThen_of_ok State.finish fun _ _ => State.answer_of_never hsinku _)
      exact ⟨_, .head hi hu hne (.head (State.mayIssue_eq_false.2 (.inr (.inr hpu))) hmark (by simp) (.refl _)), rfl⟩

/-! ### The bytes of `OUT` as a list (42_encoder R214) -/

theorem Mem.map_snd_ofBytesFrom (a : Nat) (vs : List Byte) :
    (Mem.ofBytesFrom a vs).map (fun cell => cell.2) = vs := by
  induction vs generalizing a with
  | nil => rfl
  | cons v vs ih => exact congrArg (v :: ·) (ih (a + 1))

/-- A canonical memory with a value below `k` and nowhere else is the list of its bytes. -/
theorem Mem.eq_ofBytesFrom {m : Mem} {k : Nat} (hwf : Mem.wf m)
    (h : ∀ o, (Mem.read m o).isSome = decide (o < k)) :
    m = Mem.ofBytesFrom 0 ((List.range k).map fun o => (Mem.read m o).getD 0) := by
  refine Mem.ext_of_read hwf (Mem.ofBytesFrom_wf _ _) fun o => ?_
  rw [Mem.read_ofBytesFrom, if_pos (Nat.zero_le o), Nat.sub_zero, List.getElem?_map]
  have ho := h o
  by_cases hlt : o < k
  · obtain ⟨b, hb⟩ := Option.isSome_iff_exists.1 (ho.trans (decide_eq_true hlt))
    rw [List.getElem?_range hlt, Option.map_some, hb]
    rfl
  · rw [decide_eq_false hlt] at ho
    rw [List.getElem?_eq_none (by simpa using hlt)]
    exact Option.isNone_iff_eq_none.1 (by simpa using ho)

/-- The bytes of `OUT` that an ENCODE hands to its host are `OUT` itself. -/
theorem State.ofBytesFrom_outBytes {s : State} (hwf : Mem.wf s.out) (hexact : s.OutExact) :
    Mem.ofBytesFrom 0 s.outBytes = s.out := by
  have h := Mem.eq_ofBytesFrom hwf hexact
  unfold State.outBytes
  rw [h, Mem.map_snd_ofBytesFrom]

/-! ### The bytes of `PB` outside the image -/

/-- `PB` lists no byte outside its size (20_memory R82). -/
def State.PbBounded (s : State) : Prop := ∀ pb, s.pb = some pb → ∀ a, pb.size ≤ a → Mem.read pb.bytes a = none

theorem State.PbBounded.congr {s t : State} (h : s.PbBounded) (hpb : t.pb = s.pb) : t.PbBounded := by
  unfold State.PbBounded
  rw [hpb]
  exact h

theorem State.PbBounded.storePixels {m i : Nat} {p : Pixel} {s u : State} (h : s.PbBounded)
    (hu : State.storePixels m i p s = some u) : u.PbBounded := by
  induction m generalizing i s with
  | zero => cases hu; exact h
  | succ m ih =>
    unfold State.storePixels at hu
    cases hs : s.storePixel i p with
    | none => rw [hs] at hu; cases hu
    | some q =>
      rw [hs] at hu
      obtain ⟨k, bytes, hpb, hfit, rfl⟩ := State.storePixel_eq_some hs
      refine ih ?_ hu
      rintro pb ⟨⟩ a (ha : k ≤ a)
      rw [Mem.read_writeList, if_neg (by omega)]
      exact h _ hpb a ha

/-- An opcode step of DECODE lists no byte outside `PB`. -/
theorem State.PbBounded.exec {i : Instr} {s t : State} (h : s.PbBounded) (hm : s.mode = .decode)
    (hx : exec i s = .next t) : t.PbBounded := by
  obtain ⟨-, -, -, hx⟩ := exec_next hx
  cases hx with
  | decodePixel _ wc px hx =>
    obtain ⟨u, hu, rfl⟩ := State.decPixel_next hx
    rw [← State.storePixels_one] at hu
    exact (h.storePixels hu).congr (by simp)
  | decodeRun _ l _ hx =>
    obtain ⟨u, hu, rfl⟩ := State.decRun_next hx
    exact (h.storePixels hu).congr (by simp)
  | encodePixel he => rw [hm] at he; cases he
  | encodeRun he => rw [hm] at he; cases he

/-! ### The DECODE that mirrors an ENCODE (40_color_cache R148) -/

/-- A DECODE `d` stands where an ENCODE `e` stands, and holds the pixels that `e` has consumed. -/
structure Mirrors (e d : State) : Prop where
  mode : d.mode = .decode
  phase : d.phase = e.phase
  prev : d.prev = e.prev
  cache : d.cache = e.cache
  cursor : d.cursor = e.cursor
  bpos : d.bpos = e.bpos
  w : d.w = e.w
  h : d.h = e.h
  c : d.c = e.c
  endWarn : d.endWarn = false
  inv : d.Inv
  memWf : d.MemWf
  bounded : d.PbBounded
  pixels : ∀ a, a < e.cursor * e.channels → d.pbRead a = e.pbRead a

theorem Mirrors.n {e d : State} (h : Mirrors e d) : d.n = e.n := by
  unfold State.n; rw [h.w, h.h]

theorem Mirrors.channels {e d : State} (h : Mirrors e d) : d.channels = e.channels := congrArg BitVec.toNat h.c

theorem Mirrors.decodeDue {e d : State} (h : Mirrors e d) (hp : e.phase = .body) : d.DecodeDue := by
  have hpd := h.phase.trans hp
  obtain ⟨hd, hc, -⟩ := (State.loopOk_body hpd).1 h.inv.1
  exact ⟨h.mode, hpd, hc, hd⟩

/-- The bytes of a pixel that `PB` holds (20_memory R78). -/
theorem State.PixelAt.pbRead_eq {t : State} {i a : Nat} {p : Pixel} (h : t.PixelAt i p) (hc : t.c = 3 ∨ t.c = 4)
    (hlo : i * t.channels ≤ a) (hhi : a < (i + 1) * t.channels) :
    t.pbRead a = (pixelBytes t.c p)[a - i * t.channels]? := by
  obtain ⟨h0, h1, h2, h3⟩ := h
  rw [Nat.add_mul, Nat.one_mul] at hhi
  obtain ⟨j, rfl⟩ := Nat.exists_eq_add_of_le hlo
  rw [Nat.add_sub_cancel_left]
  have hj : j < t.channels := by omega
  rcases hc with hc | hc
  · have hch : t.channels = 3 := congrArg BitVec.toNat hc
    rw [hc]
    obtain rfl | rfl | rfl : j = 0 ∨ j = 1 ∨ j = 2 := by omega
    · exact h0
    · exact h1
    · exact h2
  · have hch : t.channels = 4 := congrArg BitVec.toNat hc
    rw [hc]
    obtain rfl | rfl | rfl | rfl : j = 0 ∨ j = 1 ∨ j = 2 ∨ j = 3 := by omega
    · exact h0
    · exact h1
    · exact h2
    · exact h3 hc

/-- A body step without an error is an opcode step that moved forward. -/
theorem exec_of_step_body {s t : State} (hp : s.phase = .body) (hc : s.cursor < s.n) (h : step s = .next t)
    (hne : t.phase ≠ .error) : ∃ i m, exec i s = .next t ∧ OpcodeAdvance s t m := by
  cases step_running (State.mayIssue_eq_false.2 (.inr (.inl hp))) h with
  | readFailed _ _ _ _ ht => subst ht; exact absurd rfl hne
  | writeFailed _ _ _ _ ht => subst ht; exact absurd rfl hne
  | headerRead hh => rw [hp] at hh; cases hh
  | headerWritten hh => rw [hp] at hh; cases hh
  | opcode _ i m hx ha => exact ⟨i, m, hx, ha⟩
  | bodyOver _ hover => exact absurd hc hover
  | markerRead hh => rw [hp] at hh; cases hh
  | markerWritten hh => rw [hp] at hh; cases hh

theorem State.pbRead_congr {s t : State} (h : t.pb = s.pb) (a : Nat) : t.pbRead a = s.pbRead a := by
  unfold State.pbRead; rw [h]

/-- Where both engines hold the same pixel, they hold the same bytes. -/
theorem pbRead_eq_of_loadPixel {s t : State} {i a : Nat} {p : Pixel} (hs : s.loadPixel i = some p)
    (ht : t.loadPixel i = some p) (hc : s.c = 3 ∨ s.c = 4) (hct : t.c = s.c) (hlo : i * s.channels ≤ a)
    (hhi : a < (i + 1) * s.channels) : t.pbRead a = s.pbRead a := by
  have hch : t.channels = s.channels := congrArg BitVec.toNat hct
  rw [(State.pixelAt_of_loadPixel hs).pbRead_eq hc hlo hhi,
    (State.pixelAt_of_loadPixel ht).pbRead_eq (hct ▸ hc) (hch ▸ hlo) (hch ▸ hhi), hct, hch]

/-- The bytes of the pixels before the cursor: those decoded before are left alone, and the new ones load alike. -/
theorem Mirrors.pixels_after {e e' d d' : State} (h : Mirrors e d) (hke : EncodeKeeps e e')
    (hcur : e.cursor ≤ e'.cursor) (hc : e.c = 3 ∨ e.c = 4) (hcd : d'.c = e.c)
    (hframe : ∀ a, a < e.cursor * e.channels → d'.pbRead a = d.pbRead a)
    (hload : ∀ k, e.cursor ≤ k → k < e'.cursor → ∃ p, e.loadPixel k = some p ∧ d'.loadPixel k = some p) :
    ∀ a, a < e'.cursor * e'.channels → d'.pbRead a = e'.pbRead a := by
  intro a hlt
  rw [hke.channels] at hlt
  rw [State.pbRead_congr hke.pb]
  by_cases ha : a < e.cursor * e.channels
  · rw [hframe a ha, h.pixels a ha]
  · obtain ⟨m, hm⟩ := Nat.exists_eq_add_of_le hcur
    obtain ⟨k, hk, hlo, hhi⟩ := exists_pixel_of_byte (Nat.le_of_not_lt ha) (hm ▸ hlt)
    obtain ⟨p, hpe, hpd⟩ := hload (e.cursor + k) (by omega) (by omega)
    exact pbRead_eq_of_loadPixel hpe hpd hc hcd hlo hhi

/-- An opcode step of the encoder is mirrored (`encoderAndDecoderStayInLockstep`); the pixels decoded before it are left
alone. -/
theorem Mirrors.body_step {e e' d : State} (h : Mirrors e d) (hm : e.mode = .encode) (hp : e.phase = .body)
    (hs : step e = .next e') (hne : e'.phase ≠ .error)
    (hbytes : ∀ o, e.bpos ≤ o → o < e'.bpos → Mem.read d.inp o = Mem.read e'.out o) :
    ∃ d', step d = .next d' ∧ Mirrors e' d' := by
  have hdue := h.decodeDue hp
  obtain ⟨-, hpd, hcd, -, -, hc34, -⟩ := id hdue
  have hce : e.cursor < e.n := h.cursor ▸ h.n ▸ hcd
  obtain ⟨d', hd', hprev, hcache, hcur, hbpos, hphase, hload⟩ := encoderAndDecoderStayInLockstep e e' d hm hp hce hs hne
    hdue h.prev h.cache h.cursor h.bpos h.w h.h h.c hbytes
  have hre := step_running (State.mayIssue_eq_false.2 (.inr (.inl hp))) hs
  have hke := hre.encodeKeeps hm
  have hrd := step_running (State.mayIssue_eq_false.2 (.inr (.inl hpd))) hd'
  obtain ⟨i, m, hx, ha⟩ := exec_of_step_body hpd hcd hd' (hphase ▸ hne)
  obtain ⟨-, hw, hh, -⟩ := ha.keeps
  have hc : d'.c = e.c := ha.keeps.c.trans h.c
  obtain ⟨_, _, -, -, -, -, hrest, -⟩ := exec_decode_produced hx hdue
  have hframe : ∀ a, a < e.cursor * e.channels → d'.pbRead a = d.pbRead a := fun a hlt => by
    rw [← h.cursor, ← h.channels] at hlt
    exact hrest a fun hin => Nat.not_lt.2 hin.1 hlt
  exact ⟨d', hd', {
    mode := ha.keeps.mode.trans h.mode
    phase := hphase
    prev := hprev
    cache := hcache
    cursor := hcur
    bpos := hbpos
    w := (hw.trans h.w).trans hke.w.symm
    h := (hh.trans h.h).trans hke.h.symm
    c := hc.trans hke.c.symm
    endWarn := ha.keeps.endWarn.trans h.endWarn
    inv := stepKeepsTheInvariant d d' h.inv hd'
    memWf := hrd.memWf h.memWf
    bounded := h.bounded.exec h.mode hx
    pixels := h.pixels_after hke hre.cursors_le.2 (h.c ▸ hc34) hc hframe hload }⟩

/-- The end marker of the encoder is read without a warning (`decodeChecksTheEndMarker`). -/
theorem Mirrors.trailer_step {e e' d : State} (h : Mirrors e d) (hm : e.mode = .encode) (hp : e.phase = .trailer)
    (hs : step e = .next e') (hne : e'.phase ≠ .error)
    (hbytes : ∀ o, e.bpos ≤ o → o < e'.bpos → Mem.read d.inp o = Mem.read e'.out o) :
    ∃ d', step d = .next d' ∧ Mirrors e' d' := by
  rw [step_trailer_encode hp hm] at hs
  rcases State.emitThen_next hs with rfl | ⟨k, -, -, rfl⟩
  · have hpd := h.phase.trans hp
    obtain ⟨hin, -⟩ := e.read_out_sentAs_cases endMarker
    have hmarker : ∀ j, j < 8 → Mem.read d.inp (d.bpos + j) = some (if j < 7 then 0x00 else 0x01) := fun j hj => by
      rw [h.bpos, hbytes _ (Nat.le_add_right _ _) (Nat.add_lt_add_left hj _)]
      exact (hin j hj).trans (endMarker_getElem? hj)
    have hd := (decodeChecksTheEndMarker d 8 hpd h.mode (le_refl _) hmarker).1 rfl
    have hrd := step_running (State.mayIssue_eq_false.2 (.inr (.inr hpd))) hd
    exact ⟨_, hd, {
      h with
      phase := rfl
      bpos := congrArg (· + 8) h.bpos
      inv := stepKeepsTheInvariant _ _ h.inv hd
      memWf := hrd.memWf h.memWf }⟩
  · exact absurd rfl hne

/-- A DECODE that mirrors an ENCODE mirrors the rest of its run, where it reads the bytes that the rest writes. -/
theorem Mirrors.follow {e t d : State} (hrun : CommandRun e t) (h : Mirrors e d) (hm : e.mode = .encode)
    (hp : e.phase ≠ .header) (hbytes : ∀ o, e.bpos ≤ o → Mem.read d.inp o = Mem.read t.out o) :
    ∃ v, CommandRun d v ∧ Mirrors t v := by
  induction hrun generalizing d with
  | refl e => exact ⟨d, .refl d, h⟩
  | @head e e' t hi hs hne rest ih =>
    have hr := step_running hi hs
    have hke := hr.encodeKeeps hm
    have hme := hke.mode.trans hm
    have hread : ∀ o, e.bpos ≤ o → o < e'.bpos → Mem.read d.inp o = Mem.read e'.out o := fun o h1 h2 =>
      (hbytes o h1).trans ((rest.encodeKeeps hme).out o h2)
    obtain ⟨d', hd', h'⟩ : ∃ d', step d = .next d' ∧ Mirrors e' d' := by
      rcases State.mayIssue_eq_false.1 hi with hh | hb | ht
      · exact absurd hh hp
      · exact h.body_step hm hb hs hne hread
      · exact h.trailer_step hm ht hs hne hread
    have hid : d.mayIssue = false := by rw [← hi]; unfold State.mayIssue; rw [h.phase]
    have hinp : d'.inp = d.inp := (step_running hid hd').keepsInputs.inp
    have hp' : e'.phase ≠ .header := by
      intro hh
      have := hr.phase_cases
      simp [hh] at this
    obtain ⟨v, hv, hM⟩ := ih h' hme hp' fun o ho => by rw [hinp]; exact hbytes o (hke.bpos.trans ho)
    exact ⟨v, .head hid hd' (h'.phase ▸ hne) hv, hM⟩

/-! ### The header step of each engine (43_header_codec R241, R243, R245) -/

theorem step_encode_header_of_accepted {s : State} (hp : s.phase = .header) (hm : s.mode = .encode) (hd : s.DimsOk)
    (hadm : Params.admits s.params s.n = true) (hok : ∀ j, j < 14 → s.sinkEnd.answer (s.bpos + j) = .ok) :
    step s = .next { s.sentAs (headerBytes s.w s.h s.c s.cs) with phase := .body } := by
  rw [step_header_encode hp hm]
  unfold encodeHeader
  rw [if_pos (State.encodeOperandsOk_iff.2 ⟨hd, hadm⟩)]
  exact State.emitThen_of_ok _ hok

/-- The header bytes of an ENCODE stand in `OUT` at the end of its run. -/
theorem read_out_of_header {s t : State} (hm : s.mode = .encode)
    (hrun : CommandRun { s.sentAs (headerBytes s.w s.h s.c s.cs) with phase := .body } t) {j : Nat} (hj : j < 14) :
    Mem.read t.out (s.bpos + j) = (headerBytes s.w s.h s.c s.cs)[j]? :=
  ((hrun.encodeKeeps hm).out _ (Nat.add_lt_add_left hj _)).trans ((s.read_out_sentAs_cases _).1 j hj)

/-- Where the bytes that ENCODE writes stand at `BPOS`, DECODE latches their fields (43_header_codec R247). -/
theorem step_decode_header_of_headerBytes {s : State} {w h : Word} {c cs : Byte} (hp : s.phase = .header)
    (hm : s.mode = .decode) (hcheck : (Header.mk magic w h c cs).check s.params = none)
    (hbytes : ∀ j, j < 14 → Mem.read s.inp (s.bpos + j) = (headerBytes w h c cs)[j]?) :
    step s = .next ((s.consume headerLength).latchHeader ⟨magic, w, h, c, cs⟩) := by
  have hdel : State.delivered headerLength s = headerBytes w h c cs :=
    (State.delivered_of_reads (bs := headerBytes w h c cs) hbytes 0).trans (List.append_nil _)
  rw [step_header_decode hp hm]
  unfold decodeHeader
  dsimp only
  rw [hdel, parseHeader_headerBytes]
  dsimp only
  rw [hcheck]

/-! ### From command start to DONE -/

/-- The operands of an ENCODE that passes every check (43_header_codec R240). -/
structure ValidImage (p : Params) (w h : Word) (c : Byte) (pb : List Byte) : Prop where
  w_ne : w ≠ 0
  h_ne : h ≠ 0
  c_ok : c = 3 ∨ c = 4
  size : pb.length = w.toNat * h.toNat * c.toNat
  admitted : Params.admits p (w.toNat * h.toNat) = true

theorem ValidImage.header_check {p : Params} {w h : Word} {c : Byte} {pb : List Byte} (hv : ValidImage p w h c pb)
    (cs : Byte) : (Header.mk magic w h c cs).check p = none :=
  Header.check_eq_none.2 ⟨rfl, hv.w_ne, hv.h_ne, hv.c_ok, hv.admitted⟩

section Start

variable {s : State} {w h : Word} {c : Byte} {pb : List Byte} (hv : ValidImage s.params w h c pb)
include hv

theorem ValidImage.dimsOk (sinkEnd : SinkEnd) : (s.startEncode w h c pb sinkEnd).DimsOk :=
  ⟨hv.w_ne, hv.h_ne, hv.c_ok, congrArg some hv.size⟩

/-- The header step of an ENCODE of a valid image whose sink accepts. -/
theorem ValidImage.step_startEncode : step (s.startEncode w h c pb .never) =
    .next { (s.startEncode w h c pb .never).sentAs (headerBytes w h c s.params.colorspaceOut) with phase := .body } :=
  step_encode_header_of_accepted rfl rfl (hv.dimsOk .never) hv.admitted fun _ _ => rfl

/-- An ENCODE of a valid image whose sink accepts runs to DONE. -/
theorem ValidImage.exists_commandRun : ∃ t, CommandRun (s.startEncode w h c pb .never) t ∧ t.phase = .done := by
  have hinv := stepKeepsTheInvariant _ _ (State.start_inv s (.encode w h c pb .never)) hv.step_startEncode
  obtain ⟨t, ht, hdone⟩ := commandRun_of_encode_body rfl rfl rfl hinv
  exact ⟨t, .head rfl hv.step_startEncode Phase.noConfusion ht, hdone⟩

/-- After the header steps the DECODE of a valid image mirrors the ENCODE of it. -/
theorem ValidImage.mirrors_after_header {u : State} (hpar : u.params = s.params) (input : List Byte)
    (inEnd : SourceEnd) :
    Mirrors { (s.startEncode w h c pb .never).sentAs (headerBytes w h c s.params.colorspaceOut) with phase := .body }
      (((u.startDecode input inEnd).consume headerLength).latchHeader ⟨magic, w, h, c, s.params.colorspaceOut⟩) where
  mode := rfl
  phase := rfl
  prev := rfl
  cache := rfl
  cursor := rfl
  bpos := rfl
  w := rfl
  h := rfl
  c := rfl
  endWarn := rfl
  inv := (State.start_inv u (.decode input inEnd)).headerRead rfl rfl
    ((congrArg _ hpar).trans (hv.header_check s.params.colorspaceOut))
  memWf := ⟨Mem.ofBytesFrom_wf 0 input, List.Pairwise.nil, State.latchHeader_pbWf _ _⟩
  bounded := by
    rintro pb ⟨⟩ a -
    rfl
  pixels a ha := absurd ha (by simp [State.startEncode, State.clear])

/-- A DECODE of the `OUT` of an ENCODE of a valid image runs as that ENCODE does. -/
theorem ValidImage.decode_mirrors {u t : State} (hpar : u.params = s.params)
    (hrun : CommandRun (s.startEncode w h c pb .never) t) (hdone : t.phase = .done) {input : List Byte}
    (hinput : Mem.ofBytesFrom 0 input = t.out) (inEnd : SourceEnd) :
    ∃ v, CommandRun (u.startDecode input inEnd) v ∧ Mirrors t v := by
  cases hrun with
  | refl => cases hdone
  | head hi hs _ rest =>
    cases hs.symm.trans hv.step_startEncode
    have hbytes : ∀ j, j < 14 →
        Mem.read (u.startDecode input inEnd).inp (0 + j) = (headerBytes w h c s.params.colorspaceOut)[j]? := fun j hj =>
      (congrArg (Mem.read · (0 + j)) hinput).trans (read_out_of_header (s := s.startEncode w h c pb .never) rfl rest hj)
    have hd := step_decode_header_of_headerBytes (s := u.startDecode input inEnd) rfl rfl
      (hpar ▸ hv.header_check s.params.colorspaceOut) hbytes
    obtain ⟨v, hv', hM⟩ := (hv.mirrors_after_header hpar input inEnd).follow rest rfl Phase.noConfusion
      fun o _ => congrArg (Mem.read · o) hinput
    exact ⟨v, .head rfl hd Phase.noConfusion hv', hM⟩

end Start

/-- A DECODE that mirrors a finished ENCODE holds the pixel buffer that the ENCODE was given. -/
theorem Mirrors.pb_eq {t v : State} {pb : List Byte} (h : Mirrors t v) (hdone : t.phase = .done)
    (hpb : t.pb = some (PixelBuffer.ofBytes pb)) (hsize : pb.length = t.n * t.channels) :
    v.pb = some (PixelBuffer.ofBytes pb) := by
  obtain ⟨⟨-, -, -, hvsize⟩, hcur, -⟩ := (State.loopOk_done (h.phase.trans hdone)).1 h.inv.1
  rw [h.n, h.channels, ← hsize] at hvsize
  rw [h.cursor, h.n] at hcur
  obtain ⟨bytes, hv⟩ := State.pbSize_eq_some hvsize
  obtain ⟨-, -, hwf⟩ := h.memWf
  have hbytes : bytes = Mem.ofBytesFrom 0 pb := Mem.ext_of_read (hwf _ hv) (Mem.ofBytesFrom_wf 0 pb) fun a => by
    by_cases ha : a < pb.length
    · have hpix := h.pixels a (by rw [hcur, ← hsize]; exact ha)
      rwa [State.pbRead_of_pb hv, State.pbRead_of_pb hpb, if_pos ha, if_pos ha] at hpix
    · rw [h.bounded _ hv a (Nat.le_of_not_lt ha), Mem.read_ofBytesFrom, if_pos (Nat.zero_le a),
        List.getElem?_eq_none (by omega)]
  rw [hv, hbytes]
  rfl

end Sys2Proof.Machine
end

section
/-! PROOFS. The statements of 42_encoder: the selection, the six opcodes, the end marker, and the round trip. -/

namespace Sys2Proof.Machine

/-! ### The selection (42_encoder R201, R203, R204, R215) -/

/-- Settles O7: DIFF and LUMA store deltas that fit, and RGB stores the channels. -/
theorem deltasDecodeBack : Obligations.DeltasDecodeBack := by
  intro px prev ha
  rcases sameAlphaInstr_cases px prev with ⟨hfits, h⟩ | ⟨hfits, h⟩ | h <;> rw [h]
  · exact diffPixel_of_fits ha (diffFits_iff.2 hfits)
  · exact lumaPixel_of_fits ha (lumaFits_iff.2 hfits)
  · show rgbPixel prev px.r px.g px.b = px
    rw [rgbPixel, ← ha]

/-- Settles O8, branch by branch. -/
theorem selectionTakesTheFirstBranch : Obligations.SelectionTakesTheFirstBranch := by
  intro s px hl
  refine ⟨?_, fun hne => State.encSelect_of_slot hl hne, fun hne hslot ha hd => ?_, fun hne hslot ha hd hlu => ?_,
    fun hne hslot ha hd hlu => ?_, fun hne => State.encSelect_of_alpha_ne hl hne⟩
  · rintro rfl r hr
    exact State.encSelect_of_eq hl hr
  · exact (State.encSelect_of_alpha hl hne hslot ha).trans (congrArg some (sameAlphaInstr_of_fitsDiff hd))
  · exact (State.encSelect_of_alpha hl hne hslot ha).trans (congrArg some (sameAlphaInstr_of_fitsLuma hd hlu))
  · exact (State.encSelect_of_alpha hl hne hslot ha).trans (congrArg some (sameAlphaInstr_of_no_fit hd hlu))

/-- Settles O9: the choice is well formed, and a stored DIFF or LUMA field stands for its delta because the delta
fits. -/
theorem selectionStaysInBounds : Obligations.SelectionStaysInBounds := by
  intro s i hsel
  have hwf := State.wellFormed_of_encSelect hsel
  refine ⟨hwf, ?_, ?_, ?_⟩
  · rintro l rfl
    have hlt : l.toNat < 62 := of_decide_eq_true hwf
    exact ⟨runCount_pos l, hlt, encode_run_ne_literal_tag hwf (by decide), encode_run_ne_literal_tag hwf (by decide)⟩
  · rintro dr2 dg2 db2 rfl
    obtain ⟨px, hl, hi⟩ := State.encSelect_delta hsel (.inl rfl)
    rcases sameAlphaInstr_cases px s.prev with ⟨⟨hr, hg, hb⟩, h⟩ | ⟨-, h⟩ | h <;> cases h.symm.trans hi
    exact ⟨px, hl, (fieldValue_storeField_diff hr).symm, (fieldValue_storeField_diff hg).symm,
      (fieldValue_storeField_diff hb).symm⟩
  · rintro dg32 drg8 dbg8 rfl
    obtain ⟨px, hl, hi⟩ := State.encSelect_delta hsel (.inr rfl)
    rcases sameAlphaInstr_cases px s.prev with ⟨-, h⟩ | ⟨⟨hg, hr, hb⟩, h⟩ | h <;> cases h.symm.trans hi
    exact ⟨px, hl, (fieldValue_storeField_lumaGreen hg).symm, (fieldValue_storeField_lumaCross hr).symm,
      (fieldValue_storeField_lumaCross hb).symm⟩

/-- Settles O17: `exec` of a well-formed opcode is its emission rule, which refuses what the selection did not
choose. -/
theorem encoderRefusesWhatItDidNotSelect : Obligations.EncoderRefusesWhatItDidNotSelect := by
  intro i j s hwf hm hp hc hsel hne
  obtain ⟨commit, hexec⟩ := exec_eq_encOpcode hwf hm hp hc
  exact hexec.trans (State.encOpcode_of_not_selected commit hsel hne)

/-- Settles O19, by what the body step of ENCODE is. -/
theorem stepRunsTheSelectedOpcode : Obligations.StepRunsTheSelectedOpcode :=
  fun _ _ hm hp hc hsel => step_of_encSelect hm hp hc hsel

/-- A step that enters or keeps BODY in ENCODE leaves `PREV` at its command-start value or at a pixel of the image. -/
theorem RunNext.prev_of_encode_body {s t : State} (hr : RunNext s t) (hm : s.mode = .encode) (hp : t.phase = .body) :
    (s.phase = .header ∧ t.prev = s.prev) ∨ (s.loadPixel s.cursor = some t.prev ∧ t.c = s.c) := by
  cases hr with
  | readFailed hd => rw [hm] at hd; cases hd
  | writeFailed _ _ _ _ ht => subst ht; cases hp
  | headerRead _ hd => rw [hm] at hd; cases hd
  | headerWritten hh _ _ ht => subst ht; exact .inl ⟨hh, rfl⟩
  | opcode _ i _ hx ha =>
    obtain ⟨-, hc, -⟩ := exec_next hx
    obtain ⟨heff, -⟩ := exec_encode_sent hx hm (by rw [hp]; exact Phase.noConfusion)
    exact .inr ⟨heff.prev ▸ State.denoted_of_encSelect (State.encSelect_of_exec hx hm) hc, ha.keeps.c⟩
  | bodyOver _ _ ht => subst ht; cases hp
  | markerRead _ hd => rw [hm] at hd; cases hd
  | markerWritten _ _ ht => subst ht; cases hp

/-- Settles O46: in the body `PREV` is the command-start pixel or a pixel loaded from three channels, so its alpha is
255; the pixel at the cursor has the same alpha, so no RGBA is chosen for it. -/
theorem threeChannelsNeverNeedRgba : Obligations.ThreeChannelsNeverNeedRgba := by
  refine ⟨fun s t hloop hopaque h => ?_, fun s i hc3 hprev hsel hop => ?_⟩
  · cases hi : s.mayIssue with
    | true =>
      rcases step_waiting hi h with rfl | ⟨cmd, rest, rfl⟩
      · exact hopaque
      · intro hp
        rw [State.start_phase] at hp
        cases hp
    | false =>
      intro hp hm hc3
      have hr := step_running hi h
      rcases hr.prev_of_encode_body (hr.keepsInputs.mode ▸ hm) hp with ⟨hh, hprev⟩ | ⟨hl, hc⟩
      · obtain ⟨-, -, -, -, hinit, -⟩ := (State.loopOk_header hh).1 hloop
        rw [hprev, hinit]
        rfl
      · exact State.loadPixel_alpha hl (hc ▸ hc3)
  · obtain ⟨px, hl, ⟨-, r, -, rfl⟩ | ⟨-, rfl⟩⟩ := State.encSelect_cases hsel
    · cases hop
    · rcases s.selectFor_cases px with ⟨-, h⟩ | ⟨-, -, h⟩ | ⟨-, ha, -⟩
      · rw [h] at hop
        cases hop
      · rw [h] at hop
        rcases sameAlphaInstr_cases px s.prev with ⟨-, h⟩ | ⟨-, h⟩ | h <;> rw [h] at hop <;> cases hop
      · exact ha ((State.loadPixel_alpha hl hc3).trans hprev.symm)

/-! ### The six opcodes (42_encoder R205 to R210) -/

/-- Settles O28: the count stops at `r`, and the RUN of the count is emitted. -/
theorem encodeRunEmitsTheLongestRun : Obligations.EncodeRunEmitsTheLongestRun := by
  intro s r hdue h1 h62 hfit heq hend
  obtain ⟨-, -, -, hl, -⟩ := id hdue
  have hr : s.runLength = some r :=
    State.countRun_eq h1 h62 hfit (fun j _ hj => heq j hj) hend
  have hsel : s.encSelect = some (.run (storeRun r)) := State.encSelect_of_eq hl hr
  obtain ⟨t, ht, hprev, hcache, hE⟩ := State.EncodeDue.exec_of_not_writesCache hdue hsel rfl
  have hcount : s.pixelCount (.run (storeRun r)) = r := by
    show min (runCount (storeRun r)) (s.n - s.cursor) = r
    rw [(runCount_storeRun h1 h62).1]
    omega
  rw [hcount, encode_run, storeRun, BitVec.setWidth_ofNat_of_le_of_lt (by decide) (by omega)] at hE
  exact ⟨hsel, t, ht, hprev, hcache, hE⟩

/-- Settles O29: the pixel differs from `PREV` and its slot holds it, so INDEX is chosen, which writes no cache. -/
theorem encodeIndexEmitsTheSlot : Obligations.EncodeIndexEmitsTheSlot := by
  intro s px hdue hne hslot
  obtain ⟨-, -, -, hl, -⟩ := id hdue
  have hsel := State.encSelect_of_slot hl hne hslot
  obtain ⟨t, ht, hprev, hcache, hE⟩ := State.EncodeDue.exec_of_not_writesCache hdue hsel rfl
  exact ⟨hsel, t, ht, hprev, hcache, encode_index (pixelHash px) ▸ hE⟩

/-- Settles O30: the deltas fit DIFF, and each stored field is its delta plus 2 in a byte. -/
theorem encodeDiffEmitsTheDeltas : Obligations.EncodeDiffEmitsTheDeltas := by
  intro s px hdue hne hslot ha dr dg db hr hg hb
  obtain ⟨-, -, -, hl, -⟩ := id hdue
  have hsel : s.encSelect = some (diffInstr dr dg db) :=
    (State.encSelect_of_alpha hl hne hslot ha).trans (congrArg some (sameAlphaInstr_of_fitsDiff ⟨hr, hg, hb⟩))
  obtain ⟨t, ht, hprev, hcache, hE⟩ := State.EncodeDue.exec_of_writesCache hdue hsel rfl
  have hfield : ∀ d : Int, -2 ≤ d ∧ d ≤ 1 → (BitVec.ofInt 2 (d + 2)).setWidth 8 = BitVec.ofInt 8 (d + 2) :=
    fun d hd => setWidth_ofInt_of_fits 8 (by omega) (by omega)
  refine ⟨hsel, t, ht, hprev, hcache, ?_⟩
  rw [← hfield dr hr, ← hfield dg hg, ← hfield db hb, ← encode_diff]
  exact hE

/-- Settles O31: the deltas fit LUMA and not DIFF, and each stored field is its value plus its bias in a byte. -/
theorem encodeLumaEmitsTheDeltas : Obligations.EncodeLumaEmitsTheDeltas := by
  intro s px hdue hne hslot ha dr dg db drg dbg hnd hg hr hb
  obtain ⟨-, -, -, hl, -⟩ := id hdue
  have hsel : s.encSelect = some (lumaInstr dg drg dbg) :=
    (State.encSelect_of_alpha hl hne hslot ha).trans (congrArg some (sameAlphaInstr_of_fitsLuma hnd ⟨hg, hr, hb⟩))
  obtain ⟨t, ht, hprev, hcache, hE⟩ := State.EncodeDue.exec_of_writesCache hdue hsel rfl
  have hgreen : (BitVec.ofInt 6 (dg + 32)).setWidth 8 = BitVec.ofInt 8 (dg + 32) :=
    setWidth_ofInt_of_fits 8 (by omega) (by omega)
  have hcross : ∀ d : Int, -8 ≤ d ∧ d ≤ 7 → (BitVec.ofInt 4 (d + 8)).setWidth 8 = BitVec.ofInt 8 (d + 8) :=
    fun d hd => setWidth_ofInt_of_fits 8 (by omega) (by omega)
  refine ⟨hsel, t, ht, hprev, hcache, ?_⟩
  rw [← hgreen, ← hcross drg hr, ← hcross dbg hb, ← encode_luma]
  exact hE

/-- Settles O32: alpha is unchanged and neither delta opcode fits, so RGB is chosen. -/
theorem encodeRgbEmitsTheChannels : Obligations.EncodeRgbEmitsTheChannels := by
  intro s px hdue hne hslot ha dr dg db drg dbg hnd hnl
  obtain ⟨-, -, -, hl, -⟩ := id hdue
  have hsel : s.encSelect = some (.rgb px.r px.g px.b) :=
    (State.encSelect_of_alpha hl hne hslot ha).trans (congrArg some (sameAlphaInstr_of_no_fit hnd hnl))
  exact ⟨hsel, State.EncodeDue.exec_of_writesCache hdue hsel rfl⟩

/-- Settles O33: alpha has changed, so RGBA is chosen. -/
theorem encodeRgbaEmitsTheChannels : Obligations.EncodeRgbaEmitsTheChannels := by
  intro s px hdue hne hslot ha
  obtain ⟨-, -, -, hl, -⟩ := id hdue
  have hsel := State.encSelect_of_alpha_ne hl hne hslot ha
  exact ⟨hsel, State.EncodeDue.exec_of_writesCache hdue hsel rfl⟩

/-- Settles O34: the step of the chosen opcode is an emission, which fails before its commit. -/
theorem failedEmissionCommitsNothing : Obligations.FailedEmissionCommitsNothing := by
  intro s i k hm hp hc hsel hk hok hf
  obtain ⟨commit, hexec, -⟩ := exec_of_selected hm hp hc hsel (State.wellFormed_of_encSelect hsel)
  have hstep := (step_of_encSelect hm hp hc hsel).trans
    (hexec.trans (State.emitThen_of_ioFail commit hk hok hf))
  obtain ⟨hin, hout⟩ := s.read_out_sentAs_take (Nat.le_of_lt hk)
  exact ⟨_, hstep, rfl, rfl, by simp [Nat.le_of_lt hk], rfl, rfl, rfl, rfl, rfl, hin, hout⟩

/-- Settles O35: the four opcodes that write the cache put the pixel at its hash, and INDEX is chosen where it stands
there already. -/
theorem anyPixelOpcodeLeavesTheSameState : Obligations.AnyPixelOpcodeLeavesTheSameState := by
  intro i s t hm hop h hne
  obtain ⟨-, hc, -⟩ := exec_next h
  have hsel := State.encSelect_of_exec h hm
  obtain ⟨heff, -, hcur, -⟩ := exec_encode_sent h hm hne
  have hrun : ∀ l, i ≠ .run l := by
    rintro l rfl
    exact hop rfl
  rw [State.pixelCount_of_ne_run hrun] at hcur
  refine ⟨s.denoted i, State.denoted_of_encSelect hsel hc, heff.prev, ?_, hcur⟩
  cases hw : writesCache i with
  | true => exact (heff.cacheWritten hw _).trans (if_pos rfl)
  | false =>
    rw [heff.cacheAt_kept hw]
    cases i with
    | index idx => exact congrArg s.cacheAt (State.pixelHash_of_encSelect_index hsel)
    | run l => exact absurd rfl (hrun l)
    | rgb | rgba | diff | luma => cases hw

/-! ### The end marker (42_encoder R213) -/

/-- Settles O42: the marker emitted whole, or its first bytes, all 0. -/
theorem encodeWritesTheEndMarker : Obligations.EncodeWritesTheEndMarker := by
  intro s hp hm
  refine ⟨fun hok => ?_, fun k hk hok hf => ?_⟩
  · obtain ⟨hin, hout⟩ := s.read_out_sentAs_cases endMarker
    exact ⟨_, (step_trailer_encode hp hm).trans (State.emitThen_of_ok State.finish hok), rfl, rfl,
      fun j hj => (hin j hj).trans (endMarker_getElem? hj), hout, rfl, rfl, rfl, rfl,
      by simp [State.KeepsCommand, State.sentAs]⟩
  · obtain ⟨hin, hout⟩ := s.read_out_sentAs_take (bs := endMarker) (Nat.le_of_lt hk)
    refine ⟨_, (step_trailer_encode hp hm).trans (State.emitThen_of_ioFail State.finish hk hok hf), rfl, rfl, ?_,
      rfl, fun j hj => ?_, hout⟩
    · show s.bpos + (endMarker.take k).length = s.bpos + k
      rw [List.length_take_of_le (Nat.le_of_lt hk)]
    · exact (hin j hj).trans ((endMarker_getElem? (by omega)).trans (by rw [if_pos (by omega)]))

/-! ### The round trip (42_encoder R216) -/

/-- The first step of a command issued, and the run after it. -/
theorem exists_steps_of_issued {s t : State} {cmd : Command} {rest : List Command} (hi : s.mayIssue = true)
    (hcmd : s.commands = cmd :: rest) (hrun : CommandRun (({ s with commands := rest } : State).start cmd) t) :
    ∃ k, steps k s = .next t := by
  obtain ⟨k, hk⟩ := hrun.exists_steps
  exact ⟨k + 1, (steps_succ k ((step_of_mayIssue hi).trans (awaitCommand_cons hcmd))).trans hk⟩

/-- Settles O58: the ENCODE runs to DONE, the DECODE of its bytes mirrors it, and what a mirror of a finished ENCODE
holds is the image. -/
theorem everyImageRoundTrips : Obligations.EveryImageRoundTrips := by
  intro s w h c pb rest hi hcmd hw hh hc hsize hadm
  have hv : ValidImage ({ s with commands := rest } : State).params w h c pb := ⟨hw, hh, hc, hsize, hadm⟩
  obtain ⟨t, hrun, hdone⟩ := hv.exists_commandRun
  obtain ⟨k, hk⟩ := exists_steps_of_issued hi hcmd hrun
  have hkeep := hrun.encodeKeeps rfl
  have hinv := hrun.inv (State.start_inv _ (.encode w h c pb .never))
  have hwf := hrun.memWf (State.start_memWf _ (.encode w h c pb .never))
  obtain ⟨-, -, -, herr⟩ := (State.loopOk_done hdone).1 hinv.1
  obtain ⟨-, hexact⟩ := hinv.2.encode hkeep.mode (by simp [hdone])
  refine ⟨k, t, hk, hdone, hkeep.mode, herr, hrun.keepsInputs.commands, fun u more hiu hcmdu hpar => ?_⟩
  obtain ⟨v, hrunv, hM⟩ := hv.decode_mirrors (u := { u with commands := more }) hpar hrun hdone
    (State.ofBytesFrom_outBytes hwf.2.1 hexact) .eos
  obtain ⟨k', hk'⟩ := exists_steps_of_issued hiu hcmdu hrunv
  have hvdone := hM.phase.trans hdone
  obtain ⟨-, -, -, hverr⟩ := (State.loopOk_done hvdone).1 hM.inv.1
  exact ⟨k', v, hk', hvdone, hM.mode, hverr, hrunv.keepsInputs.commands, hM.endWarn, hM.w.trans hkeep.w,
    hM.h.trans hkeep.h, hM.c.trans hkeep.c,
    hM.pb_eq hdone hkeep.pb (hsize.trans (by rw [hkeep.n, hkeep.channels]; rfl))⟩

end Sys2Proof.Machine
end

section
/-! SUPPORT. The header step of each engine, check by check (43_header_codec R240 to R245), and the steps that leave the
colorspace byte alone (R246). -/

namespace Sys2Proof.Machine

/-! ### The checks of DECODE, in their order (43_header_codec R244) -/

section Check

variable {hd : Header} {p : Params}

/-- A wrong magic is the first check to fail, whatever follows it. -/
theorem Header.check_of_magic_ne (h : hd.magic ≠ Machine.magic) : hd.check p = some .format := if_pos h

/-- Behind the magic every failing check raises the same error. -/
theorem Header.check_of_fields_bad (hmagic : hd.magic = Machine.magic)
    (h : ¬(hd.w ≠ 0 ∧ hd.h ≠ 0 ∧ (hd.c = 3 ∨ hd.c = 4) ∧ Params.admits p (hd.w.toNat * hd.h.toNat) = true)) :
    hd.check p = some .invalidDimensions := by
  unfold Header.check
  rw [if_neg (not_not.2 hmagic)]
  split
  · rfl
  · next hdims =>
    obtain ⟨hw, hh⟩ := not_or.1 hdims
    split
    · rfl
    · next hc => exact if_pos fun hadm => h ⟨hw, hh, not_not.1 hc, hadm⟩

end Check

/-! ### The DECODE header step (43_header_codec R242 to R245) -/

section DecodeHeader

variable {s : State} {hd : Header} (hp : s.phase = .header) (hm : s.mode = .decode)
include hp hm

theorem step_decode_header_of_check_some {e : ErrorCode}
    (hparse : parseHeader (State.delivered headerLength s) = some hd) (hcheck : hd.check s.params = some e) :
    step s = .next ((s.consume headerLength).raise e) := by
  simp only [step_header_decode hp hm, decodeHeader, hparse, hcheck]

theorem step_decode_header_of_check_none
    (hparse : parseHeader (State.delivered headerLength s) = some hd) (hcheck : hd.check s.params = none) :
    step s = .next ((s.consume headerLength).latchHeader hd) := by
  simp only [step_header_decode hp hm, decodeHeader, hparse, hcheck]

theorem step_decode_header_of_short (hparse : parseHeader (State.delivered headerLength s) = none) :
    step s = s.readStopped (State.delivered headerLength s).length .format := by
  simp only [step_header_decode hp hm, decodeHeader, hparse]

end DecodeHeader

theorem parseHeader_of_length_ne {bs : List Byte} (h : bs.length ≠ headerLength) : parseHeader bs = none := by
  unfold parseHeader
  split
  · exact absurd rfl h
  · rfl

/-! ### The ENCODE header step (43_header_codec R240, R241) -/

/-- The 14 header bytes with each field's bytes as quotients (20_memory R79). -/
theorem headerBytes_eq (w h : Word) (c cs : Byte) : headerBytes w h c cs =
    [0x71, 0x6F, 0x69, 0x66,
      BitVec.ofNat 8 (w.toNat / 2 ^ 24), BitVec.ofNat 8 (w.toNat / 2 ^ 16), BitVec.ofNat 8 (w.toNat / 2 ^ 8),
      BitVec.ofNat 8 (w.toNat / 2 ^ 0), BitVec.ofNat 8 (h.toNat / 2 ^ 24), BitVec.ofNat 8 (h.toNat / 2 ^ 16),
      BitVec.ofNat 8 (h.toNat / 2 ^ 8), BitVec.ofNat 8 (h.toNat / 2 ^ 0), c, cs] := by
  simp only [← Nat.shiftRight_eq_div_pow]
  rfl

section EncodeHeader

variable {s : State} (hp : s.phase = .header) (hm : s.mode = .encode)
include hp hm

theorem step_encode_header_of_ok (hd : s.DimsOk) (hadm : Params.admits s.params s.n = true) :
    step s = s.emitThen (headerBytes s.w s.h s.c s.cs) fun t => { t with phase := .body } := by
  rw [step_header_encode hp hm]
  exact if_pos (State.encodeOperandsOk_iff.2 ⟨hd, hadm⟩)

theorem step_encode_header_of_bad (h : ¬(s.DimsOk ∧ Params.admits s.params s.n = true)) :
    step s = .next (s.raise .invalidDimensions) := by
  rw [step_header_encode hp hm]
  exact if_neg (mt State.encodeOperandsOk_iff.1 h)

end EncodeHeader

/-! ### The choice of the encoder reads `PREV`, the cache and the pixels below `N` alone (42_encoder R201, R205) -/

section Choice

variable {s t : State} (hprev : t.prev = s.prev) (hcur : t.cursor = s.cursor) (hn : t.n = s.n)
  (hload : ∀ i, i < s.n → t.loadPixel i = s.loadPixel i)
include hprev hcur hn hload

theorem State.countRun_congr (room k : Nat) : t.countRun room k = s.countRun room k := by
  induction room generalizing k with
  | zero => rfl
  | succ room ih =>
    unfold State.countRun
    rw [hcur, hn]
    split
    · next hlt => rw [hload _ hlt, hprev, ih]
    · rfl

theorem State.encSelect_congr (hcache : t.cache = s.cache) (hc : s.cursor < s.n) : t.encSelect = s.encSelect := by
  have hfor : t.selectFor = s.selectFor := by
    funext px
    unfold State.selectFor
    rw [State.cacheAt_congr hcache, hprev]
  unfold State.encSelect State.runLength
  rw [hcur, hload _ hc, hprev, State.countRun_congr hprev hcur hn hload, hfor]

end Choice

/-! ### A step that does not read the colorspace byte (43_header_codec R246) -/

/-- `CS` replaced. -/
def State.setCs (x : Byte) (s : State) : State := { s with cs := x }

/-- An answer with its next state changed by `f`; a fault and a refusal stand. -/
def mapNext (f : State → State) (o : Host.Outcome State Fault Refusal) : Host.Outcome State Fault Refusal :=
  match o with
  | .next t => .next (f t)
  | .fault r => .fault r
  | .refused r => .refused r

/-- What an emit answers with the state in it changed by `f`. -/
def EmitResult.mapState (f : State → State) : EmitResult → EmitResult
  | .sent t => .sent (f t)
  | .failed t => .failed (f t)
  | .held => .held

section Colorspace

variable (x : Byte) (s : State)

/-! #### The fields the steps read -/

@[simp] theorem State.setCs_prev : (s.setCs x).prev = s.prev := rfl
@[simp] theorem State.setCs_cursor : (s.setCs x).cursor = s.cursor := rfl
@[simp] theorem State.setCs_bpos : (s.setCs x).bpos = s.bpos := rfl
@[simp] theorem State.setCs_pb : (s.setCs x).pb = s.pb := rfl
@[simp] theorem State.setCs_inEnd : (s.setCs x).inEnd = s.inEnd := rfl
@[simp] theorem State.setCs_sinkEnd : (s.setCs x).sinkEnd = s.sinkEnd := rfl
@[simp] theorem State.setCs_loadPixel (i : Nat) : (s.setCs x).loadPixel i = s.loadPixel i := rfl

/-! #### The ends of a step -/

theorem State.readStopped_setCs (k : Nat) (e : ErrorCode) :
    (s.setCs x).readStopped k e = mapNext (State.setCs x) (s.readStopped k e) := by
  unfold State.readStopped
  rw [State.setCs_inEnd]
  cases s.inEnd <;> rfl

theorem State.emit_setCs (bs : List Byte) : (s.setCs x).emit bs = (s.emit bs).mapState (State.setCs x) := by
  induction bs generalizing s with
  | nil => rfl
  | cons b bs ih =>
    rw [State.emit, State.emit, State.setCs_sinkEnd, State.setCs_bpos]
    cases s.sinkEnd.answer s.bpos with
    | ok => exact ih (s.accept b)
    | ioFail | silent => rfl

theorem State.emitThen_setCs (bs : List Byte) {commit : State → State}
    (h : ∀ t, commit (t.setCs x) = (commit t).setCs x) :
    (s.setCs x).emitThen bs commit = mapNext (State.setCs x) (s.emitThen bs commit) := by
  unfold State.emitThen
  rw [State.emit_setCs]
  cases s.emit bs with
  | sent t => exact congrArg Host.Outcome.next (h t)
  | failed t | held => rfl

theorem State.endBody_setCs : (s.setCs x).endBody = s.endBody.setCs x := by
  unfold State.endBody
  rw [apply_ite (State.setCs x)]
  rfl

theorem State.cachePutIf_setCs (wc : Bool) (p : Pixel) : (s.setCs x).cachePutIf wc p = (s.cachePutIf wc p).setCs x := by
  cases wc <;> rfl

/-! #### The stores of DECODE -/

theorem State.storePixel_setCs (i : Nat) (p : Pixel) :
    (s.setCs x).storePixel i p = (s.storePixel i p).map (State.setCs x) := by
  unfold State.storePixel
  rw [State.setCs_pb]
  cases s.pb with
  | none => rfl
  | some pb =>
    dsimp only
    rw [apply_ite (Option.map (State.setCs x))]
    rfl

theorem State.storePixels_setCs (m i : Nat) (p : Pixel) :
    State.storePixels m i p (s.setCs x) = (State.storePixels m i p s).map (State.setCs x) := by
  induction m generalizing i s with
  | zero => rfl
  | succ m ih =>
    rw [State.storePixels, State.storePixels, State.storePixel_setCs]
    cases s.storePixel i p with
    | none => rfl
    | some t => exact ih t (i + 1)

theorem State.decPixel_setCs (len : Nat) (wc : Bool) (px : Pixel) :
    (s.setCs x).decPixel len wc px = mapNext (State.setCs x) (s.decPixel len wc px) := by
  unfold State.decPixel
  rw [State.setCs_cursor, State.storePixel_setCs]
  cases s.storePixel s.cursor px with
  | none => rfl
  | some t =>
    show Host.Outcome.next (((t.setCs x).cachePutIf wc px).setPrev px |>.advance len 1).endBody = _
    rw [State.cachePutIf_setCs]
    exact congrArg Host.Outcome.next (State.endBody_setCs x (((t.cachePutIf wc px).setPrev px).advance len 1))

theorem State.decRun_setCs (len m : Nat) :
    (s.setCs x).decRun len m = mapNext (State.setCs x) (s.decRun len m) := by
  unfold State.decRun
  rw [State.setCs_cursor, State.setCs_prev, State.storePixels_setCs]
  cases State.storePixels m s.cursor s.prev s with
  | none => rfl
  | some t => exact congrArg Host.Outcome.next (State.endBody_setCs x (t.advance len m))

/-! #### The emissions of ENCODE -/

theorem State.encCommit_setCs (px : Pixel) (wc : Bool) :
    State.encCommit px wc (s.setCs x) = (State.encCommit px wc s).setCs x := by
  unfold State.encCommit
  rw [State.cachePutIf_setCs]
  exact State.endBody_setCs x (((s.cachePutIf wc px).setPrev px).advance 0 1)

theorem State.encRunCommit_setCs (k : Nat) : State.encRunCommit k (s.setCs x) = (State.encRunCommit k s).setCs x :=
  State.endBody_setCs x (s.advance 0 k)

variable {s}

theorem State.encSelect_setCs (hc : s.cursor < s.n) : (s.setCs x).encSelect = s.encSelect :=
  State.encSelect_congr rfl rfl rfl (fun _ _ => rfl) rfl hc

theorem State.encOpcode_setCs (hc : s.cursor < s.n) (i : Instr) {commit : Pixel → State → State}
    (h : ∀ px t, commit px (State.setCs x t) = (commit px t).setCs x) :
    (s.setCs x).encOpcode i commit = mapNext (State.setCs x) (s.encOpcode i commit) := by
  unfold State.encOpcode
  rw [State.setCs_loadPixel, State.setCs_cursor, State.encSelect_setCs x hc]
  cases s.loadPixel s.cursor with
  | none => rfl
  | some px =>
    cases s.encSelect with
    | none => rfl
    | some j =>
      dsimp only
      rw [State.emitThen_setCs x s (encode i) (h px), apply_ite (mapNext (State.setCs x))]
      rfl

/-! #### The opcodes, the fetch and the end marker -/

/-- An opcode step ignores `CS` when both engines' steps do. -/
theorem opcodeStep_setCs {dec enc dec' enc' : Host.Outcome State Fault Refusal}
    (hdec : dec' = mapNext (State.setCs x) dec) (henc : enc' = mapNext (State.setCs x) enc) :
    opcodeStep (s.setCs x) dec' enc' = mapNext (State.setCs x) (opcodeStep s dec enc) := by
  subst hdec henc
  by_cases hdue : s.phase = .body ∧ s.cursor < s.n
  · obtain ⟨hp, hc⟩ := hdue
    cases hm : s.mode with
    | decode => rw [opcodeStep_decode hp hc hm, opcodeStep_decode (s := s.setCs x) hp hc hm]
    | encode => rw [opcodeStep_encode hp hc hm, opcodeStep_encode (s := s.setCs x) hp hc hm]
  · rw [opcodeStep_not_due hdue, opcodeStep_not_due (s := s.setCs x) hdue]
    rfl

/-- The two engines' steps of an opcode of one pixel. -/
theorem opcodeStep_pixel_setCs (hc : s.cursor < s.n) (i : Instr) (len : Nat) (wc : Bool) (px : Pixel) :
    opcodeStep (s.setCs x) ((s.setCs x).decPixel len wc px)
        ((s.setCs x).encOpcode i fun q => State.encCommit q wc) =
      mapNext (State.setCs x) (opcodeStep s (s.decPixel len wc px) (s.encOpcode i fun q => State.encCommit q wc)) :=
  opcodeStep_setCs x (State.decPixel_setCs x s len wc px)
    (State.encOpcode_setCs x hc i fun q t => State.encCommit_setCs x t q wc)

theorem exec_setCs (hc : s.cursor < s.n) (i : Instr) :
    exec i (s.setCs x) = mapNext (State.setCs x) (exec i s) := by
  cases i with
  | rgb | rgba | index | diff | luma => exact opcodeStep_pixel_setCs x hc _ _ _ _
  | run l =>
    cases hwf : (Instr.run l).wellFormed with
    | true =>
      rw [exec_run hwf, exec_run hwf]
      exact opcodeStep_setCs x (State.decRun_setCs x s _ _)
        (State.encOpcode_setCs x hc _ fun _ t => State.encRunCommit_setCs x t _)
    | false =>
      have hrefused : ∀ t, exec (.run l) t = .refused .reservedRunLength := fun t => if_neg (by rw [hwf]; decide)
      rw [hrefused, hrefused]
      rfl

variable (s)

theorem fetch_setCs : fetch (s.setCs x) = fetch s := by
  unfold fetch
  rw [State.delivered_congr (s := s) (t := s.setCs x) rfl rfl]

theorem checkMarker_setCs (es : List Byte) :
    checkMarker es (s.setCs x) = mapNext (State.setCs x) (checkMarker es s) := by
  induction es generalizing s with
  | nil => rfl
  | cons e es ih =>
    cases hr : Mem.read s.inp s.bpos with
    | some v =>
      rw [checkMarker, checkMarker, State.readByte_of_some hr, State.readByte_of_some (s := s.setCs x) hr]
      dsimp only
      rw [apply_ite (mapNext (State.setCs x)), ← ih]
      rfl
    | none =>
      rw [checkMarker, checkMarker, State.readByte_of_none hr, State.readByte_of_none (s := s.setCs x) hr,
        State.setCs_inEnd]
      cases s.inEnd <;> rfl

/-- A body step ignores `CS` (43_header_codec R246). -/
theorem step_body_setCs (hp : s.phase = .body) : step (s.setCs x) = mapNext (State.setCs x) (step s) := by
  by_cases hc : s.cursor < s.n
  · cases hm : s.mode with
    | decode =>
      rw [step_body_decode hp hc hm, step_body_decode (s := s.setCs x) hp hc hm, fetch_setCs]
      cases fetch s with
      | opcode i => exact exec_setCs x hc i
      | cutShort k => exact State.readStopped_setCs x s k .truncatedStream
    | encode =>
      rw [step_body_encode hp hc hm, step_body_encode (s := s.setCs x) hp hc hm, State.encSelect_setCs x hc]
      cases s.encSelect with
      | some i => exact exec_setCs x hc i
      | none => rfl
  · rw [step_body_over hp hc, step_body_over (s := s.setCs x) hp hc]
    rfl

/-- An end-marker step ignores `CS` (43_header_codec R246). -/
theorem step_trailer_setCs (hp : s.phase = .trailer) : step (s.setCs x) = mapNext (State.setCs x) (step s) := by
  cases hm : s.mode with
  | decode =>
    rw [step_trailer_decode hp hm, step_trailer_decode (s := s.setCs x) hp hm]
    exact checkMarker_setCs x s endMarker
  | encode =>
    rw [step_trailer_encode hp hm, step_trailer_encode (s := s.setCs x) hp hm]
    exact State.emitThen_setCs x s endMarker fun _ => rfl

end Colorspace

end Sys2Proof.Machine
end

section
/-! PROOFS. The statements of 43_header_codec: the header step of each engine, and the colorspace byte. -/

namespace Sys2Proof.Machine

/-! ### DECODE (43_header_codec R242, R244, R247) -/

/-- Settles O36: the header of the 14 bytes passes every check and is latched. -/
theorem headerRoundTrip : Obligations.HeaderRoundTrip := by
  intro s w h c cs hp hm hw hh hc hadm hbytes
  exact step_decode_header_of_headerBytes hp hm (Header.check_eq_none.2 ⟨rfl, hw, hh, hc, hadm⟩) hbytes

/-- Settles O37: the 14 bytes parse, and the first failing check of the fields says how the step ends. -/
theorem decodeHeaderChecksInOrder : Obligations.DecodeHeaderChecksInOrder := by
  intro s m0 m1 m2 m3 w0 w1 w2 w3 h0 h1 h2 h3 c cs hp hm hbytes w h magicOk restOk
  let hd : Header := ⟨[m0, m1, m2, m3], w0 ++ w1 ++ w2 ++ w3, h0 ++ h1 ++ h2 ++ h3, c, cs⟩
  have hparse : parseHeader (State.delivered headerLength s) = some hd :=
    
    congrArg parseHeader ((State.delivered_of_reads (bs := [m0, m1, m2, m3, w0, w1, w2, w3, h0, h1, h2, h3, c, cs])
      hbytes 0).trans (List.append_nil _))
  have hw : hd.w.toNat = w := toNat_fourBytes w0 w1 w2 w3
  have hh : hd.h.toNat = h := toNat_fourBytes h0 h1 h2 h3
  have hmagic : hd.magic = magic ↔ magicOk := by simp [hd, magic, magicOk]
  have hrest : (hd.w ≠ 0 ∧ hd.h ≠ 0 ∧ (hd.c = 3 ∨ hd.c = 4) ∧
      Params.admits s.params (hd.w.toNat * hd.h.toNat) = true) ↔ restOk := by
    rw [Params.admits_iff, ← BitVec.toNat_ne_iff_ne, ← BitVec.toNat_ne_iff_ne, hw, hh]
    rfl
  refine ⟨fun hbad => ?_, fun hok hbad => ?_, fun hok hgood => ?_⟩
  · exact ⟨_, step_decode_header_of_check_some hp hm hparse (Header.check_of_magic_ne (mt hmagic.1 hbad)),
      rfl, rfl, rfl, rfl, rfl⟩
  · exact ⟨_, step_decode_header_of_check_some hp hm hparse
      (Header.check_of_fields_bad (hmagic.2 hok) (mt hrest.1 hbad)), rfl, rfl, rfl, rfl, rfl⟩
  · refine ⟨_, step_decode_header_of_check_none hp hm hparse
      (Header.check_eq_none.2 ⟨hmagic.2 hok, hrest.2 hgood⟩), rfl, rfl, rfl, hw, hh, rfl, rfl, ?_, rfl, rfl, rfl⟩
    rw [← hw, ← hh]
    rfl

/-- Settles O38: fewer than 14 bytes are no header, and the source's answer says how the step ends. -/
theorem shortHeaderIsAFormatError : Obligations.ShortHeaderIsAFormatError := by
  intro s k hp hm hk hreads hend
  have hlen : (State.delivered headerLength s).length = k := State.delivered_length_eq hk hreads hend
  have hne : (State.delivered headerLength s).length ≠ headerLength := hlen ▸ Nat.ne_of_lt hk
  rw [step_decode_header_of_short hp hm (parseHeader_of_length_ne hne), hlen]
  exact ⟨State.readStopped_eos, State.readStopped_ioFail, State.readStopped_silent⟩

/-! ### ENCODE (43_header_codec R240, R241) -/

/-- Settles O39: each failing operand is a failing check. -/
theorem encodeValidatesBeforeWriting : Obligations.EncodeValidatesBeforeWriting := by
  intro s hp hm hbad
  refine step_encode_header_of_bad hp hm ?_
  rintro ⟨⟨hw, hh, hc, hsize⟩, hadm⟩
  rcases hbad with h | h | h | h | ⟨m, hmax, hlt⟩
  · exact h hc
  · exact hw h
  · exact hh h
  · exact h hsize
  · exact Nat.not_le_of_lt hlt ((Params.admits_iff _ _).1 hadm m hmax)

/-- Settles O40: the header emitted whole, or its bytes before the one the sink fails. -/
theorem encodeWritesTheHeader : Obligations.EncodeWritesTheHeader := by
  intro s hp hm hc hw hh hsize hmax byteOf bytes
  have hbytes : headerBytes s.w s.h s.c s.cs = bytes := headerBytes_eq s.w s.h s.c s.cs
  have hstep := step_encode_header_of_ok hp hm ⟨hw, hh, hc, hsize⟩ ((Params.admits_iff _ _).2 hmax)
  rw [hbytes] at hstep
  refine ⟨fun hok => ?_, fun k hk hok hf => ?_⟩
  · obtain ⟨hin, hout⟩ := s.read_out_sentAs_cases bytes
    exact ⟨_, hstep.trans (State.emitThen_of_ok _ hok), rfl, rfl, hin, hout, rfl, rfl, rfl, rfl,
      by simp [State.KeepsCommand, State.sentAs]⟩
  · obtain ⟨hin, hout⟩ := s.read_out_sentAs_take (bs := bytes) (Nat.le_of_lt hk)
    refine ⟨_, hstep.trans (State.emitThen_of_ioFail _ hk hok hf), rfl, rfl, ?_, rfl, hin, hout⟩
    show s.bpos + (bytes.take k).length = s.bpos + k
    rw [List.length_take_of_le (Nat.le_of_lt hk)]

/-! ### The colorspace byte (43_header_codec R246) -/

/-- Settles O53: no part of a body step or an end-marker step reads `CS`. -/
theorem colorspaceHasNoEffect : Obligations.ColorspaceHasNoEffect := by
  rintro s x (hp | hp)
  · exact step_body_setCs x s hp
  · exact step_trailer_setCs x s hp

end Sys2Proof.Machine
end

section
/-! SUPPORT. The two ends of a step that 60_exceptions speaks of: a raise, with the error it can be and the state it
leaves (R270, R272), and an answer where the peer answers (R271, 10_state R33). -/

namespace Sys2Proof.Machine

/-! ### The errors a step can raise (60_exceptions R270) -/

/-- The errors that a step from this state can raise, by its phase and its mode. -/
def State.MayRaise (s : State) (e : ErrorCode) : Prop :=
  e = .io ∨ (e = .format ∧ s.phase = .header ∧ s.mode = .decode) ∨ (e = .invalidDimensions ∧ s.phase = .header) ∨
    (e = .truncatedStream ∧ s.phase = .body ∧ s.mode = .decode)

/-- A step into ERROR raised an error that was due there, after reading bytes in DECODE or writing them in ENCODE
(60_exceptions R272). -/
inductive RaiseNext (s t : State) : Prop where
  | read (hm : s.mode = .decode) (k : Nat) (e : ErrorCode) (he : s.MayRaise e) (h : t = (s.consume k).raise e)
  | written (hm : s.mode = .encode) (bs : List Byte) (e : ErrorCode) (he : s.MayRaise e) (h : t = (s.sentAs bs).raise e)

/-- A failing check of a header is a FormatError or an InvalidDimensionsError (43_header_codec R244). -/
theorem Header.check_kinds {hd : Header} {p : Params} {e : ErrorCode} (h : hd.check p = some e) :
    e = .format ∨ e = .invalidDimensions := by
  by_cases hmagic : hd.magic = Machine.magic
  · by_cases hrest : hd.w ≠ 0 ∧ hd.h ≠ 0 ∧ (hd.c = 3 ∨ hd.c = 4) ∧
        Params.admits p (hd.w.toNat * hd.h.toNat) = true
    · cases (Header.check_eq_none.2 ⟨hmagic, hrest⟩).symm.trans h
    · exact .inr (Option.some.inj (h.symm.trans (Header.check_of_fields_bad hmagic hrest)))
  · exact .inl (Option.some.inj (h.symm.trans (Header.check_of_magic_ne hmagic)))

section Raise

variable {s t : State} (herr : t.phase = .error)

theorem RaiseNext.of_readStopped {k : Nat} {e : ErrorCode} (hm : s.mode = .decode) (he : s.MayRaise e)
    (h : s.readStopped k e = .next t) : RaiseNext s t := by
  rcases State.readStopped_next h with rfl | rfl
  · exact .read hm k e he rfl
  · exact .read hm k .io (.inl rfl) rfl

include herr

/-- An emission ends in ERROR only where the sink fails, for no commit leads there. -/
theorem RaiseNext.of_emitThen {bs : List Byte} {commit : State → State} (hm : s.mode = .encode)
    (hcommit : (commit (s.sentAs bs)).phase ≠ .error) (h : s.emitThen bs commit = .next t) : RaiseNext s t := by
  rcases State.emitThen_next h with rfl | ⟨k, -, -, rfl⟩
  · exact absurd herr hcommit
  · exact .written hm _ .io (.inl rfl) rfl

theorem RaiseNext.of_decodeHeader (hp : s.phase = .header) (hm : s.mode = .decode) (h : decodeHeader s = .next t) :
    RaiseNext s t := by
  rcases decodeHeader_next h with ⟨k, e, hr, rfl⟩ | ⟨hd, e, hc, rfl⟩ | ⟨hd, -, -, rfl⟩
  · exact .of_readStopped hm (.inr (.inl ⟨rfl, hp, hm⟩)) hr
  · refine .read hm _ e ?_ rfl
    exact (Header.check_kinds hc).elim (fun he => .inr (.inl ⟨he, hp, hm⟩)) fun he => .inr (.inr (.inl ⟨he, hp⟩))
  · cases herr

theorem RaiseNext.of_encodeHeader (hp : s.phase = .header) (hm : s.mode = .encode) (h : encodeHeader s = .next t) :
    RaiseNext s t := by
  rcases encodeHeader_next h with ⟨-, h⟩ | ⟨-, rfl⟩
  · exact .of_emitThen herr hm Phase.noConfusion h
  · exact .written hm [] .invalidDimensions (.inr (.inr (.inl ⟨rfl, hp⟩))) rfl

theorem RaiseNext.of_exec {i : Instr} (h : exec i s = .next t) : RaiseNext s t := by
  rcases exec_advances h with ⟨m, ha⟩ | ⟨hm, bs, rfl⟩
  · rcases ha.phase_cases with hp | hp <;> cases hp.symm.trans herr
  · exact .written hm bs .io (.inl rfl) rfl

theorem RaiseNext.of_decodeTrailer (hm : s.mode = .decode) (h : decodeTrailer s = .next t) : RaiseNext s t := by
  obtain ⟨k, -, rfl | rfl | rfl⟩ := checkMarker_next h
  · cases herr
  · cases herr
  · exact .read hm k .io (.inl rfl) rfl

/-- Everything a step of a running command into ERROR can do. -/
theorem step_raises (hrun : s.mayIssue = false) (h : step s = .next t) : RaiseNext s t := by
  cases step_next h with
  | await hp => rw [State.mayIssue_eq_true.2 hp] at hrun; cases hrun
  | decodeHeader hp hm h => exact .of_decodeHeader herr hp hm h
  | encodeHeader hp hm h => exact .of_encodeHeader herr hp hm h
  | opcode i h => exact .of_exec herr h
  | cutShort hp hm _ k h => exact .of_readStopped hm (.inr (.inr (.inr ⟨rfl, hp, hm⟩))) h
  | bodyOver _ _ h => subst h; cases herr
  | decodeTrailer _ hm h => exact .of_decodeTrailer herr hm h
  | encodeTrailer _ hm h => exact .of_emitThen herr hm Phase.noConfusion h

end Raise

/-- In the body a TruncatedStreamError is raised by DECODE alone, after some bytes read (41_decoder R162, R163). -/
theorem step_truncated {s t : State} (hp : s.phase = .body) (hok : s.err = .noError) (h : step s = .next t)
    (ht : t.err = .truncatedStream) : s.mode = .decode ∧ ∃ k, t = (s.consume k).raise .truncatedStream := by
  have hrun : s.mayIssue = false := State.mayIssue_eq_false.2 (.inr (.inl hp))
  have herr : t.phase = .error := by
    by_contra hne
    cases ((onlyARaiseWritesErr s t hrun h hne).trans hok).symm.trans ht
  cases step_raises herr hrun h with
  | read hm k e _ hr => subst hr; cases ht; exact ⟨hm, k, rfl⟩
  | written hm bs e he hr =>
    subst hr; cases ht
    obtain ⟨-, hd⟩ : s.phase = .body ∧ s.mode = .decode := by simpa [State.MayRaise] using he
    cases hm.symm.trans hd

/-- `PB` of a DECODE with its dimensions latched, byte by byte (20_memory R73, 41_decoder R173). -/
theorem State.DecodedPrefix.exists_pb {s : State} (hpre : s.DecodedPrefix) (hd : s.DimsOk) :
    ∃ pb, s.pb = some pb ∧ pb.size = s.n * s.channels ∧
      ∀ a, a < pb.size → (Mem.read pb.bytes a).isSome = decide (a < s.cursor * s.channels) := by
  obtain ⟨-, -, -, hsize⟩ := hd
  obtain ⟨bytes, hpb⟩ := State.pbSize_eq_some hsize
  refine ⟨_, hpb, rfl, fun a ha => ?_⟩
  have hread := hpre a
  rwa [State.pbRead_of_pb hpb, if_pos ha] at hread

/-! ### A peer that answers (10_state R33, 20_memory R74, R75) -/

theorem State.inEnd_ne_silent {s : State} (hm : s.mode = .decode) (h : s.peerAnswers = true) : s.inEnd ≠ .silent := by
  unfold State.peerAnswers at h
  rw [hm] at h
  exact of_decide_eq_true h

theorem State.answer_ne_silent {s : State} (hm : s.mode = .encode) (h : s.peerAnswers = true) (o : Nat) :
    s.sinkEnd.answer o ≠ .silent := by
  unfold State.peerAnswers at h
  rw [hm] at h
  cases hs : s.sinkEnd with
  | never => exact SinkAnswer.noConfusion
  | ioFailAt k =>
    show (if o < k then SinkAnswer.ok else .ioFail) ≠ .silent
    split <;> exact SinkAnswer.noConfusion
  | silentAt k => rw [hs] at h; cases h

/-- A stopped read raises its error where the source answers. -/
theorem State.exists_readStopped {s : State} (h : s.inEnd ≠ .silent) (k : Nat) (e : ErrorCode) :
    ∃ t, s.readStopped k e = .next t := by
  cases he : s.inEnd with
  | eos => exact ⟨_, State.readStopped_eos he⟩
  | ioFail => exact ⟨_, State.readStopped_ioFail he⟩
  | silent => exact absurd he h

/-- An emission is sent whole or fails where the sink answers. -/
theorem State.exists_emitThen {s : State} (h : ∀ o, s.sinkEnd.answer o ≠ .silent) (bs : List Byte)
    (commit : State → State) : ∃ t, s.emitThen bs commit = .next t := by
  unfold State.emitThen
  rcases State.emit_cases bs s with he | ⟨k, -, -, he⟩ | ⟨k, -, hsilent, -⟩
  · rw [he]; exact ⟨_, rfl⟩
  · rw [he]; exact ⟨_, rfl⟩
  · exact absurd hsilent (h _)

/-- The end-marker loop of DECODE ends where the source answers (41_decoder R172). -/
theorem exists_checkMarker {s : State} (h : s.inEnd ≠ .silent) (es : List Byte) : ∃ t, checkMarker es s = .next t := by
  induction es generalizing s with
  | nil => exact ⟨_, rfl⟩
  | cons e es ih =>
    cases hr : Mem.read s.inp s.bpos with
    | some v =>
      by_cases hv : v = e
      · obtain ⟨t, ht⟩ := ih (s := s.consume 1) h
        refine ⟨t, ?_⟩
        rw [checkMarker, State.readByte_of_some hr]
        exact (if_pos hv).trans ht
      · exact ⟨_, checkMarker_mismatch hr hv⟩
    | none =>
      cases he : s.inEnd with
      | eos => exact ⟨_, checkMarker_eos hr he⟩
      | ioFail => exact ⟨_, checkMarker_ioFail hr he⟩
      | silent => exact absurd he h

/-! ### Each step answers where its peer does -/

theorem exists_awaitCommand (s : State) : ∃ t, awaitCommand s = .next t := by
  unfold awaitCommand
  cases s.commands <;> exact ⟨_, rfl⟩

/-- The opcode fetched is well formed: no byte is a reserved RUN (30_encoding R111, R112). -/
theorem wellFormed_of_fetch {s : State} {i : Instr} (h : fetch s = .opcode i) : i.wellFormed = true := by
  unfold fetch at h
  cases hd : decode (s.delivered maxOpcodeLength) with
  | error e => rw [hd] at h; cases h
  | ok r =>
    obtain ⟨j, rest⟩ := r
    rw [hd] at h
    cases h
    exact (encodeOfDecode _ _ _ hd).1

section Decode

variable {s : State} (hm : s.mode = .decode) (hsource : s.inEnd ≠ .silent)
include hm hsource

theorem exists_step_decode_header (hp : s.phase = .header) : ∃ t, step s = .next t := by
  cases hparse : parseHeader (State.delivered headerLength s) with
  | none =>
    rw [step_decode_header_of_short hp hm hparse]
    exact State.exists_readStopped hsource _ _
  | some hd =>
    cases hcheck : hd.check s.params with
    | none => exact ⟨_, step_decode_header_of_check_none hp hm hparse hcheck⟩
    | some e => exact ⟨_, step_decode_header_of_check_some hp hm hparse hcheck⟩

/-- A whole opcode stays inside `PB`, which the invariant gives its full size (20_memory R82). -/
theorem exists_step_decode_body (hp : s.phase = .body) (hinv : s.Inv) : ∃ t, step s = .next t := by
  obtain ⟨hd, hc, -⟩ := (State.loopOk_body hp).1 hinv.1
  rw [step_body_decode hp hc hm]
  cases hf : fetch s with
  | opcode i =>
    obtain ⟨t, ht, -⟩ := exec_decode_of_due ⟨hm, hp, hc, hd⟩ (wellFormed_of_fetch hf)
    exact ⟨t, ht⟩
  | cutShort k => exact State.exists_readStopped hsource k _

theorem exists_step_decode_trailer (hp : s.phase = .trailer) : ∃ t, step s = .next t := by
  rw [step_trailer_decode hp hm]
  exact exists_checkMarker hsource endMarker

end Decode

section Encode

variable {s : State} (hm : s.mode = .encode) (hsink : ∀ o, s.sinkEnd.answer o ≠ .silent)
include hm hsink

theorem exists_step_encode_header (hp : s.phase = .header) : ∃ t, step s = .next t := by
  by_cases hok : s.DimsOk ∧ Params.admits s.params s.n = true
  · rw [step_encode_header_of_ok hp hm hok.1 hok.2]
    exact State.exists_emitThen hsink _ _
  · exact ⟨_, step_encode_header_of_bad hp hm hok⟩

/-- Every pixel is supplied, so the selection has a choice, and its opcode has a step (42_encoder R201). -/
theorem exists_step_encode_body (hp : s.phase = .body) (hinv : s.Inv) : ∃ t, step s = .next t := by
  obtain ⟨hloop, hbuf⟩ := hinv
  obtain ⟨hd, hc, -⟩ := (State.loopOk_body hp).1 hloop
  obtain ⟨hpb, -⟩ := hbuf.encode hm (by simp [hp])
  obtain ⟨i, hsel⟩ := State.encSelect_isSome hc fun _ => State.exists_loadPixel hd hpb
  obtain ⟨commit, hexec, -⟩ := exec_of_selected hm hp hc hsel (State.wellFormed_of_encSelect hsel)
  rw [step_of_encSelect hm hp hc hsel, hexec]
  exact State.exists_emitThen hsink _ _

theorem exists_step_encode_trailer (hp : s.phase = .trailer) : ∃ t, step s = .next t := by
  rw [step_trailer_encode hp hm]
  exact State.exists_emitThen hsink _ _

end Encode

end Sys2Proof.Machine
end

section
/-! PROOFS. The statements of 60_exceptions: progress on every input, the errors a step raises, and the partial image. -/

namespace Sys2Proof.Machine

/-- Settles O55: by mode and phase, from the invariant where the step is one of the body. -/
theorem everyInputHasANextState : Obligations.EveryInputHasANextState := by
  intro s hinv hpeer
  cases hi : s.mayIssue with
  | true => exact step_of_mayIssue hi ▸ exists_awaitCommand s
  | false =>
    have hphase := State.mayIssue_eq_false.1 hi
    cases hm : s.mode with
    | decode =>
      have hsource := State.inEnd_ne_silent hm hpeer
      rcases hphase with hp | hp | hp
      · exact exists_step_decode_header hm hsource hp
      · exact exists_step_decode_body hm hsource hp hinv
      · exact exists_step_decode_trailer hm hsource hp
    | encode =>
      have hsink := State.answer_ne_silent hm hpeer
      rcases hphase with hp | hp | hp
      · exact exists_step_encode_header hm hsink hp
      · exact exists_step_encode_body hm hsink hp hinv
      · exact exists_step_encode_trailer hm hsink hp

/-- Settles O51: a raise moves `BPOS` and `OUT`, writes ERR and PHASE, and nothing else. -/
theorem errorsEndTheCommand : Obligations.ErrorsEndTheCommand := by
  intro s t hi h herr
  cases step_raises herr hi h with
  | read _ k e he ht => subst ht; exact ⟨rfl, rfl, rfl, rfl, rfl, he⟩
  | written _ bs e he ht => subst ht; exact ⟨rfl, rfl, rfl, rfl, rfl, he⟩

/-- Settles O27: the raise keeps the image, and the invariant says which of its bytes hold a value. -/
theorem truncationReturnsThePartialImage : Obligations.TruncationReturnsThePartialImage := by
  rintro s t ⟨hloop, hbuf⟩ hp h ht
  obtain ⟨hd, -, -, hok, -⟩ := (State.loopOk_body hp).1 hloop
  obtain ⟨hm, k, rfl⟩ := step_truncated hp hok h ht
  have hpre := (State.buffersOk_decode hm (.inl hp)).1 hbuf
  obtain ⟨pb, hpb, hsize, hread⟩ := hpre.exists_pb hd
  refine ⟨pb, hpb, hsize, hread, ?_⟩
  obtain ⟨-, -, -, -, himage, -⟩ := hostSeesOnlyResults ((s.consume k).raise .truncatedStream)
  exact himage pb rfl hm hpb

end Sys2Proof.Machine
end

section
/-! SUPPORT. The bytes and pixels of an opcode step (30_encoding R110, 41_decoder R170), the length bounds they keep
(70_reset R312), and how far a running command is from its end (R311). -/

namespace Sys2Proof.Machine

/-! ### The length of an opcode and the pixels it stands for -/

theorem opcode_length_pos (op : Opcode) : 1 ≤ op.length := by
  cases op <;> decide

theorem opcode_length_le_four {op : Opcode} (h : op ≠ .rgba) : op.length ≤ 4 := by
  cases op with
  | rgba => exact absurd rfl h
  | rgb | index | diff | luma | run => decide

/-- A well-formed opcode stands for at most 62 pixels (30_encoding R108). -/
theorem State.pixelCount_le (s : State) {i : Instr} (hwf : i.wellFormed = true) : s.pixelCount i ≤ maxRun := by
  cases i with
  | run l =>
    have hlt : l.toNat < 62 := of_decide_eq_true hwf
    exact (Nat.min_le_left _ _).trans hlt
  | rgb | rgba | index | diff | luma => exact (by decide : 1 ≤ maxRun)

/-- How far an opcode step without an error moves the cursors, in either engine. -/
theorem exec_moves {i : Instr} {s t : State} (h : exec i s = .next t) (hd : s.DimsOk) (hne : t.phase ≠ .error) :
    t.bpos = s.bpos + i.length ∧ t.cursor = s.cursor + s.pixelCount i := by
  obtain ⟨hp, hc, hwf, -⟩ := exec_next h
  cases hm : s.mode with
  | decode =>
    obtain ⟨u, hu, -, hbpos, hcur, -⟩ := exec_decode_of_due ⟨hm, hp, hc, hd⟩ hwf
    cases h.symm.trans hu
    exact ⟨hbpos, hcur⟩
  | encode =>
    obtain ⟨-, hbpos, hcur, -⟩ := exec_encode_sent h hm hne
    exact ⟨hbpos.trans (congrArg _ (length_encode i)), hcur⟩

/-! ### The bounds for `k` pixels (70_reset R312) -/

theorem leastBytes_add_le {k m : Nat} (h : m ≤ maxRun) : leastBytes (k + m) ≤ leastBytes k + 1 := by
  simp only [leastBytes, maxRun] at *
  omega

theorem mostBytes_add (c : Byte) (k m : Nat) : mostBytes c (k + m) = mostBytes c k + mostBytes c m := by
  unfold mostBytes
  split <;> exact Nat.mul_add ..

theorem mostBytes_mono (c : Byte) {k m : Nat} (h : k ≤ m) : mostBytes c k ≤ mostBytes c m := by
  unfold mostBytes
  split <;> exact Nat.mul_le_mul_left _ h

/-- The opcode the encoder chooses is no longer than the bound for one pixel: with three channels it is no RGBA
(42_encoder R204). -/
theorem State.length_le_of_encSelect {s : State} {i : Instr} (hsel : s.encSelect = some i)
    (hopaque : s.c = 3 → s.prev.a = 255) : i.length ≤ mostBytes s.c 1 := by
  unfold mostBytes
  split
  · next hc3 => exact opcode_length_le_four (threeChannelsNeverNeedRgba.2 s i hc3 (hopaque hc3) hsel)
  · exact opcode_length_le _

/-! ### The bounds from the header step to the end marker -/

/-- The bounds on `BPOS` before the end marker, in both modes: the least in either, the most in ENCODE. -/
def State.BodyLengthOk (s : State) : Prop :=
  headerLength + leastBytes s.cursor ≤ s.bpos ∧
    (s.mode = .encode → s.bpos ≤ headerLength + mostBytes s.c s.cursor)

theorem State.lengthOk_iff_body {s : State} (hp : s.phase = .body ∨ s.phase = .trailer) :
    s.LengthOk ↔ s.BodyLengthOk := by
  unfold State.LengthOk State.BodyLengthOk
  rcases hp with hp | hp <;> cases hm : s.mode <;> simp [hp]

theorem State.lengthOk_error {s : State} (hp : s.phase = .error) : s.LengthOk := by
  unfold State.LengthOk
  rw [hp]
  exact trivial

theorem State.lengthOk_done_decode {s : State} (hp : s.phase = .done) (hm : s.mode = .decode) :
    s.LengthOk ↔ headerLength + leastBytes s.cursor ≤ s.bpos := by
  unfold State.LengthOk
  rw [hp, hm]

theorem State.lengthOk_done_encode {s : State} (hp : s.phase = .done) (hm : s.mode = .encode) :
    s.LengthOk ↔ headerLength + leastBytes s.cursor + 8 ≤ s.bpos ∧
      s.bpos ≤ headerLength + mostBytes s.c s.cursor + 8 := by
  unfold State.LengthOk
  rw [hp, hm]

theorem State.start_lengthOk (s : State) (cmd : Command) : (s.start cmd).LengthOk := by
  unfold State.LengthOk
  rw [State.start_phase]
  exact trivial

/-- Right after the header step `BPOS` is 14 and no pixel is done (43_header_codec R241, R242). -/
theorem State.BodyLengthOk.of_header {s : State} (hcur : s.cursor = 0) (hbpos : s.bpos = headerLength) :
    s.BodyLengthOk := by
  unfold State.BodyLengthOk
  rw [hcur, hbpos]
  exact ⟨le_refl _, fun _ => Nat.le_add_right _ _⟩

/-- An opcode adds at least one byte for at most 62 pixels and, in ENCODE, at most the bound for one pixel for at least
one. -/
theorem State.BodyLengthOk.opcode {i : Instr} {s t : State} {m : Nat} (h : s.BodyLengthOk) (hloop : s.LoopOk)
    (hopaque : s.OpaqueWhenRgb) (hx : exec i s = .next t) (ha : OpcodeAdvance s t m) : t.BodyLengthOk := by
  obtain ⟨hp, -, hwf, -⟩ := exec_next hx
  obtain ⟨hleast, hmost⟩ := h
  have hne : t.phase ≠ .error := ha.phase ▸ s.phaseAt_ne_error _
  obtain ⟨hbpos, hcur⟩ := exec_moves hx ((State.loopOk_body hp).1 hloop).1 hne
  obtain rfl : m = s.pixelCount i := Nat.add_left_cancel (ha.cursor.symm.trans hcur)
  unfold State.BodyLengthOk
  rw [hbpos, hcur, ha.keeps.mode, ha.keeps.c]
  refine ⟨?_, fun hm => ?_⟩
  · have hlen : 1 ≤ i.length := opcode_length_pos _
    have hstep := leastBytes_add_le (k := s.cursor) (s.pixelCount_le hwf)
    omega
  · have hlen := State.length_le_of_encSelect (State.encSelect_of_exec hx hm) (hopaque hp hm)
    have hmono := mostBytes_mono s.c ha.pos
    have hbody := hmost hm
    rw [mostBytes_add]
    omega

/-- Every end of a running step keeps the length bounds. -/
theorem RunNext.lengthOk {s t : State} (hr : RunNext s t) (hloop : s.LoopOk) (hopaque : s.OpaqueWhenRgb)
    (h : s.LengthOk) : t.LengthOk := by
  cases hr with
  | readFailed _ _ _ _ ht => subst ht; exact State.lengthOk_error rfl
  | writeFailed _ _ _ _ ht => subst ht; exact State.lengthOk_error rfl
  | headerRead hp _ _ _ ht =>
    subst ht
    obtain ⟨hcur, hbpos, -⟩ := (State.loopOk_header hp).1 hloop
    exact (State.lengthOk_iff_body (.inl rfl)).2 (.of_header hcur (by simp [hbpos]))
  | headerWritten hp _ _ ht =>
    subst ht
    obtain ⟨hcur, hbpos, -⟩ := (State.loopOk_header hp).1 hloop
    refine (State.lengthOk_iff_body (.inl rfl)).2 (.of_header hcur ?_)
    show s.bpos + 14 = 14
    rw [hbpos]
  | opcode hp _ _ hx ha =>
    exact (State.lengthOk_iff_body ha.phase_cases).2
      (((State.lengthOk_iff_body (.inl hp)).1 h).opcode hloop hopaque hx ha)
  | bodyOver hp hc =>
    obtain ⟨-, hlt, -⟩ := (State.loopOk_body hp).1 hloop
    exact absurd hlt hc
  | markerRead hp hm k ht =>
    obtain ⟨hleast, -⟩ := (State.lengthOk_iff_body (.inr hp)).1 h
    rcases ht with rfl | rfl <;>
      exact (State.lengthOk_done_decode rfl (by simpa using hm)).2 (Nat.le_add_right_of_le hleast)
  | markerWritten hp hm ht =>
    subst ht
    obtain ⟨hleast, hmost⟩ := (State.lengthOk_iff_body (.inr hp)).1 h
    exact (State.lengthOk_done_encode (s := (s.sentAs endMarker).finish) rfl hm).2
      ⟨Nat.add_le_add_right hleast 8, Nat.add_le_add_right (hmost hm) 8⟩

/-! ### How far a running command is from its end (70_reset R311) -/

/-- Once the header step is over no running step writes the dimensions (10_state R39). -/
theorem RunNext.n_of_ne_header {s t : State} (hr : RunNext s t) (hp : s.phase ≠ .header) : t.n = s.n := by
  cases hr with
  | readFailed _ _ _ _ ht => subst ht; rfl
  | writeFailed _ _ _ _ ht => subst ht; rfl
  | headerRead hh => exact absurd hh hp
  | headerWritten hh => exact absurd hh hp
  | opcode _ _ _ _ ha => exact ha.keeps.n
  | bodyOver _ _ ht => subst ht; rfl
  | markerRead _ _ _ ht => rcases ht with rfl | rfl <;> rfl
  | markerWritten _ _ ht => subst ht; rfl

theorem RunNext.peerAnswers {s t : State} (hr : RunNext s t) (h : s.peerAnswers = true) : t.peerAnswers = true := by
  have hk := hr.keepsInputs
  unfold State.peerAnswers at *
  rw [hk.mode, hk.inEnd, hk.sinkEnd]
  exact h

/-- The command ends within the pixels left and one step more, `N` being that of the state reached. -/
def State.EndsSoon (s : State) : Prop :=
  ∃ k t, steps k s = .next t ∧ (t.phase = .done ∨ t.phase = .error) ∧ k + s.cursor ≤ t.n + 1

/-- One step that ends the command. -/
theorem State.EndsSoon.of_step {s t : State} (h : step s = .next t) (hend : t.phase = .done ∨ t.phase = .error)
    (hc : s.cursor ≤ t.n) : s.EndsSoon :=
  ⟨1, t, steps_succ 0 h, hend, by omega⟩

/-- One step that moves the cursor forward, and what follows it. -/
theorem State.EndsSoon.head {s u : State} (h : step s = .next u) (hc : s.cursor < u.cursor) (hu : u.EndsSoon) :
    s.EndsSoon := by
  obtain ⟨k, t, hk, hend, hle⟩ := hu
  exact ⟨k + 1, t, (steps_succ k h).trans hk, hend, by omega⟩

/-- The end-marker step ends the command. -/
theorem endsSoon_of_trailer {s : State} (hinv : s.Inv) (hpeer : s.peerAnswers = true) (hp : s.phase = .trailer) :
    s.EndsSoon := by
  obtain ⟨-, hcur, -⟩ := (State.loopOk_trailer hp).1 hinv.1
  obtain ⟨t, ht⟩ := everyInputHasANextState s hinv hpeer
  have hr := step_running (State.mayIssue_eq_false.2 (.inr (.inr hp))) ht
  have hn := hr.n_of_ne_header (by simp [hp])
  exact .of_step ht (by simpa [hp, or_comm] using hr.phase_cases) (by omega)

/-- Each body step raises an error or moves the cursor, so the pixels left get fewer until the end marker is due. -/
theorem endsSoon_of_body {s : State} (hinv : s.Inv) (hpeer : s.peerAnswers = true) (hp : s.phase = .body) :
    s.EndsSoon := by
  induction hk : s.n - s.cursor using Nat.strong_induction_on generalizing s with
  | _ k ih =>
    obtain ⟨-, hc, -⟩ := (State.loopOk_body hp).1 hinv.1
    obtain ⟨u, hu⟩ := everyInputHasANextState s hinv hpeer
    have hr := step_running (State.mayIssue_eq_false.2 (.inr (.inl hp))) hu
    have hn := hr.n_of_ne_header (by simp [hp])
    have hinvu := stepKeepsTheInvariant s u hinv hu
    have hpeeru := hr.peerAnswers hpeer
    by_cases herr : u.phase = .error
    · exact .of_step hu (.inr herr) (by omega)
    · obtain ⟨i, m, -, ha⟩ := exec_of_step_body hp hc hu herr
      have hlt : s.cursor < u.cursor := ha.cursor ▸ Nat.lt_add_of_pos_right ha.pos
      refine .head hu hlt ?_
      rcases ha.phase_cases with hpu | hpu
      · exact ih (u.n - u.cursor) (by omega) hinvu hpeeru hpu rfl
      · exact endsSoon_of_trailer hinvu hpeeru hpu

end Sys2Proof.Machine
end

section
/-! PROOFS. The statements of 70_reset_and_hazards: the reset state, the length bounds, the end of a command, and the
pixels the encoder reads. -/

namespace Sys2Proof.Machine

/-- Settles O47: a step between commands waits or starts a command, and every end of a running step keeps the bounds. -/
theorem stepKeepsTheLengthBounds : Obligations.StepKeepsTheLengthBounds := by
  intro s t hloop hopaque hlen h
  cases hi : s.mayIssue with
  | true =>
    rcases step_waiting hi h with rfl | ⟨cmd, rest, rfl⟩
    · exact hlen
    · exact State.start_lengthOk _ cmd
  | false => exact (step_running hi h).lengthOk hloop hopaque hlen

/-- Settles O57: the header step raises an error or enters the body, from where each step leaves fewer pixels. -/
theorem commandEndsWithinItsBound : Obligations.CommandEndsWithinItsBound := by
  intro s hinv hp hpeer
  obtain ⟨u, hu⟩ := everyInputHasANextState s hinv hpeer
  have hr := step_running (State.mayIssue_eq_false.2 (.inl hp)) hu
  have hphase : u.phase = .error ∨ u.phase = .body := by simpa [hp] using hr.phase_cases
  rcases hphase with hpu | hpu
  · exact ⟨1, u, steps_succ 0 hu, .inr hpu, by omega⟩
  · obtain ⟨k, t, hk, hend, hle⟩ :=
      endsSoon_of_body (stepKeepsTheInvariant s u hinv hu) (hr.peerAnswers hpeer) hpu
    exact ⟨k + 1, t, (steps_succ k hu).trans hk, hend, by omega⟩

/-- Settles O54: the choice reads `PB` only by loading pixels below `N` (`State.encSelect_congr`). -/
theorem noPixelPastTheEndIsRead : Obligations.NoPixelPastTheEndIsRead :=
  fun _ _ hc hload => State.encSelect_congr rfl rfl rfl hload rfl hc

/-- Settles O10: IDLE asks nothing of the fields, the memories list nothing, and every slot holds (0,0,0,0). -/
theorem resetMeetsTheInvariants : Obligations.ResetMeetsTheInvariants :=
  ⟨rfl, ⟨trivial, trivial⟩, ⟨List.Pairwise.nil, List.Pairwise.nil, fun _ h => by cases h⟩,
    fun i => .inl (State.reset.clear_cacheAt i), fun h => Phase.noConfusion h, trivial⟩

end Sys2Proof.Machine
end
